-- ==== Sys2Proof/Word.lean ====
section
/-!
DEFINITION. The widths the spec's structures are written in: `ub`, `uw`, `ud` (00_scope.md R9), the 32-bit
channel masks (R2), and the 64-bit bit pattern that holds one data element of at most 8 bytes (R5).
-/

namespace Sys2Proof

/-- `ub`: one byte (R5, R9). -/
abbrev Byte := BitVec 8

/-- `uw`: 16 bits (R5, R9). -/
abbrev Half := BitVec 16

/-- `ud`: 32 bits (R5, R9); also the index of a general variable (R14). -/
abbrev Word := BitVec 32

/-- A channel mask: EM, ChEn, PMask are 32 bits (R2, R24, R25). -/
abbrev Mask := BitVec 32

/-- The bit pattern of one data element, zero-extended to the widest element size, 8 bytes (R5). -/
abbrev Pattern := BitVec 64

end Sys2Proof
end

