-- ==== Sys2Proof/Syntax.lean ====
section
/-!
DEFINITION. The operand structures of the spec and the operations over them: one constructor of `Instr` per row
of spec/opcode_table.json (30_encoding.md R43 to R68, 44_named_instructions.md R136), the fields a using
instruction supplies with an operand (R68), the entries of a harness program (R137),
and the reasons an operand or operation is refused, by name (30_encoding.md R70, 60_exceptions.md R140).
-/

namespace Sys2Proof

/-- The data types the spec names (00_scope.md R5, R6). -/
inductive Ty where
  | ud | d | uw | w | ub | b | df | f | v | vf | bool | uq | uv | q | hf | bf
  deriving DecidableEq, Repr

/-- The two groups of modifiers the spec settles (42_vector_operands.md R102, R103): the "not" modifier and the
arithmetic modifiers. -/
inductive ModGroup where
  | bitNot
  | arithmetic
  deriving DecidableEq, Repr

/-- Predicate Combine, bits 14:13 of the predication control word (30_encoding.md R55); the reserved code "11" is
refused by the decoder (R56) and has no constructor. -/
inductive Combine where
  | seq | any | all
  deriving DecidableEq, Repr

/-- The predication control word `icc0pppppppppppp` (R55), shared by the predication control of an instruction
and the `val` of a predicate operand (R54). -/
structure PredWord where
  inv  : Bool
  comb : Combine
  pid  : BitVec 12
  deriving DecidableEq, Repr

/-- The execution sizes (00_scope.md R4, decision D8). -/
inductive ExecSize where
  | e1 | e2 | e4 | e8 | e16 | e32
  deriving DecidableEq, Repr

/-- The mask controls (41_predication.md R92). -/
inductive MaskControl where
  | m1 | m2 | m3 | m4 | m5 | m6 | m7 | m8 | noMask
  deriving DecidableEq, Repr

/-- The region field of a general or indirect operand: three 4-bit codes (30_encoding.md R49). The codes are kept
as they are encoded, because an ignored field may hold any of the sixteen (R51, R65). -/
structure Region where
  vert  : BitVec 4
  width : BitVec 4
  horz  : BitVec 4
  deriving DecidableEq, Repr

/-- `gen_opnd` with the modifier code of its tag (R46, R48). -/
structure GenOpnd where
  mods   : BitVec 3
  id     : Word
  row    : Byte
  col    : Byte
  region : Region
  deriving DecidableEq, Repr

/-- `addr_opnd` (R52). -/
structure AddrOpnd where
  id     : Half
  offset : Byte
  width  : Byte
  deriving DecidableEq, Repr

/-- `pred_opnd` (R54). -/
structure PredOpnd where
  val : PredWord
  deriving DecidableEq, Repr

/-- `indirect_opnd` with the modifier code of its tag (R57 to R59). -/
structure IndOpnd where
  mods       : BitVec 3
  id         : Half
  addrOffset : Byte
  offset     : Half
  ty         : Ty
  region     : Region
  deriving DecidableEq, Repr

/-- `const_opnd` without `high` (R60). -/
structure Imm32 where
  ty  : Ty
  low : Word
  deriving DecidableEq, Repr

/-- `const_opnd` with `high` (R60). -/
structure Imm64 where
  ty   : Ty
  low  : Word
  high : Word
  deriving DecidableEq, Repr

/-- The storage classes of a state variable (R63). -/
inductive StateClass where
  | surface | sampler
  deriving DecidableEq, Repr

/-- `state_opnd` (R63). -/
structure StateOpnd where
  cls    : StateClass
  id     : Half
  offset : Byte
  deriving DecidableEq, Repr

/-- `raw_operand` (R66). -/
structure RawOpnd where
  id     : Word
  offset : Half
  deriving DecidableEq, Repr

/-- A vector operand: the six classes of R47 (an immediate in its two lengths, R60). -/
inductive VecOpnd where
  | general (o : GenOpnd)
  | address (o : AddrOpnd)
  | predicate (o : PredOpnd)
  | indirect (o : IndOpnd)
  | immediate32 (o : Imm32)
  | immediate64 (o : Imm64)
  | state (o : StateOpnd)
  deriving DecidableEq, Repr

/-- One constructor per row of spec/opcode_table.json, in the table's order. A reserved class keeps the modifier
bits of its tag, the only other field the tag is known to have (R46, R47). -/
inductive Instr where
  | opndGeneral (o : GenOpnd)
  | opndAddress (o : AddrOpnd)
  | opndPredicate (o : PredOpnd)
  | opndIndirect (o : IndOpnd)
  | opndImmediate32 (o : Imm32)
  | opndImmediate64 (o : Imm64)
  | opndState (o : StateOpnd)
  | opndReserved100 (mods : BitVec 3)
  | opndReserved111 (mods : BitVec 3)
  | rawOperand (o : RawOpnd)
  | predControl (w : PredWord)
  | hcopy (e : ExecSize) (m : MaskControl) (w : PredWord) (dst : VecOpnd) (src : VecOpnd)
  deriving DecidableEq, Repr

/-- The instructions and instruction groups the source names (44_named_instructions.md R124), and the harness
operation (R136): what an operand is used by decides whether its class and its modifier are admitted. `memory` is the
group of memory access instructions, `scatter` and `block` its two sub-kinds, which are not called exhaustive (R133). -/
inductive User where
  | addrAdd | movs | setp | andOp | notOp | orOp | xorOp
  | arithmetic | logic | dataMovement | move | shift | comparison | specialAddress
  | memory | scatter | block | sample
  | hcopy
  deriving DecidableEq, Repr

/-- Where an operand stands in its using instruction: destination, source, or a source that the instruction
takes as a scalar operand (42_vector_operands.md R99, R116). -/
inductive Place where
  | dst | src | scalar
  deriving DecidableEq, Repr

/-- The already-decoded fields that the using instruction supplies with an operand (30_encoding.md R68): execution
size, mask control, which instruction it is, the operand's place, and for a raw operand its length in bytes
(43_raw_operands.md R119). -/
structure Supply where
  exec   : ExecSize
  mask   : MaskControl
  user   : User
  place  : Place
  rawLen : Nat
  deriving DecidableEq, Repr

/-- What an operand is evaluated under: the supplied fields and the predication control of the using instruction
(R68, decision D37; 41_predication.md R89). -/
structure Ctx extends Supply where
  pred : PredWord
  deriving DecidableEq, Repr

/-- The stored form of one operation. The decoder is told by its caller which structure to expect (R43), so the
form says it: a vector operand, a raw operand, a predication control word, the fields of an HCOPY, whose execution
size and predication word are numbers and whose operands are encoded (R136), or a real vISA instruction, of which
the spec gives nothing but that it is refused by name (44_named_instructions.md R124, R135). An operand row is the
evaluation of one operand of an instruction, not the instruction: the instruction itself is `real`. -/
inductive Code where
  | vector (bytes : List Byte)
  | raw (bytes : List Byte)
  | pred (bytes : List Byte)
  | hcopy (exec : Nat) (mask : MaskControl) (pred : Half) (dst src : List Byte)
  | real (mnemonic : String)
  deriving DecidableEq, Repr

/-- One operation of a program: its stored form, the fields its using instruction supplies (R68, R137), and that
instruction's 16-bit predication control word, 0 for none (41_predication.md R89). The word belongs to an operand
row, vector or raw; a predication control row and an HCOPY hold their own in `code`. -/
structure Entry where
  supply : Supply
  pred   : Half
  code   : Code
  deriving DecidableEq, Repr

/-- Why a `refuse` is given (00_scope.md R12, 30_encoding.md R70). Each name stands for one check of the spec; a
refusal gives the operation no meaning, which is safe: nothing can be proved of a run that reaches one. -/
inductive Reason where
  /-- The bytes end before the structure does: the decoder's own. -/
  | truncated
  /-- Tag bit 6 or 7 is set (R46). -/
  | tagReserved
  /-- Operand class "100" or "111" (R47). -/
  | reservedClass
  /-- A nonzero modifier on an Address, Predicate, Immediate or State operand (R101). -/
  | modifierMustBeZero
  /-- Region bits 12 to 15 are not zero (R49). -/
  | regionReserved
  /-- Bit 12 of a predication control word is set (R56). -/
  | predReserved
  /-- Predicate combine "11" (R56). -/
  | combineReserved
  /-- Combine or inverse bits in a predicate operand (R109, decision D23). -/
  | predOperandControl
  /-- `indirect_offset` outside [-512, 511] (R58). -/
  | offsetRange
  /-- `bit_properties` bits 4 to 7 are not zero (R59). -/
  | bitPropertiesReserved
  /-- An indirect operand of type V, UV, VF or BOOL (R59). -/
  | indirectType
  /-- Immediate type byte bits 4 to 7 are not zero (R60). -/
  | immTypeReserved
  /-- An immediate of type BOOL (R60). -/
  | immBool
  /-- An immediate whose length does not fit its type: `high` goes with DF, Q and UQ only (R60). -/
  | immLength
  /-- State class "10" or "11" (R64). -/
  | stateClass
  /-- State class byte bits 2 to 7 are not zero (R64). -/
  | stateClassReserved
  /-- An execution size outside {1, 2, 4, 8, 16, 32} (R4, R136). -/
  | execSizeIllegal
  /-- An operand class that the using instruction does not admit (R99, R100, R105, R109, R114, R119, R136). -/
  | classNotAdmitted
  /-- An immediate in a destination position (R62). -/
  | immediateDst
  /-- A State operand in a destination position, of which the source says nothing (R100, R115). -/
  | stateDst
  /-- A modifier code without a meaning in `ModCode` (R101). -/
  | modifierMeaningless
  /-- A modifier that the using instruction does not admit (R102, R103). -/
  | modifierNotAdmitted
  /-- A nonzero modifier in the harness operation (R136). -/
  | harnessModifier
  /-- An `id` that no declaration has (R104, R120, R149). -/
  | undeclared
  /-- A general variable declared with an immediate-only type or BOOL (R5). -/
  | declaredType
  /-- Width not one of 1, 2, 4, 8, 16 (R51, R80). -/
  | regionWidth
  /-- HorzStride not one of 0, 1, 2, 4 (R51, R80). -/
  | regionHorz
  /-- VertStride not one of 0, 1, 2, 4, 8, 16, 32 (R51, R80). -/
  | regionVert
  /-- ExecSize less than Width (R80). -/
  | execBelowWidth
  /-- A destination HorzStride of 0 (R81). -/
  | dstStrideZero
  /-- A multi-address indirect destination (R65, R86). -/
  | multiAddressDst
  /-- The column offset crosses the GRF boundary (R82). -/
  | colOffset
  /-- The elements of a general operand span more than two adjacent GRF registers (R83). -/
  | grfSpan
  /-- A source address operand's width outside {1, 2, 4, 8, 16} (R53). -/
  | addrWidth
  /-- An address operand's elements run past its variable, statically (R107, R108). -/
  | addrBound
  /-- A predicate's elements run past its variable, statically (R21). -/
  | predBound
  /-- `exec_size + mask_control_offset > 32` (R93). -/
  | maskOverrun
  /-- NoMask with a predicate while `NoMaskPredOffset` is not supplied (R93). -/
  | noMaskPred
  /-- A packed immediate with an execution size above its element count (R113). -/
  | packedExec
  /-- A packed immediate as a scalar operand (R116, decision D21). -/
  | packedScalar
  /-- The element types of an HCOPY's destination and source differ (R136). -/
  | typeMismatch
  /-- A raw operand that is not GRF-aligned (R121). -/
  | rawAlign
  /-- A raw operand as a scalar operand: R116 lists the operands that may be one. -/
  | rawScalar
  /-- A state operand's elements run past its variable, statically (R114, decision D24). -/
  | stateBound
  /-- A State operand: ADDR_ADD and MOVS, the only instructions that take one, have no meaning in this model (R114). -/
  | stateUse
  /-- A real vISA instruction, by its name (R124, R135): the sources give none a meaning. -/
  | realInstruction (mnemonic : String)
  deriving DecidableEq, Repr

end Sys2Proof
end

