-- ==== Sys2Proof/Machine/Bytes.lean ====
section
/-!
DEFINITION. Byte order (30_encoding.md R44, 20_memory.md R34): little-endian, least significant byte first, for
the fields of structures and for data elements alike (decisions D2, D4).
-/

namespace Sys2Proof

/-- The `k` bytes of a number in storage order (R44). -/
def bytesOf (n : Nat) : Nat → List Byte
  | 0 => []
  | k + 1 => BitVec.ofNat 8 n :: bytesOf (n / 256) k

/-- The number that the next `k` bytes of a stream denote, and the bytes after them (R44). -/
def takeLE : Nat → List Byte → Except Reason (Nat × List Byte)
  | 0, bs => .ok (0, bs)
  | _ + 1, [] => .error .truncated
  | k + 1, b :: bs => do
      let (n, rest) ← takeLE k bs
      .ok (b.toNat + 256 * n, rest)

/-- Bits `hi:lo` of a number (00_scope.md R8), as a field of `w` bits starting at bit `lo`. -/
def fieldOf (w lo n : Nat) : BitVec w := BitVec.ofNat w (n / 2 ^ lo)

end Sys2Proof
end

