-- ==== Sys2Proof/Config.lean ====
section
/-!
DEFINITION. What the implementation fixes (00_scope.md R2), and the values the spec leaves open: constants
without a body, so that no proof can rest on what they are.
-/

namespace Sys2Proof

/-- `GRF_Size_in_Bytes`: one row of a general variable (R3). -/
def Config.grfSize : Nat := 32

/-- `MaxChannels`: the width of ChEn, PMask and EM (R2). -/
def Config.maxChannels : Nat := 32

/-- `ModCode` (R7, decision D7): what group a nonzero 3-bit modifier code belongs to on a destination (`true`) or on a
source, `none` when the code has no meaning there. The table is lost in the source, and no modifier may be assumed to
be legal on a destination (91_not_in_source.md N4, 42_vector_operands.md R118). FREE VALUE, log entry 5. -/
opaque Config.modCode : Bool → BitVec 3 → Option ModGroup

/-- `apply_mod` (42_vector_operands.md R118): what the modifier of the given code makes of a value of a type, on a
destination (`true`) or on a source. The source says nothing of it. FREE VALUE, log entry 5. -/
opaque Config.applyMod : BitVec 3 → Bool → Ty → Pattern → Pattern

/-- The element that an 8-bit field of a VF immediate denotes under the default `PackedImm` (42_vector_operands.md
R112, decision D20); its value is not vouched for (95_test_vectors.md T-IM10). FREE VALUE, log entry 6. -/
opaque Config.vfElem : BitVec 8 → Pattern

/-- Element `c` of a packed immediate of a type under a `PackedImm` other than the default: what the 32 bits of `low`
yield is not in the source (R112). FREE VALUE, log entry 4. -/
opaque Config.packedElem : Ty → Word → Nat → Pattern

/-- Byte `i` of what a shared function returns to a raw destination, `none` where it returns none: what it does with
the channel enable is its own (41_predication.md R97), and what it computes is not in the source (20_memory.md R31).
The arguments are how many raw destinations the run has served before, the using instruction, the channel enable it is
passed, the bytes last handed to it, and `i`. FREE VALUE, log entry 38. -/
opaque Config.sharedByte : Nat → User → Mask → List Byte → Nat → Option Byte

end Sys2Proof
end

