-- ==== Sys2Proof/Machine/Types.lean ====
section
/-!
DEFINITION. The tables of the spec: the parameters for type sizes, type codes and packed immediates (00_scope.md R2,
R5, R6) with their defaults, execution sizes (R4), the region code table (30_encoding.md R50), mask-control offsets
(41_predication.md R92).
-/

namespace Sys2Proof

/-- The size of a type that the source does not fix: an immediate of such a type has no `high` (30_encoding.md R60),
so it fits 32 bits. DEDUCED, log entry 3. -/
inductive NarrowSize where
  | one | two | four
  deriving DecidableEq, Repr

/-- The number of bytes of a size. -/
def NarrowSize.toNat : NarrowSize → Nat
  | .one => 1 | .two => 2 | .four => 4

/-- `TypeSize` (R2, R5, decision D5): the entries of the table that the source leaves open. -/
structure TypeSizes where
  d  : NarrowSize
  b  : NarrowSize
  f  : NarrowSize
  hf : NarrowSize
  bf : NarrowSize
  deriving DecidableEq, Repr

/-- The default of the open sizes (R5). PRESUMED, log entry 3. -/
def TypeSizes.default : TypeSizes := { d := .four, b := .one, f := .four, hf := .two, bf := .two }

/-- `sizeof(T)` in bytes (R5): the source fixes UB, UW, W, UD and the 64-bit types, `z` gives the rest. The packed
types occupy one 32-bit field; BOOL is the one-bit type of predicates and never the type of an element of a general
variable (log entry 3). -/
def Ty.size (t : Ty) (z : TypeSizes) : Nat :=
  match t with
  | .ub | .bool => 1
  | .uw | .w => 2
  | .ud | .v | .uv | .vf => 4
  | .df | .q | .uq => 8
  | .d => z.d.toNat
  | .b => z.b.toNat
  | .f => z.f.toNat
  | .hf => z.hf.toNat
  | .bf => z.bf.toNat

/-- V, UV and VF: immediate-only packed types (R5, R112). -/
def Ty.isPacked : Ty → Bool
  | .v | .uv | .vf => true
  | _ => false

/-- A type that an element of storage can have: not V, UV, VF or BOOL (R5, R59). -/
def Ty.isData (t : Ty) : Bool := !t.isPacked && t != .bool

/-- DF, Q and UQ: the types whose immediate carries `high` (30_encoding.md R60). -/
def Ty.isLong : Ty → Bool
  | .df | .q | .uq => true
  | _ => false

/-- The element type an operand of this type delivers: W for V, UW for UV, float for VF (R112). -/
def Ty.elem : Ty → Ty
  | .v => .w
  | .uv => .uw
  | .vf => .f
  | t => t

/-- The element count of a packed immediate: 8, 8, 4 (R112). -/
def Ty.packedCount : Ty → Nat
  | .vf => 4
  | _ => 8

/-- `TypeCode` (R2, R6, decision D6): the type that each 4-bit code names, a parameter of the machine. -/
structure TypeTable where
  types : Vector Ty 16
  deriving DecidableEq, Repr

/-- The type a code names. -/
def TypeTable.typeOf (T : TypeTable) (c : BitVec 4) : Ty := T.types[c.toNat]'c.isLt

/-- The first code that names a type; the encoder's, where the table has one. -/
def TypeTable.codeOf (T : TypeTable) (t : Ty) : BitVec 4 := BitVec.ofNat 4 (T.types.toList.idxOf t)

/-- The default table (R6). PRESUMED, log entry 3. -/
def TypeTable.default : TypeTable where
  types := #v[.ud, .d, .uw, .w, .ub, .b, .df, .f, .v, .vf, .bool, .uq, .uv, .q, .hf, .bf]

/-- `PackedImm` (R2, R112, decision D20): the default layout, or one of which nothing is known (log entry 4). -/
inductive PackedImm where
  | fields
  | unknown
  deriving DecidableEq, Repr

/-- The number of channels of an execution size (R4). -/
def ExecSize.toNat : ExecSize → Nat
  | .e1 => 1 | .e2 => 2 | .e4 => 4 | .e8 => 8 | .e16 => 16 | .e32 => 32

/-- The execution size a number denotes; any other number is refused (R4, R136). -/
def execSizeOf : Nat → Option ExecSize
  | 1 => some .e1 | 2 => some .e2 | 4 => some .e4 | 8 => some .e8 | 16 => some .e16 | 32 => some .e32
  | _ => none

/-- `mask_control_offset`: 4 * (n - 1) for Mn (R92, decision D9); NoMask has none of its own (R93). -/
def maskOffset : MaskControl → Option Nat
  | .m1 => some 0 | .m2 => some 4 | .m3 => some 8 | .m4 => some 12
  | .m5 => some 16 | .m6 => some 20 | .m7 => some 24 | .m8 => some 28
  | .noMask => none

/-- What a 4-bit region code denotes (30_encoding.md R50). -/
inductive Count where
  | null
  | elems (n : Nat)
  | unlisted
  deriving DecidableEq, Repr

/-- The region code table (R50). -/
def countOf (c : BitVec 4) : Count :=
  match c.toNat with
  | 0 => .null | 1 => .elems 0 | 2 => .elems 1 | 3 => .elems 2 | 4 => .elems 4
  | 5 => .elems 8 | 6 => .elems 16 | 7 => .elems 32 | _ => .unlisted

/-- The number of elements a region code stands for where it denotes one; the checks of R51 come first. -/
def countVal (c : BitVec 4) : Nat :=
  match countOf c with
  | .elems n => n
  | _ => 0

/-- `E(T)`: the elements of type T in one row of 32 bytes (10_state.md R15). -/
def elemsPerRow (z : TypeSizes) (t : Ty) : Nat := Config.grfSize / t.size z

/-- The predication control word 0 (41_predication.md R90). -/
def PredWord.zero : PredWord := { inv := false, comb := .seq, pid := 0 }

/-- A predication control word equal to 0: the instruction is not predicated (41_predication.md R90). -/
def PredWord.isNone (w : PredWord) : Bool := !w.inv && w.comb == .seq && w.pid == 0

/-- The instructions that execute on the EU: all but memory access and sampler instructions (R97, R133, R134). The
source names these two with "e.g."; that every other name and group of R124 executes on the EU is DESIGN CHOICE, log
entry 39. -/
def User.onEU : User → Bool
  | .memory | .scatter | .block | .sample => false
  | _ => true

end Sys2Proof
end

