-- ==== Sys2Proof/Machine/Fields.lean ====
section
/-!
DEFINITION. The per-field checks of 30_encoding.md R67 (R70; 60_exceptions.md R140): those that need nothing but an
operand's own fields, and those on a field that the operand's place uses (R51, R53). Checks that need the using
instruction or the declarations are in Machine/Static.lean.
-/

namespace Sys2Proof

/-- `indirect_offset` lies in [-512, 511] (R58). -/
def offsetInRange (x : Half) : Bool := decide (-512 ≤ x.toInt) && decide (x.toInt ≤ 511)

/-! ### Fields that a place uses (R51, R53, R65) -/

/-- A vertical stride code "0000" (R51). -/
def vertNull (r : Region) : Bool := countOf r.vert == .null

/-- A count is one of the listed values. -/
def countIn (c : BitVec 4) (legal : List Nat) : Bool :=
  match countOf c with
  | .elems n => legal.contains n
  | _ => false

/-- The legal values of Width (40_regions.md R80). -/
def widthLegal (c : BitVec 4) : Bool := countIn c [1, 2, 4, 8, 16]

/-- The legal values of HorzStride (R80). -/
def horzLegal (c : BitVec 4) : Bool := countIn c [0, 1, 2, 4]

/-- The legal values of VertStride (R80). -/
def vertLegal (c : BitVec 4) : Bool := countIn c [0, 1, 2, 4, 8, 16, 32]

/-- The region fields that the place uses hold legal codes (R51, R65; 40_regions.md R81, R86; 42_vector_operands.md
R116). `multi` says that a Null vertical stride means a multi-address operand, as it does for an indirect one. The order
of the three fields, vertical stride, width, horizontal stride, is DESIGN CHOICE, log entry 18. -/
def regionCodeReason (p : Place) (multi : Bool) (r : Region) : Option Reason :=
  match p with
  | .scalar => none
  | .dst =>
      if multi && vertNull r then some .multiAddressDst
      else if !horzLegal r.horz then some .regionHorz
      else if countVal r.horz = 0 then some .dstStrideZero else none
  | .src =>
      if !(vertLegal r.vert || (multi && vertNull r)) then some .regionVert
      else if !widthLegal r.width then some .regionWidth
      else if !horzLegal r.horz then some .regionHorz else none

/-- The check of the fields that a vector operand's place uses: the region's codes (R51), and the width of an address
operand, which a destination ignores (R53). -/
def VecOpnd.useReason (p : Place) : VecOpnd → Option Reason
  | .general o => regionCodeReason p false o.region
  | .indirect o => regionCodeReason p true o.region
  | .address o =>
      if p = .dst ∨ o.width.toNat ∈ [1, 2, 4, 8, 16] then none else some .addrWidth
  | .predicate _ | .immediate32 _ | .immediate64 _ | .state _ => none

/-! ### Fields by themselves -/

/-- The check of one vector operand's own fields (R58 to R60, R109). -/
def VecOpnd.fieldReason : VecOpnd → Option Reason
  | .general _ => none
  | .address _ => none
  | .predicate o => if o.val.inv || o.val.comb != .seq then some .predOperandControl else none
  | .indirect o =>
      if !offsetInRange o.offset then some .offsetRange
      else if !o.ty.isData then some .indirectType else none
  | .immediate32 o => if o.ty == .bool then some .immBool else if o.ty.isLong then some .immLength else none
  | .immediate64 o => if o.ty.isLong then none else some .immLength
  | .state _ => none

/-- The modifier code of a vector operand; classes other than General and Indirect have none (R101). -/
def VecOpnd.mods : VecOpnd → BitVec 3
  | .general o => o.mods
  | .indirect o => o.mods
  | _ => 0

/-- The classes HCOPY takes as its destination (R136). -/
def VecOpnd.hcopyDst : VecOpnd → Bool
  | .general _ | .indirect _ => true
  | _ => false

/-- The classes HCOPY takes as its source (R136). -/
def VecOpnd.hcopySrc : VecOpnd → Bool
  | .general _ | .indirect _ | .immediate32 _ | .immediate64 _ => true
  | _ => false

/-- The check of an instruction's own fields. -/
def Instr.fieldReason : Instr → Option Reason
  | .opndGeneral o => VecOpnd.fieldReason (.general o)
  | .opndAddress o => VecOpnd.fieldReason (.address o)
  | .opndPredicate o => VecOpnd.fieldReason (.predicate o)
  | .opndIndirect o => VecOpnd.fieldReason (.indirect o)
  | .opndImmediate32 o => VecOpnd.fieldReason (.immediate32 o)
  | .opndImmediate64 o => VecOpnd.fieldReason (.immediate64 o)
  | .opndState o => VecOpnd.fieldReason (.state o)
  | .opndReserved100 _ => some .reservedClass
  | .opndReserved111 _ => some .reservedClass
  | .rawOperand _ => none
  | .predControl _ => none
  | .hcopy _ _ _ dst src =>
      if !dst.hcopyDst || !src.hcopySrc then some .classNotAdmitted
      else if dst.mods != 0 || src.mods != 0 then some .harnessModifier
      else dst.fieldReason.or src.fieldReason

end Sys2Proof
end

