-- ==== Sys2Proof/WellFormed.lean ====
section
/-!
DEFINITION. Well-formedness of an instruction as syntax: its own fields pass every check of 30_encoding.md R67 and
R70 that needs no using instruction and no declarations (Machine/Fields.lean holds the checks).
-/

namespace Sys2Proof

/-- An instruction whose own fields pass every check. -/
def WellFormed (i : Instr) : Bool := i.fieldReason.isNone

end Sys2Proof
end

