-- ==== Sys2Proof/Decode.lean ====
section
/-!
DEFINITION. The decoder of operand structures, total on any bytes and rejecting by name (30_encoding.md R43 to
R67), and the encoder written from the same tables. An operand is read whole, then checked in the order of R67's
list: R46, R49, R51, R53, R56, R58, R59, R60, R64, R101, and last R109. The checks R51 and R53 depend on the place
that uses the operand; the decoder makes them when it is told the place. `T` is the parameter TypeCode (00_scope.md
R6). The spec gives no instruction word (R43): an operation is stored as a `Code`, which says which structure its
bytes hold (log entry 2).
-/

namespace Sys2Proof

/-- Turn a failed check into the decoder's rejection. -/
def rejectIf (c : Bool) (r : Reason) : Except Reason Unit :=
  if c then .error r else .ok ()

/-- The `region` field `0000hhhhwwwwvvvv` (R49). -/
def decodeRegion (n : Nat) : Except Reason Region := do
  rejectIf (n / 4096 != 0) .regionReserved
  .ok { vert := fieldOf 4 0 n, width := fieldOf 4 4 n, horz := fieldOf 4 8 n }

/-- The predicate combine code, bits 14:13 (R55, R56). -/
def decodeCombine (n : Nat) : Except Reason Combine :=
  match n / 8192 % 4 with
  | 0 => .ok .seq
  | 1 => .ok .any
  | 2 => .ok .all
  | _ => .error .combineReserved

/-- The predication control word `icc0pppppppppppp` (R55, R56). That bit 12 is checked before the combine code is
DESIGN CHOICE, log entry 18. -/
def decodePredWord (n : Nat) : Except Reason PredWord := do
  rejectIf (n / 4096 % 2 != 0) .predReserved
  let comb ← decodeCombine n
  .ok { inv := n / 32768 % 2 != 0, comb := comb, pid := fieldOf 12 0 n }

/-- The check of the fields that a place uses, where the decoder is told the place (R51, R53). -/
def checkUse (use : Option Place) (o : VecOpnd) : Except Reason Unit :=
  match use.bind o.useReason with
  | some r => .error r
  | none => .ok ()

/-- `gen_opnd` (R48). -/
def decodeGen (use : Option Place) (mods : BitVec 3) (bs : List Byte) : Except Reason (VecOpnd × List Byte) := do
  let (id, bs) ← takeLE 4 bs
  let (row, bs) ← takeLE 1 bs
  let (col, bs) ← takeLE 1 bs
  let (reg, bs) ← takeLE 2 bs
  let region ← decodeRegion reg
  let o : VecOpnd := .general { mods := mods, id := BitVec.ofNat 32 id, row := BitVec.ofNat 8 row,
                                col := BitVec.ofNat 8 col, region := region }
  checkUse use o
  .ok (o, bs)

/-- `addr_opnd` (R52, R53); its modifier must be zero (42_vector_operands.md R101). -/
def decodeAddr (use : Option Place) (mods : BitVec 3) (bs : List Byte) : Except Reason (VecOpnd × List Byte) := do
  let (id, bs) ← takeLE 2 bs
  let (offset, bs) ← takeLE 1 bs
  let (width, bs) ← takeLE 1 bs
  let o : VecOpnd := .address { id := BitVec.ofNat 16 id, offset := BitVec.ofNat 8 offset,
                                width := BitVec.ofNat 8 width }
  checkUse use o
  rejectIf (mods != 0) .modifierMustBeZero
  .ok (o, bs)

/-- `pred_opnd` (R54, R56); combine and inverse bits are refused in an operand (R109, decision D23). -/
def decodePred (mods : BitVec 3) (bs : List Byte) : Except Reason (VecOpnd × List Byte) := do
  let (val, bs) ← takeLE 2 bs
  let w ← decodePredWord val
  rejectIf (mods != 0) .modifierMustBeZero
  rejectIf (w.inv || w.comb != .seq) .predOperandControl
  .ok (.predicate { val := w }, bs)

/-- `indirect_opnd` (R57 to R59). That the reserved bits of `bit_properties` are checked before its type is DESIGN
CHOICE, log entry 18. -/
def decodeInd (T : TypeTable) (use : Option Place) (mods : BitVec 3) (bs : List Byte) :
    Except Reason (VecOpnd × List Byte) := do
  let (id, bs) ← takeLE 2 bs
  let (k, bs) ← takeLE 1 bs
  let (off, bs) ← takeLE 2 bs
  let (props, bs) ← takeLE 1 bs
  let (reg, bs) ← takeLE 2 bs
  let ty := T.typeOf (fieldOf 4 0 props)
  let region ← decodeRegion reg
  let o : VecOpnd := .indirect { mods := mods, id := BitVec.ofNat 16 id, addrOffset := BitVec.ofNat 8 k,
                                 offset := BitVec.ofNat 16 off, ty := ty, region := region }
  checkUse use o
  rejectIf (!offsetInRange (BitVec.ofNat 16 off)) .offsetRange
  rejectIf (props / 16 != 0) .bitPropertiesReserved
  rejectIf (!ty.isData) .indirectType
  .ok (o, bs)

/-- The fields of `const_opnd` after its type byte: the type decides whether `high` follows (R60). -/
def decodeConst (ty : Ty) (bs : List Byte) : Except Reason (VecOpnd × List Byte) := do
  let (low, bs) ← takeLE 4 bs
  if ty.isLong then do
    let (high, bs) ← takeLE 4 bs
    .ok (.immediate64 { ty := ty, low := BitVec.ofNat 32 low, high := BitVec.ofNat 32 high }, bs)
  else .ok (.immediate32 { ty := ty, low := BitVec.ofNat 32 low }, bs)

/-- `const_opnd` (R60). That the reserved bits of the type byte are checked before its type is DESIGN CHOICE, log entry
18. -/
def decodeImm (T : TypeTable) (mods : BitVec 3) (bs : List Byte) : Except Reason (VecOpnd × List Byte) := do
  let (tb, bs) ← takeLE 1 bs
  let ty := T.typeOf (fieldOf 4 0 tb)
  let x ← decodeConst ty bs
  rejectIf (tb / 16 != 0) .immTypeReserved
  rejectIf (ty == .bool) .immBool
  rejectIf (mods != 0) .modifierMustBeZero
  .ok x

/-- The storage class of a state operand, `class[1:0]` (R63, R64). -/
def decodeClass (n : Nat) : Except Reason StateClass :=
  match n % 4 with
  | 0 => .ok .surface
  | 1 => .ok .sampler
  | _ => .error .stateClass

/-- `state_opnd` (R63, R64). That the class is checked before the reserved bits beside it is DESIGN CHOICE, log entry
18. -/
def decodeState (mods : BitVec 3) (bs : List Byte) : Except Reason (VecOpnd × List Byte) := do
  let (c, bs) ← takeLE 1 bs
  let (id, bs) ← takeLE 2 bs
  let (offset, bs) ← takeLE 1 bs
  let cls ← decodeClass c
  rejectIf (c / 4 != 0) .stateClassReserved
  rejectIf (mods != 0) .modifierMustBeZero
  .ok (.state { cls := cls, id := BitVec.ofNat 16 id, offset := BitVec.ofNat 8 offset }, bs)

/-- A vector operand at the head of a byte stream, used at a place when one is given, and the bytes after it (R45 to
R47, R67). -/
def decodeVecAt (T : TypeTable) (use : Option Place) (bs : List Byte) : Except Reason (VecOpnd × List Byte) := do
  let (t, info) ← takeLE 1 bs
  rejectIf (t / 64 != 0) .tagReserved
  let mods : BitVec 3 := fieldOf 3 3 t
  match t % 8 with
  | 0 => decodeGen use mods info
  | 1 => decodeAddr use mods info
  | 2 => decodePred mods info
  | 3 => decodeInd T use mods info
  | 5 => decodeImm T mods info
  | 6 => decodeState mods info
  | _ => .error .reservedClass

/-- A vector operand at the head of a byte stream, decoded standalone (R67, decision D37). -/
def decodeVec (T : TypeTable) (bs : List Byte) : Except Reason (VecOpnd × List Byte) := decodeVecAt T none bs

/-- A stream of `n` vector operands, one after another (R67). -/
def decodeVecs (T : TypeTable) : Nat → List Byte → Except Reason (List VecOpnd × List Byte)
  | 0, bs => .ok ([], bs)
  | n + 1, bs => do
      let (o, bs) ← decodeVec T bs
      let (os, bs) ← decodeVecs T n bs
      .ok (o :: os, bs)

/-- `raw_operand` at the head of a byte stream (R66, R67). -/
def decodeRaw (bs : List Byte) : Except Reason (RawOpnd × List Byte) := do
  let (id, bs) ← takeLE 4 bs
  let (offset, bs) ← takeLE 2 bs
  .ok ({ id := BitVec.ofNat 32 id, offset := BitVec.ofNat 16 offset }, bs)

/-- The row of the opcode table that a vector operand's structure is. -/
def VecOpnd.toInstr : VecOpnd → Instr
  | .general o => .opndGeneral o
  | .address o => .opndAddress o
  | .predicate o => .opndPredicate o
  | .indirect o => .opndIndirect o
  | .immediate32 o => .opndImmediate32 o
  | .immediate64 o => .opndImmediate64 o
  | .state o => .opndState o

/-- A tag of reserved class: the decoder knows nothing of it but its modifier bits, and the machine refuses it by
name (R47). -/
def reservedTag (bs : List Byte) : Option Instr :=
  match bs with
  | [] => none
  | t :: _ =>
      if t.toNat / 64 != 0 then none
      else match t.toNat % 8 with
        | 4 => some (.opndReserved100 (fieldOf 3 3 t.toNat))
        | 7 => some (.opndReserved111 (fieldOf 3 3 t.toNat))
        | _ => none

/-- The execution size an HCOPY's number stands for (R136). -/
def decodeExec (n : Nat) : Except Reason ExecSize :=
  match execSizeOf n with
  | some e => .ok e
  | none => .error .execSizeIllegal

/-- The decoder of one stored operation. Bytes after the structure belong to what follows it (R67). A real vISA
instruction is rejected by its name: no instruction decoder exists (44_named_instructions.md R124, R135). -/
def decode (T : TypeTable) : Code → Except Reason Instr
  | .vector bs =>
      match reservedTag bs with
      | some i => .ok i
      | none => do
          let (o, _) ← decodeVec T bs
          .ok o.toInstr
  | .raw bs => do
      let (o, _) ← decodeRaw bs
      .ok (.rawOperand o)
  | .pred bs => do
      let (n, _) ← takeLE 2 bs
      let w ← decodePredWord n
      .ok (.predControl w)
  | .hcopy n m p d s => do
      let e ← decodeExec n
      let (dst, _) ← decodeVec T d
      let (src, _) ← decodeVec T s
      let w ← decodePredWord p.toNat
      .ok (.hcopy e m w dst src)
  | .real name => .error (.realInstruction name)

/-! ### The encoder -/

/-- `tag[2:0]` and `tag[5:3]` (R46). -/
def encodeTag (cls : Nat) (mods : BitVec 3) : Nat := cls + 8 * mods.toNat

/-- The `region` field (R49). -/
def encodeRegion (r : Region) : Nat := r.vert.toNat + 16 * r.width.toNat + 256 * r.horz.toNat

/-- The combine code (R55). -/
def encodeCombine : Combine → Nat
  | .seq => 0
  | .any => 1
  | .all => 2

/-- The predication control word (R55). -/
def encodePredWord (w : PredWord) : Nat :=
  w.pid.toNat + 8192 * encodeCombine w.comb + (if w.inv then 32768 else 0)

/-- The storage class code (R63). -/
def encodeClass : StateClass → Nat
  | .surface => 0
  | .sampler => 1

/-- The bytes of a vector operand (R45 to R64). -/
def encodeVec (T : TypeTable) : VecOpnd → List Byte
  | .general o =>
      bytesOf (encodeTag 0 o.mods) 1 ++ (bytesOf o.id.toNat 4 ++ (bytesOf o.row.toNat 1 ++
        (bytesOf o.col.toNat 1 ++ bytesOf (encodeRegion o.region) 2)))
  | .address o =>
      bytesOf (encodeTag 1 0) 1 ++ (bytesOf o.id.toNat 2 ++ (bytesOf o.offset.toNat 1 ++ bytesOf o.width.toNat 1))
  | .predicate o => bytesOf (encodeTag 2 0) 1 ++ bytesOf (encodePredWord o.val) 2
  | .indirect o =>
      bytesOf (encodeTag 3 o.mods) 1 ++ (bytesOf o.id.toNat 2 ++ (bytesOf o.addrOffset.toNat 1 ++
        (bytesOf o.offset.toNat 2 ++ (bytesOf (T.codeOf o.ty).toNat 1 ++ bytesOf (encodeRegion o.region) 2))))
  | .immediate32 o =>
      bytesOf (encodeTag 5 0) 1 ++ (bytesOf (T.codeOf o.ty).toNat 1 ++ bytesOf o.low.toNat 4)
  | .immediate64 o =>
      bytesOf (encodeTag 5 0) 1 ++ (bytesOf (T.codeOf o.ty).toNat 1 ++
        (bytesOf o.low.toNat 4 ++ bytesOf o.high.toNat 4))
  | .state o =>
      bytesOf (encodeTag 6 0) 1 ++ (bytesOf (encodeClass o.cls) 1 ++
        (bytesOf o.id.toNat 2 ++ bytesOf o.offset.toNat 1))

/-- The bytes of a raw operand (R66). -/
def encodeRaw (o : RawOpnd) : List Byte := bytesOf o.id.toNat 4 ++ bytesOf o.offset.toNat 2

/-- The stored form of an instruction, for a table that has a code for each of its types. -/
def encode (T : TypeTable) : Instr → Code
  | .opndGeneral o => .vector (encodeVec T (.general o))
  | .opndAddress o => .vector (encodeVec T (.address o))
  | .opndPredicate o => .vector (encodeVec T (.predicate o))
  | .opndIndirect o => .vector (encodeVec T (.indirect o))
  | .opndImmediate32 o => .vector (encodeVec T (.immediate32 o))
  | .opndImmediate64 o => .vector (encodeVec T (.immediate64 o))
  | .opndState o => .vector (encodeVec T (.state o))
  | .opndReserved100 mods => .vector (bytesOf (encodeTag 4 mods) 1)
  | .opndReserved111 mods => .vector (bytesOf (encodeTag 7 mods) 1)
  | .rawOperand o => .raw (encodeRaw o)
  | .predControl w => .pred (bytesOf (encodePredWord w) 2)
  | .hcopy e m w dst src => .hcopy e.toNat m (BitVec.ofNat 16 (encodePredWord w)) (encodeVec T dst) (encodeVec T src)

/-! ### The opcode table's words -/

/-- The longest structure: a 64-bit immediate, 10 bytes (R45). -/
def longestOperand : Nat := 10

/-- The stored form of the operation whose bits are `w`, numbered as spec/opcode_table.json numbers them. The table's
rows overlap but for their lengths: a 16-bit row is the predication control word, a 48-bit row whose tag is not an
immediate's is the raw operand, every other row is a vector operand (R43: the caller says which). Where the table gives
fewer bits than the structure has, the bytes after them are zero and the structure is not refused as truncated. DESIGN
CHOICE, log entry 2. -/
def codeOfTableWord (nbits w : Nat) : Code :=
  if nbits = 16 then .pred (bytesOf w longestOperand)
  else if nbits = 48 ∧ w % 256 ≠ 5 then .raw (bytesOf w longestOperand)
  else .vector (bytesOf w longestOperand)

/-- What the decoder reads from a table word under the default TypeCode (the host's question); `none` where it
refuses. -/
def decodeTableWord (nbits w : Nat) : Option Instr :=
  match decode TypeTable.default (codeOfTableWord nbits w) with
  | .ok i => some i
  | .error _ => none

end Sys2Proof
end

