-- ==== Sys2Proof/Machine/State.lean ====
section
/-!
DEFINITION. The state of the machine as plain data (10_state.md R13 to R30): the five kinds of architectural state,
the harness program counter, the launch configuration a run is given, and the ports through which an operand meets
the instruction that uses it. Faults and refusals are closed inductives.
-/

namespace Sys2Proof.Machine

/-- Sparse storage: a list of (key, value) pairs with rising keys; an unlisted key holds no value (R29). -/
abbrev Store (α : Type) := List (Nat × α)

/-- The bytes of the general variables, one `Host.Cell` per byte that holds a value (R32, R33). -/
abbrev Memory := List Host.Cell

/-- The canonical form: keys strictly rising. An entry always holds a value, so none equals what an unlisted key
reads as. -/
abbrev Store.wf {α : Type} (m : Store α) : Prop := (m.map Prod.fst).Pairwise (· < ·)

/-- The canonical form of the general variables' memory. -/
abbrev Memory.wf (m : Memory) : Prop := Store.wf m

/-- An address value `ptr(v, b)`: general variable `v`, signed byte offset `b` (R20, decision D16). -/
structure Ptr where
  v : Word
  b : Int
  deriving DecidableEq, Repr

/-- An element of a state variable: an opaque value (R23). -/
structure StateVal where
  token : Nat
  deriving DecidableEq, Repr

/-- The declaration of a general variable: element type and count (R14), and the power of two that its declaration
promises its base to be a multiple of, as an exponent, when it promises one (20_memory.md R36; log entry 13). -/
structure VarDecl where
  ty       : Ty
  n        : Nat
  alignLog : Option Nat
  deriving DecidableEq, Repr

/-- The declaration of an address, predicate or state variable: its element count, and whether the count is known
statically, which decides between a refusal and a fault U6, U7 or U8 (R19, R21, R23, decision D24). -/
structure ElemDecl where
  n     : Nat
  known : Bool
  deriving DecidableEq, Repr

/-- What a run is launched with and no operation changes: the tables `variables`, `addresses` and `state_var` and the
declarations of predicate variables (R30, R137), and the parameters of 00_scope.md R2 that no decision fixes. -/
structure Launch where
  vars       : Store VarDecl
  addresses  : Store ElemDecl
  predicates : Store ElemDecl
  surfaces   : Store ElemDecl
  samplers   : Store ElemDecl
  /-- `TypeCode` (R2, R6). -/
  types : TypeTable
  /-- `TypeSize` (R2, R5). -/
  sizes : TypeSizes
  /-- `PackedImm` (R2, R112). -/
  packed : PackedImm
  /-- `AddrElemBits` (R2, decision D24), `none` when it is not supplied. Nothing rests on it, because an address value
  is the abstract pointer of decision D16 (log entry 21). -/
  addrElemBits : Option Nat
  /-- `NoMaskPredOffset` (R2, R93), `none` when it is not supplied. -/
  noMaskPredOffset : Option Nat
  deriving DecidableEq, Repr

/-- The whole state. -/
structure State where
  /-- Configuration of the run (R30). -/
  launch : Launch
  /-- The program: configuration, a finite list of operations (R28, R42, R137). -/
  program : List Entry
  /-- The index of the next operation (R28, R137). -/
  pc : Nat
  /-- General variables: `GV[id].byte[b]` (R14, R33). -/
  gv : Memory
  /-- Address variables: `AV[id].elem[k]` (R19, R20). -/
  av : Store Ptr
  /-- Predicate variables: `PV[id].bit[n]` (R21). -/
  pv : Store Bool
  /-- State variables: `SV[class][id].elem[k]` (R23). -/
  sv : Store StateVal
  /-- The execution mask EM (R24). -/
  em : Mask
  /-- What the operand under evaluation is given: the fields its using instruction supplies and that instruction's
  predication control (R68). -/
  ctx : Ctx
  /-- MODEL'S OWN (log entry 7): the ChEn last passed on, by a predication control row to what uses it, or by an
  operand of an instruction that does not execute on the EU to its shared function (R25, R97). No operation reads it. -/
  passed : Mask
  /-- MODEL'S OWN (log entry 8): per channel, the data value a source operand delivers to the using instruction
  and a destination operand stores from it. -/
  laneData : List Pattern
  /-- MODEL'S OWN (log entry 8): the same for address values. -/
  lanePtr : List Ptr
  /-- MODEL'S OWN (log entry 8): the same for predicate bits, one bit per channel. -/
  laneBit : Mask
  /-- MODEL'S OWN (log entry 8): the same for state-variable elements, source only. -/
  laneState : List StateVal
  /-- MODEL'S OWN (log entry 9): the bytes that a raw source last handed to a shared function. -/
  payload : List Byte
  /-- MODEL'S OWN (log entry 38): how many raw destinations have taken what a shared function returned; the free value
  `Config.sharedByte` is read with it. -/
  returns : Nat
  deriving DecidableEq, Repr

/-- The operand position a cause or refusal names (60_exceptions.md R138, R140). -/
inductive Pos where
  | dst | src | pred | opcode
  deriving DecidableEq, Repr

/-- Where a check failed: operation index, operand position, first channel (R138). For a raw operand, which has no
channels, the last is the index of the byte. -/
structure Site where
  op   : Nat
  pos  : Pos
  chan : Nat
  deriving DecidableEq, Repr

/-- `Undefined(U1)` to `Undefined(U9)` (60_exceptions.md R138): terminal (R139), and safe: the hardware may do
anything, and nothing can be proved of a run that reaches one. -/
inductive Fault where
  /-- A general operand accesses an element index not less than the element count (R74). Raised by general
  operands, alone or in HCOPY. Safe. -/
  | u1 (site : Site)
  /-- An indirect operand reads an address element that does not exist or holds no value, or accesses bytes
  outside the variable its address points into (R79), or an address that points into no declared variable of data
  elements (log entry 37). Raised by indirect operands, alone or in HCOPY. Safe. -/
  | u2 (site : Site)
  /-- An address accessed by an indirect operand is not aligned to its type (R79, R36). Safe. -/
  | u3 (site : Site)
  /-- The elements of an indirect operand span more than two adjacent GRF registers (R83, R85). Safe. -/
  | u4 (site : Site)
  /-- A raw operand's bytes run past the end of its variable (R122). Raised by raw operands. Safe. -/
  | u5 (site : Site)
  /-- An address operand designates elements beyond its variable, whose count is not known statically (R107,
  R108). Raised by address operands. Safe. -/
  | u6 (site : Site)
  /-- A predicate element lies beyond its variable, whose count is not known statically (R21). Raised by the
  channel-enable evaluation, in every row, and by predicate operands. Safe. -/
  | u7 (site : Site)
  /-- A state operand's element lies beyond its variable, whose count is not known statically (R114). Raised by
  `readState` only, which no row reaches, since R114 has every State operand refused. Safe. -/
  | u8 (site : Site)
  /-- An element that holds no value is read: "an operand that reads an element holding no value `raise`s
  `Undefined(U9)`" (R29), for which no value is ever substituted (R139). Raised by every source operand for an enabled
  channel (a raw source for any of its bytes), and by the channel-enable evaluation in every row that makes it. Safe. -/
  | u9 (site : Site)
  deriving DecidableEq, Repr

/-- Why the machine gives an operation no meaning. -/
inductive Refusal where
  /-- The instruction has no meaning in the model: `exec`'s own arms. Safe. -/
  | notModelled (mnemonic : String)
  /-- A static check of the spec failed, at an operand position of an operation (60_exceptions.md R140). Raised by
  every meaning, and by the step for the whole program before its first operation. Safe. -/
  | illFormed (reason : Reason) (pos : Pos) (op : Nat)
  /-- The program counter lies beyond the end of the program, which no run from pc = 0 reaches (R137, R148). Raised
  by the step. Safe. -/
  | pcOutside (pc : Nat)
  deriving DecidableEq, Repr

/-- The outcome of one operation (00_scope.md R12). -/
abbrev Result := Host.Outcome State Fault Refusal

/-- The fields of the operand under evaluation before any program has supplied them. DESIGN CHOICE, log entry 10. -/
def Ctx.reset : Ctx := { exec := .e1, mask := .m1, user := .move, place := .src, rawLen := 0, pred := PredWord.zero }

/-- The state at the start of a run with nothing declared and nothing loaded (10_state.md R29, R147): no element of
any variable holds a value and `pc` is 0. EM is a launch parameter, set to all ones here (DESIGN CHOICE, log
entry 11); the parameters stand at the spec's defaults (PRESUMED, log entries 3 and 4), the model's own ports at zero
(DESIGN CHOICE, log entries 7 to 10 and 38). -/
def State.reset : State where
  launch := { vars := [], addresses := [], predicates := [], surfaces := [], samplers := [],
              types := TypeTable.default, sizes := TypeSizes.default, packed := .fields, addrElemBits := none,
              noMaskPredOffset := none }
  program := []
  pc := 0
  gv := []
  av := []
  pv := []
  sv := []
  em := 0xFFFFFFFF#32
  ctx := Ctx.reset
  passed := 0#32
  laneData := List.replicate 32 0#64
  lanePtr := List.replicate 32 { v := 0#32, b := 0 }
  laneBit := 0#32
  laneState := List.replicate 32 { token := 0 }
  payload := []
  returns := 0

end Sys2Proof.Machine
end

