-- ==== Sys2Proof/Machine/Ops.lean ====
section
/-!
DEFINITION. The named operations over storage and state: sparse storage in canonical form, the bytes and elements
of a general variable (20_memory.md R33, R34), the lanes, the state updates, and the three ways a check ends an
operation (00_scope.md R12). There is no trap to take and nothing to return from (60_exceptions.md R143): a fault
is terminal and changes nothing (R139).
-/

namespace Sys2Proof.Machine

/-! ### Storage -/

/-- The value listed at a key; `none` where the element holds no value (R29). -/
def Store.get? {α : Type} : Store α → Nat → Option α
  | [], _ => none
  | (k, a) :: rest, key => if k = key then some a else Store.get? rest key

/-- Write a value at a key, keeping the keys rising. -/
def Store.set {α : Type} : Store α → Nat → α → Store α
  | [], key, a => [(key, a)]
  | (k, x) :: rest, key, a =>
      if key < k then (key, a) :: (k, x) :: rest
      else if key = k then (key, a) :: rest
      else (k, x) :: Store.set rest key a

/-- The key of byte `b` of general variable `v`: every variable is a space of its own (R38, decision D16), and the
variable's 32-bit index (R14) is the low part of the key, so distinct pairs have distinct keys. -/
def gvKey (v : Word) (b : Nat) : Nat := b * 2 ^ 32 + v.toNat

/-- The key of element `k` of address variable `id`, a 16-bit index (R19). -/
def avKey (id : Half) (k : Nat) : Nat := k * 2 ^ 16 + id.toNat

/-- The key of bit `n` of predicate variable `pid`, a 12-bit index (R21). -/
def pvKey (pid : BitVec 12) (n : Nat) : Nat := n * 2 ^ 12 + pid.toNat

/-- The key of element `k` of state variable `id` of a class: two separate index spaces of 16 bits (R23). -/
def svKey (cls : StateClass) (id : Half) (k : Nat) : Nat :=
  (k * 2 + (match cls with | .surface => 0 | .sampler => 1)) * 2 ^ 16 + id.toNat

/-! ### General variables: bytes and elements -/

/-- `GV[v].byte[b]` in a memory. -/
def byteOf? (m : Memory) (v : Word) (b : Nat) : Option Byte := Store.get? m (gvKey v b)

/-- The number that `n` bytes from `b` hold, least significant first; `none` if one of them holds no value. That an
element only some of whose bytes hold a value holds none is DESIGN CHOICE, log entry 40. -/
def readNat (m : Memory) (v : Word) : Nat → Nat → Option Nat
  | _, 0 => some 0
  | b, n + 1 =>
      match byteOf? m v b, readNat m v (b + 1) n with
      | some lo, some hi => some (lo.toNat + 256 * hi)
      | _, _ => none

/-- `ElemRead(v, T, b)` for a type of `size` bytes (R34). -/
def elemRead (m : Memory) (v : Word) (size b : Nat) : Option Pattern :=
  (readNat m v b size).map (BitVec.ofNat 64)

/-- Write the low `n` bytes of a number from `b`, least significant first. -/
def writeNat (m : Memory) (v : Word) : Nat → Nat → Nat → Memory
  | _, 0, _ => m
  | b, n + 1, x => writeNat (Store.set m (gvKey v b) (BitVec.ofNat 8 x)) v (b + 1) n (x / 256)

/-- `ElemWrite(v, T, b, x)` for a type of `size` bytes (R34). -/
def elemWrite (m : Memory) (v : Word) (size b : Nat) (x : Pattern) : Memory := writeNat m v b size x.toNat

/-- Write a run of bytes from `b` (43_raw_operands.md R119); a byte that is not given stays as it is. -/
def writeBytes (m : Memory) (v : Word) : Nat → List (Option Byte) → Memory
  | _, [] => m
  | b, some x :: xs => writeBytes (Store.set m (gvKey v b) x) v (b + 1) xs
  | b, none :: xs => writeBytes m v (b + 1) xs

/-! ### Channels -/

/-- For every channel `c < e` that is enabled, in increasing order, apply a write (41_predication.md R95). -/
def forChannels {σ : Type} (e : Nat) (en : Nat → Bool) (write : σ → Nat → σ) (x : σ) : σ :=
  (List.range e).foldl (fun x c => if en c then write x c else x) x

/-- The first channel `c < e` whose check fails, and how (60_exceptions.md R142). -/
def firstFault (e : Nat) (check : Nat → Option Fault) : Option Fault := (List.range e).findSome? check

/-- The 32-bit mask whose bit `n` is `f n`. -/
def maskOf (f : Nat → Bool) : Mask :=
  (List.range 32).foldl (fun acc n => if f n then acc ||| BitVec.twoPow 32 n else acc) 0#32

/-- The lanes after channels with `en c` take `f c` and the others keep what they hold. -/
def laneFill {α : Type} (old : List α) (dflt : α) (en : Nat → Bool) (f : Nat → α) : List α :=
  (List.range 32).map fun c => if en c then f c else old.getD c dflt

/-! ### State -/

/-- Element `k` of address variable `id` (R19). -/
def State.addrElem (s : State) (id : Half) (k : Nat) : Option Ptr := Store.get? s.av (avKey id k)

/-- Bit `n` of predicate variable `pid` (R21). -/
def State.predBit (s : State) (pid : BitVec 12) (n : Nat) : Option Bool := Store.get? s.pv (pvKey pid n)

/-- Element `k` of a state variable (R23). -/
def State.stateElem (s : State) (cls : StateClass) (id : Half) (k : Nat) : Option StateVal :=
  Store.get? s.sv (svKey cls id k)

/-- `pc <- pc + 1` (44_named_instructions.md R136). -/
def State.advance (s : State) : State := { s with pc := s.pc + 1 }

/-- What an operation's entry supplies becomes that of the operand under evaluation (R68). -/
def State.enter (s : State) (c : Ctx) : State := { s with ctx := c }

def State.setGv (s : State) (m : Memory) : State := { s with gv := m }
def State.setAv (s : State) (m : Store Ptr) : State := { s with av := m }
def State.setPv (s : State) (m : Store Bool) : State := { s with pv := m }
def State.setPassed (s : State) (m : Mask) : State := { s with passed := m }
def State.setLaneData (s : State) (l : List Pattern) : State := { s with laneData := l }
def State.setLanePtr (s : State) (l : List Ptr) : State := { s with lanePtr := l }
def State.setLaneBit (s : State) (m : Mask) : State := { s with laneBit := m }
def State.setLaneState (s : State) (l : List StateVal) : State := { s with laneState := l }
def State.setPayload (s : State) (l : List Byte) : State := { s with payload := l }
def State.setReturns (s : State) (n : Nat) : State := { s with returns := n }

/-- The declared general variable `id` (R14). -/
def Launch.varDecl (l : Launch) (id : Word) : Option VarDecl := Store.get? l.vars id.toNat

/-- The declared address variable `id` (R19). -/
def Launch.addrDecl (l : Launch) (id : Half) : Option ElemDecl := Store.get? l.addresses id.toNat

/-- The declared predicate variable `pid` (R21). -/
def Launch.predDecl (l : Launch) (pid : BitVec 12) : Option ElemDecl := Store.get? l.predicates pid.toNat

/-- The declared state variable `id` of a class (R23). -/
def Launch.stateDecl (l : Launch) (cls : StateClass) (id : Half) : Option ElemDecl :=
  match cls with
  | .surface => Store.get? l.surfaces id.toNat
  | .sampler => Store.get? l.samplers id.toNat

/-- The declared general variable `id` as storage of data elements: the spec gives no storage to one declared V, UV,
VF or BOOL (00_scope.md R5). DESIGN CHOICE, log entry 37. -/
def Launch.storage (l : Launch) (id : Word) : Option VarDecl := (l.varDecl id).filter fun d => d.ty.isData

/-- `GV[id].size = GV[id].n * sizeof(GV[id].type)` bytes (R14). -/
def VarDecl.size (d : VarDecl) (z : TypeSizes) : Nat := d.n * d.ty.size z

/-- `VarBaseAlign` (20_memory.md R36), a power of two: 32 for a variable of a GRF or more; for a smaller one what its
declaration promises, by default the size of its declared type. PRESUMED default, log entry 13. -/
def VarDecl.baseAlign (d : VarDecl) (z : TypeSizes) : Nat :=
  if Config.grfSize ≤ d.size z then Config.grfSize
  else match d.alignLog with
    | some k => 2 ^ k
    | none => d.ty.size z

/-- The operand position of a place. -/
def placePos : Place → Pos
  | .dst => .dst
  | .src => .src
  | .scalar => .src

/-! ### How a check ends an operation -/

/-- `refuse` when a static check fails (R12, R140). -/
def refuseIf (r : Option (Pos × Reason)) (s : State) (k : Result) : Result :=
  match r with
  | some (p, x) => .refused (.illFormed x p s.pc)
  | none => k

/-- `raise Undefined` when a run-time check fails (R12, R139). -/
def faultIf (f : Option Fault) (k : Result) : Result :=
  match f with
  | some x => .fault x
  | none => k

end Sys2Proof.Machine
end

