-- ==== Sys2Proof/Machine/Static.lean ====
section
/-!
DEFINITION. The static checks: everything `refuse`d that can be told from the encoded fields, the execution size,
the mask control, the using instruction and the declarations alone (00_scope.md R12, 60_exceptions.md R140).
-/

namespace Sys2Proof.Machine

/-! ### Which instruction admits which operand (42_vector_operands.md R99 to R105, R109, R114) -/

/-- "Address variables may only appear in the special address instructions"; ADDR_ADD is one (R105, R125). That no other
named instruction or group is one is DESIGN CHOICE, log entry 35 (R129). -/
def takesAddress : User → Bool
  | .addrAdd | .specialAddress => true
  | _ => false

/-- "Predicates may appear either in comparison, logical, or the special SETP instructions" (R22, R109). That the named
logic instructions are the only ones beside the groups logic and comparison is DESIGN CHOICE, log entry 35 (R128,
R131). -/
def takesPredicate : User → Bool
  | .setp | .comparison | .logic | .andOp | .notOp | .orOp | .xorOp => true
  | _ => false

/-- A State operand's "usage is restricted to the ADDR_ADD and MOVS instruction" (R114). -/
def takesState : User → Bool
  | .addrAdd | .movs => true
  | _ => false

/-- The "not" modifier "may only appear in certain logic instructions (namely and, not, or, and xor)" (R102). -/
def takesNot : User → Bool
  | .andOp | .notOp | .orOp | .xorOp => true
  | _ => false

/-- "The arithmetic modifiers may appear in arithmetic, shift, and move instructions" (R103). The members of the
groups are open (R130, R132). DESIGN CHOICE, log entry 35: every other name and group of R124 is counted in none of the
three, "data movement", ADDR_ADD, MOVS, SETP and the special address instructions among them, so all of these refuse an
arithmetic modifier. -/
def takesArith : User → Bool
  | .arithmetic | .shift | .move => true
  | _ => false

/-- The vector operand's class is admitted at its place in its using instruction (R100, R116). A vector destination
of an instruction that does not execute on the EU is not admitted: such an instruction's destination is a raw
operand (R99), and what a shared function would store is not in the source (R97). -/
def admitReason (c : Supply) (o : VecOpnd) : Option Reason :=
  match o, c.place with
  | .general _, p | .indirect _, p =>
      if p = .dst ∧ c.user.onEU = false then some .classNotAdmitted else none
  | .address _, .scalar | .predicate _, .scalar | .state _, .scalar => some .classNotAdmitted
  | .address _, _ => if takesAddress c.user then none else some .classNotAdmitted
  | .predicate _, _ => if takesPredicate c.user then none else some .classNotAdmitted
  | .state _, .dst => some .stateDst
  | .state _, .src => if takesState c.user then none else some .classNotAdmitted
  | .immediate32 _, .dst | .immediate64 _, .dst => some .immediateDst
  | .immediate32 _, _ | .immediate64 _, _ => none

/-- The modifier is admitted at its place by the using instruction (R101 to R103); the harness takes none (R136).
Whether a modifier is legal on a destination is open (R118) and left to the free `ModCode` (log entry 5). -/
def modReason (p : Place) (u : User) (m : BitVec 3) : Option Reason :=
  if m = 0 then none
  else if u = .hcopy then some .harnessModifier
  else match Config.modCode (p == .dst) m with
    | none => some .modifierMeaningless
    | some .bitNot => if takesNot u then none else some .modifierNotAdmitted
    | some .arithmetic => if takesArith u then none else some .modifierNotAdmitted

/-! ### Regions (40_regions.md R80 to R83, R86) -/

/-- A source with more elements in a region row than channels (R80). -/
def widthReason (p : Place) (e : Nat) (r : Region) : Option Reason :=
  if p = .src ∧ e < countVal r.width then some .execBelowWidth else none

/-- Every restriction on a region's parameters at a place (R51, R65, R80, R81, R86, R116). -/
def regionReason (p : Place) (multi : Bool) (e : Nat) (r : Region) : Option Reason :=
  (regionCodeReason p multi r).or (widthReason p e r)

/-! ### Elements of a general operand (R71 to R73) -/

/-- `src_index(R, C, T, V, W, H, c)` (R72), with `E = E(T)`. -/
def srcIndex (R C E V W H c : Nat) : Nat := R * E + C + (c / W) * V + (c % W) * H

/-- The element that channel `i` of a destination designates (R73). -/
def dstIndex (R C E H i : Nat) : Nat := R * E + C + i * H

/-- The element index that channel `c` of a general operand accesses, at a place, for an element type (R71, R73,
R116). -/
def genElem (z : TypeSizes) (t : Ty) (p : Place) (o : GenOpnd) (c : Nat) : Nat :=
  match p with
  | .dst => dstIndex o.row.toNat o.col.toNat (elemsPerRow z t) (countVal o.region.horz) c
  | .src =>
      srcIndex o.row.toNat o.col.toNat (elemsPerRow z t) (countVal o.region.vert) (countVal o.region.width)
        (countVal o.region.horz) c
  | .scalar => o.row.toNat * elemsPerRow z t + o.col.toNat

/-- The GRF row, counted from the variable's first, in which the byte `b` lies (R83). -/
def grfOf (b : Nat) : Nat := b / Config.grfSize

/-- Two elements lie in the same or in adjacent GRF registers (R83). -/
def grfAdjacent (b b' : Nat) : Bool := decide (grfOf b ≤ grfOf b' + 1) && decide (grfOf b' ≤ grfOf b + 1)

/-- Restriction 6 for a general operand, over all channels (R83, decision D39). -/
def genSpanOk (z : TypeSizes) (d : VarDecl) (p : Place) (o : GenOpnd) (e : Nat) : Bool :=
  decide (d.size z < Config.grfSize) ||
    (List.range e).all fun c => (List.range e).all fun c' =>
      grfAdjacent (genElem z d.ty p o c * d.ty.size z) (genElem z d.ty p o c' * d.ty.size z)

/-! ### The checks of each class -/

/-- `exec_size + mask_control_offset > 32` is refused (41_predication.md R93). -/
def maskReason (e : Nat) (m : MaskControl) : Option Reason :=
  match maskOffset m with
  | some off => if 32 < e + off then some .maskOverrun else none
  | none => none

/-- The offset of the first predicate element: that of the mask control, or the parameter under NoMask (R92, R93). -/
def predOffset (l : Launch) (m : MaskControl) : Option Nat :=
  match maskOffset m with
  | some off => some off
  | none => l.noMaskPredOffset

/-- The static checks of a use of predicate variable `pid` (10_state.md R21, 41_predication.md R93). Their order is
DESIGN CHOICE, log entry 18. -/
def predReason (l : Launch) (e : Nat) (m : MaskControl) (pid : BitVec 12) : Option Reason :=
  match predOffset l m with
  | none => some .noMaskPred
  | some off =>
      if 32 < e + off then some .maskOverrun
      else match l.predDecl pid with
        | none => some .undeclared
        | some d => if d.known && decide (d.n < off + e) then some .predBound else none

/-- The static checks of a general operand's declaration, origin and region (R74, R80, R82, R83, R104). Their order is
DESIGN CHOICE, log entry 18. -/
def genReason (l : Launch) (c : Supply) (o : GenOpnd) : Option Reason :=
  match l.varDecl o.id with
  | none => some .undeclared
  | some d =>
      if !d.ty.isData then some .declaredType
      else (widthReason c.place c.exec.toNat o.region).or <|
        if elemsPerRow l.sizes d.ty ≤ o.col.toNat then some .colOffset
        else if genSpanOk l.sizes d c.place o c.exec.toNat then none else some .grfSpan

/-- The static checks of an indirect operand's declaration and region (R80, R149). -/
def indReason (l : Launch) (c : Supply) (o : IndOpnd) : Option Reason :=
  match l.addrDecl o.id with
  | none => some .undeclared
  | some _ => widthReason c.place c.exec.toNat o.region

/-- The static bound of an address operand (R107, R108). -/
def addrReason (l : Launch) (c : Supply) (o : AddrOpnd) : Option Reason :=
  match l.addrDecl o.id with
  | none => some .undeclared
  | some d =>
      if d.known && decide (d.n < o.offset.toNat + (if c.place = .dst then c.exec.toNat else o.width.toNat))
      then some .addrBound else none

/-- The static checks of an immediate: a packed one is no scalar, and has an element for every channel (R113,
R116). -/
def immReason (c : Supply) (t : Ty) : Option Reason :=
  if !t.isPacked then none
  else if c.place = .scalar then some .packedScalar
  else if t.packedCount < c.exec.toNat then some .packedExec else none

/-- The static checks of a state operand: its declaration (R104's rule for tables, R149), and, where the count is known
statically, its bound for every channel (R114, decisions D24 and D39). One that passes them is refused all the same:
"A model that gives no meaning to ADDR_ADD and MOVS refuses every State operand" (R114). That this check comes last is
DESIGN CHOICE, log entry 18. -/
def stateReason (l : Launch) (c : Supply) (o : StateOpnd) : Reason :=
  match l.stateDecl o.cls o.id with
  | none => .undeclared
  | some d => if d.known && decide (d.n < o.offset.toNat + c.exec.toNat) then .stateBound else .stateUse

/-- The checks of a class that the declarations decide. -/
def classReason (l : Launch) (c : Supply) : VecOpnd → Option Reason
  | .general o => genReason l c o
  | .address o => addrReason l c o
  | .predicate o => predReason l c.exec.toNat c.mask o.val.pid
  | .indirect o => indReason l c o
  | .immediate32 o => immReason c o.ty
  | .immediate64 o => immReason c o.ty
  | .state o => some (stateReason l c o)

/-- Every static check of a vector operand: the per-field checks in the order of 30_encoding.md R67, then admission,
then what the declarations decide (log entry 18). -/
def vecReason (l : Launch) (c : Supply) (o : VecOpnd) : Option Reason :=
  (o.useReason c.place).or <| o.fieldReason.or <| (modReason c.place c.user o.mods).or <| (admitReason c o).or <|
    classReason l c o

/-- `vecReason` with the position a refusal names. -/
def vecOwnRefusal (l : Launch) (c : Supply) (o : VecOpnd) : Option (Pos × Reason) :=
  (vecReason l c o).map fun r => (placePos c.place, r)

/-- Every static check of a predication control word under an execution size and a mask control (R90, R93). -/
def predControlReason (l : Launch) (e : Nat) (m : MaskControl) (w : PredWord) : Option Reason :=
  (maskReason e m).or <| if w.isNone then none else predReason l e m w.pid

/-- `predControlReason` with the position a refusal names: `pred`, for an overrun of the mask control alone too, which
is no operand (60_exceptions.md R140). DESIGN CHOICE, log entry 18. -/
def predControlRefusal (l : Launch) (e : Nat) (m : MaskControl) (w : PredWord) : Option (Pos × Reason) :=
  (predControlReason l e m w).map fun r => (.pred, r)

/-- The static checks of the predication that an operand is evaluated under. -/
def ctxRefusal (l : Launch) (c : Ctx) : Option (Pos × Reason) :=
  predControlRefusal l c.exec.toNat c.mask c.pred

/-- Every static check of a vector operand row: the operand, then the predication it stands under (log entry 18). -/
def vecRefusal (l : Launch) (c : Ctx) (o : VecOpnd) : Option (Pos × Reason) :=
  (vecOwnRefusal l c.toSupply o).or (ctxRefusal l c)

/-- Every static check of a raw operand (R119 to R121). Their order is DESIGN CHOICE, log entry 18. -/
def rawReason (l : Launch) (c : Supply) (o : RawOpnd) : Option Reason :=
  if c.user.onEU then some .classNotAdmitted
  else if c.place = .scalar then some .rawScalar
  else match l.varDecl o.id with
    | none => some .undeclared
    | some d =>
        if !d.ty.isData then some .declaredType
        else if Config.grfSize ≤ d.size l.sizes then
          if o.offset.toNat % Config.grfSize = 0 then none else some .rawAlign
        else if o.offset.toNat = 0 ∧ d.baseAlign l.sizes = Config.grfSize then none else some .rawAlign

/-- `rawReason` with the position a refusal names. -/
def rawOwnRefusal (l : Launch) (c : Supply) (o : RawOpnd) : Option (Pos × Reason) :=
  (rawReason l c o).map fun r => (placePos c.place, r)

/-- Every static check of a raw operand row: the operand, then the predication it stands under. -/
def rawRefusal (l : Launch) (c : Ctx) (o : RawOpnd) : Option (Pos × Reason) :=
  (rawOwnRefusal l c.toSupply o).or (ctxRefusal l c)

/-- The element type of a data operand: the declared type for a General operand, the operand's own for an Indirect or
Immediate one (R104, R110, R112). -/
def dataTy (l : Launch) : VecOpnd → Option Ty
  | .general o => (l.varDecl o.id).map VarDecl.ty
  | .indirect o => some o.ty
  | .immediate32 o => some o.ty.elem
  | .immediate64 o => some o.ty.elem
  | _ => none

/-- The fields HCOPY supplies with one of its operands (R136). -/
def hcopySupply (e : ExecSize) (m : MaskControl) (p : Place) : Supply :=
  { exec := e, mask := m, user := .hcopy, place := p, rawLen := 0 }

/-- What one of HCOPY's operands is evaluated under (R136). -/
def hcopyCtx (e : ExecSize) (m : MaskControl) (w : PredWord) (p : Place) : Ctx :=
  { hcopySupply e m p with pred := w }

/-- Every static check of an HCOPY: destination, source, predication, equal element types (R136, R142). Which classes
it takes is in `admitReason`. R142 orders the operands only; that the predication and the types come last is DESIGN
CHOICE, log entry 18. -/
def hcopyRefusal (l : Launch) (e : ExecSize) (m : MaskControl) (w : PredWord) (dst src : VecOpnd) :
    Option (Pos × Reason) :=
  (vecOwnRefusal l (hcopySupply e m .dst) dst).or <| (vecOwnRefusal l (hcopySupply e m .src) src).or <|
    (predControlRefusal l e.toNat m w).or <|
      if dataTy l dst = dataTy l src then none else some (.src, .typeMismatch)

/-- Every static check of an instruction, under what its entry supplies: what marks a whole program before any step is
taken (R140). -/
def staticRefusal (l : Launch) (c : Ctx) : Instr → Option (Pos × Reason)
  | .opndGeneral o => vecRefusal l c (.general o)
  | .opndAddress o => vecRefusal l c (.address o)
  | .opndPredicate o => vecRefusal l c (.predicate o)
  | .opndIndirect o => vecRefusal l c (.indirect o)
  | .opndImmediate32 o => vecRefusal l c (.immediate32 o)
  | .opndImmediate64 o => vecRefusal l c (.immediate64 o)
  | .opndState o => vecRefusal l c (.state o)
  | .opndReserved100 _ => some (placePos c.place, .reservedClass)
  | .opndReserved111 _ => some (placePos c.place, .reservedClass)
  | .rawOperand o => rawRefusal l c o
  | .predControl w => predControlRefusal l c.exec.toNat c.mask w
  | .hcopy e m w dst src => hcopyRefusal l e m w dst src

end Sys2Proof.Machine
end

