-- ==== Sys2Proof/Machine/Flags.lean ====
section
/-!
DEFINITION. Predication: the spec has no flags (10_state.md R22, R26), and predicate variables with the execution
mask are its only condition state. The channel-enable evaluation of 41_predication.md R89 to R98.
-/

namespace Sys2Proof.Machine

/-- Predicate element `off + n` lies beyond its variable (U7, 10_state.md R21). -/
def predBoundFault (s : State) (pos : Pos) (pid : BitVec 12) (off n : Nat) : Option Fault :=
  match s.launch.predDecl pid with
  | some d => if d.n ≤ off + n then some (.u7 ⟨s.pc, pos, n⟩) else none
  | none => some (.u7 ⟨s.pc, pos, n⟩)

/-- Predicate element `off + n` holds no value (U9, 10_state.md R29). -/
def predValueFault (s : State) (pos : Pos) (pid : BitVec 12) (off n : Nat) : Option Fault :=
  match s.predBit pid (off + n) with
  | some _ => none
  | none => some (.u9 ⟨s.pc, pos, n⟩)

/-- The predicate offset in force: that of the mask control, or the parameter under NoMask (R92, R93). -/
def predOff (s : State) (m : MaskControl) : Nat := (predOffset s.launch m).getD 0

/-- What reading PMask raises: every one of the `e` bits is read, whatever EM holds (R94). That the bounds of all bits
are checked before any value, as `evalPred` does, is DESIGN CHOICE, log entry 18: 60_exceptions.md R142 orders the
evaluation as a whole only. -/
def chEnFault (s : State) (e : Nat) (m : MaskControl) (w : PredWord) : Option Fault :=
  if w.isNone then none
  else (firstFault e (predBoundFault s .pred w.pid (predOff s m))).or
    (firstFault e (predValueFault s .pred w.pid (predOff s m)))

/-- `base[n]`: 1 under NoMask, else `EM[n + off]` (R94). -/
def baseBit (s : State) (m : MaskControl) (n : Nat) : Bool :=
  match maskOffset m with
  | some off => s.em.getLsbD (n + off)
  | none => true

/-- `p[n] = Pred[n + off]` (R94). -/
def predRead (s : State) (m : MaskControl) (pid : BitVec 12) (n : Nat) : Bool :=
  (s.predBit pid (predOff s m + n)).getD false

/-- `q[n]`: the predicate bits combined over the `e` channels (R94, R98). -/
def combineBit (k : Combine) (e : Nat) (p : Nat → Bool) (n : Nat) : Bool :=
  match k with
  | .seq => p n
  | .any => (List.range e).any p
  | .all => (List.range e).all p

/-- `PMask[n] = q[n] XOR inv`: combine first, then inverse (R91, R94). -/
def pmaskBit (s : State) (e : Nat) (m : MaskControl) (w : PredWord) (n : Nat) : Bool :=
  (combineBit w.comb e (predRead s m w.pid) n) ^^ w.inv

/-- `ChEn[n]` in the closed form of R94; clear at and above the execution size (R96). -/
def chEnBit (s : State) (e : Nat) (m : MaskControl) (w : PredWord) (n : Nat) : Bool :=
  decide (n < e) && baseBit s m n && (w.isNone || pmaskBit s e m w n)

/-- `EvaluateChEn()` (R94), once `chEnFault` has raised nothing. -/
def evalChEn (s : State) (e : Nat) (m : MaskControl) (w : PredWord) : Mask := maskOf (chEnBit s e m w)

/-! ### The channels of the operand under evaluation -/

/-- What evaluating the channel enable of the operand's instruction raises (R94). -/
def State.ctxFault (s : State) : Option Fault := chEnFault s s.ctx.exec.toNat s.ctx.mask s.ctx.pred

/-- `ChEn[c]` of the operand's instruction, evaluated anew for each operation (R94; 10_state.md R25). -/
def State.enabled (s : State) (c : Nat) : Bool := chEnBit s s.ctx.exec.toNat s.ctx.mask s.ctx.pred c

/-- ChEn of the operand's instruction as a mask (R94). -/
def State.ctxChEn (s : State) : Mask := evalChEn s s.ctx.exec.toNat s.ctx.mask s.ctx.pred

/-- What the port for ChEn holds after a data source: off the EU, the ChEn that is passed to the shared function (R97;
log entry 7). -/
def State.passedOn (s : State) : Mask := if s.ctx.user.onEU then s.passed else s.ctxChEn

/-- A source delivers to channel `c`, whose element holds a value when `has c`: every enabled channel on the EU (R95).
Off the EU nothing is assumed of what the shared function does with ChEn (R97): it is given every channel's value
that there is (log entry 8). -/
def State.delivers (s : State) (has : Nat → Bool) (c : Nat) : Bool :=
  s.enabled c || (!s.ctx.user.onEU && decide (c < s.ctx.exec.toNat) && has c)

end Sys2Proof.Machine
end

