-- ==== Sys2Proof/Machine/Operands.lean ====
section
/-!
DEFINITION. What each operand form denotes at run time: the location each channel accesses, the checks made for all
channels, the value read (40_regions.md R71 to R79, R83 to R86; 42_vector_operands.md R104 to R116; 43_raw_operands.md
R119 to R122).
-/

namespace Sys2Proof.Machine

/-- A byte position in a general variable, with the offset as an address computation leaves it (R20). -/
structure Loc where
  v : Word
  b : Int
  deriving DecidableEq, Repr

/-- The size in bytes of a data operand's elements. -/
def dataSize (l : Launch) (o : VecOpnd) : Nat :=
  match dataTy l o with
  | some t => t.size l.sizes
  | none => 0

/-! ### General operands -/

/-- Where channel `c` of a general operand accesses (R33, R71, R73). -/
def genLoc (l : Launch) (p : Place) (o : GenOpnd) (c : Nat) : Option Loc :=
  match l.varDecl o.id with
  | some d => some { v := o.id, b := ((genElem l.sizes d.ty p o c * d.ty.size l.sizes : Nat) : Int) }
  | none => none

/-- The bounds check of a general operand (R74), made for every channel (decision D39). -/
def genFault (s : State) (p : Place) (o : GenOpnd) (c : Nat) : Option Fault :=
  match s.launch.varDecl o.id with
  | some d => if genElem s.launch.sizes d.ty p o c < d.n then none else some (.u1 ⟨s.pc, placePos p, c⟩)
  | none => some (.u1 ⟨s.pc, placePos p, c⟩)

/-! ### Indirect operands -/

/-- The operand is multi-address: a source with a Null vertical stride (R77); never a destination (R86) or a scalar
(R116). -/
def indMulti (p : Place) (o : IndOpnd) : Bool :=
  match p with
  | .src => vertNull o.region
  | _ => false

/-- The region row of channel `c` in a multi-address operand; a single-address operand is one row (R77, R85). -/
def indRow (p : Place) (o : IndOpnd) (c : Nat) : Nat :=
  if indMulti p o then c / countVal o.region.width else 0

/-- The bytes from the origin of the row to channel `c`'s element (R75 to R77, R116). -/
def indStep (z : TypeSizes) (p : Place) (o : IndOpnd) (c : Nat) : Nat :=
  match p with
  | .dst => c * countVal o.region.horz * o.ty.size z
  | .scalar => 0
  | .src =>
      if vertNull o.region then (c % countVal o.region.width) * countVal o.region.horz * o.ty.size z
      else ((c / countVal o.region.width) * countVal o.region.vert
            + (c % countVal o.region.width) * countVal o.region.horz) * o.ty.size z

/-- The address element that channel `c` uses, when it exists and holds a value (R77 to R79). -/
def indBase (s : State) (p : Place) (o : IndOpnd) (c : Nat) : Option Ptr :=
  match s.launch.addrDecl o.id with
  | some d =>
      if o.addrOffset.toNat + indRow p o c < d.n then s.addrElem o.id (o.addrOffset.toNat + indRow p o c) else none
  | none => none

/-- Where channel `c` of an indirect operand accesses: `AN(k + row) + offset + step` (R75 to R77). -/
def indLoc (s : State) (p : Place) (o : IndOpnd) (c : Nat) : Option Loc :=
  (indBase s p o c).map fun q => { v := q.v, b := q.b + o.offset.toInt + (indStep s.launch.sizes p o c : Int) }

/-- The element of `size` bytes at a location lies inside its variable (R79 (b)). -/
def inBounds (z : TypeSizes) (d : VarDecl) (x : Loc) (size : Nat) : Bool :=
  decide (0 ≤ x.b) && decide (x.b + (size : Int) ≤ (d.size z : Int))

/-- `ptr(v, b)` is aligned to a type of `size` bytes (20_memory.md R36). -/
def alignedTo (z : TypeSizes) (d : VarDecl) (x : Loc) (size : Nat) : Bool :=
  decide (x.b % (size : Int) = 0) && decide (d.baseAlign z % size = 0)

/-- An earlier channel of the same region row lies in a GRF that is neither the same nor adjacent (R83, R85). -/
def indSpanBad (s : State) (p : Place) (o : IndOpnd) (d : VarDecl) (x : Loc) (c : Nat) : Bool :=
  decide (Config.grfSize ≤ d.size s.launch.sizes) &&
    (List.range c).any fun c' =>
      (indRow p o c' == indRow p o c) &&
        match indLoc s p o c' with
        | some x' => !grfAdjacent x'.b.toNat x.b.toNat
        | none => false

/-- The run-time checks of an indirect operand at channel `c`: U2, then U3, then U4 (R79, R83, R85, R142). An address
that points into no declared variable, or into one declared V, UV, VF or BOOL, has no storage behind it: U2, DESIGN
CHOICE, log entry 37. -/
def indFault (s : State) (p : Place) (o : IndOpnd) (c : Nat) : Option Fault :=
  match indLoc s p o c with
  | none => some (.u2 ⟨s.pc, placePos p, c⟩)
  | some x =>
      match s.launch.storage x.v with
      | none => some (.u2 ⟨s.pc, placePos p, c⟩)
      | some d =>
          if !inBounds s.launch.sizes d x (o.ty.size s.launch.sizes) then some (.u2 ⟨s.pc, placePos p, c⟩)
          else if !alignedTo s.launch.sizes d x (o.ty.size s.launch.sizes) then some (.u3 ⟨s.pc, placePos p, c⟩)
          else if indSpanBad s p o d x c then some (.u4 ⟨s.pc, placePos p, c⟩) else none

/-! ### Immediate operands -/

/-- Element `c` of a V immediate: a signed 4-bit field extended to 16 bits (R112, decision D20). PRESUMED default, log
entry 4. -/
def packedV (low : Word) (c : Nat) : Pattern :=
  BitVec.setWidth 64 ((fieldOf 4 (4 * c) low.toNat).signExtend 16)

/-- Element `c` of a UV immediate: an unsigned 4-bit field (R112, decision D20). PRESUMED default, log entry 4. -/
def packedUV (low : Word) (c : Nat) : Pattern := BitVec.setWidth 64 (fieldOf 4 (4 * c) low.toNat)

/-- Element `c` of a VF immediate: the float its 8-bit field denotes, a free value (R112, log entry 6). -/
def packedVF (low : Word) (c : Nat) : Pattern := Config.vfElem (fieldOf 8 (8 * c) low.toNat)

/-- The pattern of a value of a type: its low `8 * sizeof(T)` bits. -/
def truncTo (z : TypeSizes) (t : Ty) (v : Pattern) : Pattern := BitVec.ofNat 64 (v.toNat % 2 ^ (8 * t.size z))

/-- Element `c` of a packed immediate of a type under the parameter PackedImm (R112): an element of type W, UW or
float. -/
def packedValue (l : Launch) (t : Ty) (low : Word) (c : Nat) : Pattern :=
  truncTo l.sizes t.elem <|
    match l.packed, t with
    | .fields, .v => packedV low c
    | .fields, .uv => packedUV low c
    | .fields, .vf => packedVF low c
    | _, t => Config.packedElem t low c

/-- The value of channel `c` of an immediate without `high` (R61, R111, R112). -/
def imm32Value (l : Launch) (o : Imm32) (c : Nat) : Pattern :=
  if o.ty.isPacked then packedValue l o.ty o.low c else truncTo l.sizes o.ty (BitVec.setWidth 64 o.low)

/-- The value of an immediate with `high`: `high * 2^32 + low` (R61). -/
def imm64Value (o : Imm64) : Pattern := o.high ++ o.low

/-! ### Data operands: General, Indirect, Immediate -/

/-- The run-time checks of a data operand at channel `c`. -/
def dataFault (s : State) (p : Place) (o : VecOpnd) (c : Nat) : Option Fault :=
  match o with
  | .general g => genFault s p g c
  | .indirect i => indFault s p i c
  | _ => none

/-- Where channel `c` of a data operand accesses. -/
def dataLoc (s : State) (p : Place) (o : VecOpnd) (c : Nat) : Option Loc :=
  match o with
  | .general g => genLoc s.launch p g c
  | .indirect i => indLoc s p i c
  | _ => none

/-- The value of channel `c` of a data source before its modifier; `none` if the element holds no value. -/
def dataValue (s : State) (p : Place) (o : VecOpnd) (c : Nat) : Option Pattern :=
  match o with
  | .immediate32 i => some (imm32Value s.launch i c)
  | .immediate64 i => some (imm64Value i)
  | _ =>
      match dataLoc s p o c with
      | some x => elemRead s.gv x.v (dataSize s.launch o) x.b.toNat
      | none => none

/-- An enabled channel reads an element that holds no value (U9, R29, R95). -/
def dataValueFault (s : State) (p : Place) (o : VecOpnd) (en : Nat → Bool) (c : Nat) : Option Fault :=
  if en c then
    match dataValue s p o c with
    | some _ => none
    | none => some (.u9 ⟨s.pc, placePos p, c⟩)
  else none

/-- A modifier applied to a value of a type (R101, R118): code 0 is none, any other a free value of the same type, so
that its pattern fits the type's width (DEDUCED, log entry 5). -/
def modify (z : TypeSizes) (m : BitVec 3) (onDst : Bool) (t : Option Ty) (v : Pattern) : Pattern :=
  if m = 0 then v
  else match t with
    | some t => truncTo z t (Config.applyMod m onDst t v)
    | none => v

/-- The value a data source delivers to channel `c`. -/
def sourceValue (s : State) (p : Place) (o : VecOpnd) (c : Nat) : Pattern :=
  modify s.launch.sizes o.mods false (dataTy s.launch o) ((dataValue s p o c).getD 0#64)

/-- The general variables after every enabled channel of a data destination has stored its value (R73, R76, R95). -/
def storeData (s : State) (o : VecOpnd) (e : Nat) (en : Nat → Bool) (val : Nat → Pattern) : Memory :=
  forChannels e en
    (fun m c =>
      match dataLoc s .dst o c with
      | some x => elemWrite m x.v (dataSize s.launch o) x.b.toNat (val c)
      | none => m) s.gv

/-- Evaluate a data operand at its place: a source delivers its values to the lanes, a destination stores the lanes of
the enabled channels (R12, R73, R95, R97, R99; log entry 8). In order: static checks, the channel enable, the checks
of all channels, the reads of the enabled ones (60_exceptions.md R142). -/
def evalData (o : VecOpnd) (s : State) : Result :=
  refuseIf (vecRefusal s.launch s.ctx o) s <|
  faultIf s.ctxFault <|
  faultIf (firstFault s.ctx.exec.toNat (dataFault s s.ctx.place o)) <|
  if s.ctx.place = .dst then
    .next (s.setGv (storeData s o s.ctx.exec.toNat s.enabled fun c =>
      modify s.launch.sizes o.mods true (dataTy s.launch o) (s.laneData.getD c 0#64))).advance
  else
    faultIf (firstFault s.ctx.exec.toNat (dataValueFault s s.ctx.place o s.enabled)) <|
    .next ((s.setPassed s.passedOn).setLaneData (laneFill s.laneData 0#64
      (s.delivers fun c => (dataValue s s.ctx.place o c).isSome) (sourceValue s s.ctx.place o))).advance

/-! ### Address operands -/

/-- The element that channel `c` of an address operand accesses: cyclic in a source's width, successive in a
destination (R106, R107). -/
def addrIndex (p : Place) (o : AddrOpnd) (c : Nat) : Nat :=
  match p with
  | .dst => o.offset.toNat + c
  | _ => o.offset.toNat + c % o.width.toNat

/-- The elements an address operand designates run past a variable whose count is not known statically (U6, R107,
R108). The channel named is that of the first element beyond the variable, `offset + channel = n` (log entry 18). -/
def addrFault (s : State) (p : Place) (o : AddrOpnd) (e : Nat) : Option Fault :=
  match s.launch.addrDecl o.id with
  | some d =>
      if d.n < o.offset.toNat + (if p = .dst then e else o.width.toNat) then
        some (.u6 ⟨s.pc, placePos p, d.n - o.offset.toNat⟩)
      else none
  | none => some (.u6 ⟨s.pc, placePos p, 0⟩)

/-- An enabled channel reads an address element that holds no value (U9, R106). -/
def addrValueFault (s : State) (p : Place) (o : AddrOpnd) (c : Nat) : Option Fault :=
  if s.enabled c then
    match s.addrElem o.id (addrIndex p o c) with
    | some _ => none
    | none => some (.u9 ⟨s.pc, placePos p, c⟩)
  else none

/-- Evaluate an address operand at its place (R106, R107). -/
def evalAddr (o : AddrOpnd) (s : State) : Result :=
  refuseIf (vecRefusal s.launch s.ctx (.address o)) s <|
  faultIf s.ctxFault <|
  faultIf (addrFault s s.ctx.place o s.ctx.exec.toNat) <|
  if s.ctx.place = .dst then
    .next (s.setAv (forChannels s.ctx.exec.toNat s.enabled
      (fun m c => Store.set m (avKey o.id (addrIndex .dst o c)) (s.lanePtr.getD c ⟨0#32, 0⟩)) s.av)).advance
  else
    faultIf (firstFault s.ctx.exec.toNat (addrValueFault s s.ctx.place o)) <|
    .next (s.setLanePtr (laneFill s.lanePtr ⟨0#32, 0⟩ s.enabled fun c =>
      (s.addrElem o.id (addrIndex s.ctx.place o c)).getD ⟨0#32, 0⟩)).advance

/-! ### Predicate operands -/

/-- An enabled channel reads a predicate bit that holds no value (U9, R109). -/
def predOpndValueFault (s : State) (o : PredOpnd) (c : Nat) : Option Fault :=
  if s.enabled c then predValueFault s .src o.val.pid (predOff s s.ctx.mask) c else none

/-- Evaluate a predicate operand at its place: channel `n` is bit `n + mask_control_offset` (R109). -/
def evalPred (o : PredOpnd) (s : State) : Result :=
  refuseIf (vecRefusal s.launch s.ctx (.predicate o)) s <|
  faultIf s.ctxFault <|
  faultIf (firstFault s.ctx.exec.toNat
    (predBoundFault s (placePos s.ctx.place) o.val.pid (predOff s s.ctx.mask))) <|
  if s.ctx.place = .dst then
    .next (s.setPv (forChannels s.ctx.exec.toNat s.enabled
      (fun m c => Store.set m (pvKey o.val.pid (predOff s s.ctx.mask + c)) (s.laneBit.getLsbD c)) s.pv)).advance
  else
    faultIf (firstFault s.ctx.exec.toNat (predOpndValueFault s o)) <|
    .next (s.setLaneBit (maskOf fun c =>
      if s.enabled c then predRead s s.ctx.mask o.val.pid c else s.laneBit.getLsbD c)).advance

/-! ### State operands -/

/-- Channel `c`'s element lies beyond a state variable whose count is not known statically (U8, R114). -/
def stateFault (s : State) (o : StateOpnd) (c : Nat) : Option Fault :=
  match s.launch.stateDecl o.cls o.id with
  | some d => if o.offset.toNat + c < d.n then none else some (.u8 ⟨s.pc, .src, c⟩)
  | none => some (.u8 ⟨s.pc, .src, c⟩)

/-- An enabled channel reads a state element that holds no value (U9, R29). -/
def stateValueFault (s : State) (o : StateOpnd) (c : Nat) : Option Fault :=
  if s.enabled c then
    match s.stateElem o.cls o.id (o.offset.toNat + c) with
    | some _ => none
    | none => some (.u9 ⟨s.pc, .src, c⟩)
  else none

/-- What a state operand denotes, delivered to the lanes as any source is: the element at `offset` and, for further
channels, those that follow it; out of bounds it "would `raise Undefined(U8)`" (R114). -/
def readState (o : StateOpnd) (s : State) : Result :=
  faultIf s.ctxFault <|
  faultIf (firstFault s.ctx.exec.toNat (stateFault s o)) <|
  faultIf (firstFault s.ctx.exec.toNat (stateValueFault s o)) <|
  .next (s.setLaneState (laneFill s.laneState ⟨0⟩ s.enabled fun c =>
    (s.stateElem o.cls o.id (o.offset.toNat + c)).getD ⟨0⟩)).advance

/-- Evaluate a state operand: the static checks refuse every one, since the model gives ADDR_ADD and MOVS no meaning,
and what the operand denotes is never read (R114). -/
def evalState (o : StateOpnd) (s : State) : Result :=
  refuseIf (vecRefusal s.launch s.ctx (.state o)) s <| readState o s

/-! ### Raw operands -/

/-- The operand's `len` bytes run past the end of its variable (U5, R122). -/
def rawFault (s : State) (o : RawOpnd) : Option Fault :=
  match s.launch.varDecl o.id with
  | some d =>
      if o.offset.toNat + s.ctx.rawLen ≤ d.size s.launch.sizes then none
      else some (.u5 ⟨s.pc, placePos s.ctx.place, 0⟩)
  | none => some (.u5 ⟨s.pc, placePos s.ctx.place, 0⟩)

/-- Byte `i` of a raw source holds no value (U9, R29). -/
def rawValueFault (s : State) (o : RawOpnd) (i : Nat) : Option Fault :=
  match byteOf? s.gv o.id (o.offset.toNat + i) with
  | some _ => none
  | none => some (.u9 ⟨s.pc, .src, i⟩)

/-- The contiguous bytes of a raw source (R119), each of which holds a value once `rawValueFault` has raised nothing. -/
def rawBytes (s : State) (o : RawOpnd) : List Byte :=
  (List.range s.ctx.rawLen).map fun i => (byteOf? s.gv o.id (o.offset.toNat + i)).getD 0#8

/-- What a shared function returns to a raw destination of `L` bytes, having been passed ChEn: any of them, with any
value (R97; 20_memory.md R31). FREE VALUES, log entry 38. -/
def sharedReturn (s : State) : List (Option Byte) :=
  (List.range s.ctx.rawLen).map (Config.sharedByte s.returns s.ctx.user s.ctxChEn s.payload)

/-- Evaluate a raw operand: the channel enable is evaluated as for any instruction and passed to the shared function,
whose own affair it is what it does with it (41_predication.md R97); a source hands over its `L` contiguous bytes, a
destination takes whichever of its `L` bytes the shared function returns (R119, R122; log entries 9 and 38). -/
def evalRaw (o : RawOpnd) (s : State) : Result :=
  refuseIf (rawRefusal s.launch s.ctx o) s <|
  faultIf s.ctxFault <|
  faultIf (rawFault s o) <|
  if s.ctx.place = .dst then
    .next (((s.setPassed s.ctxChEn).setReturns (s.returns + 1)).setGv
      (writeBytes s.gv o.id o.offset.toNat (sharedReturn s))).advance
  else
    faultIf (firstFault s.ctx.rawLen (rawValueFault s o)) <|
    .next ((s.setPassed s.ctxChEn).setPayload (rawBytes s o)).advance

/-! ### The predication control of an instruction -/

/-- Evaluate the channel enable of the instruction whose predication control word this is (R94). ChEn is a temporary,
no state: the evaluation passes it on to what uses it (R97; log entry 7). -/
def evalPredControl (w : PredWord) (s : State) : Result :=
  refuseIf (predControlRefusal s.launch s.ctx.exec.toNat s.ctx.mask w) s <|
  faultIf (chEnFault s s.ctx.exec.toNat s.ctx.mask w) <|
  .next (s.setPassed (evalChEn s s.ctx.exec.toNat s.ctx.mask w)).advance

end Sys2Proof.Machine
end

