-- ==== Sys2Proof/Machine/Harness.lean ====
section
/-!
DEFINITION. The meaning of HCOPY, the spec's harness operation (44_named_instructions.md R136).
-/

namespace Sys2Proof.Machine

/-- The run-time checks of an HCOPY at channel `c`: destination before source (R136 step 2, R142). -/
def hcopyFault (s : State) (dst src : VecOpnd) (c : Nat) : Option Fault :=
  (dataFault s .dst dst c).or (dataFault s .src src c)

/-- HCOPY (R136): static checks; (1) the channel enable, a temporary; (2) the checks of all channels; (3) the enabled
channels' source values, all read before (4) the enabled channels' writes; (5) the next operation. -/
def execHcopy (e : ExecSize) (m : MaskControl) (w : PredWord) (dst src : VecOpnd) (s : State) : Result :=
  refuseIf (hcopyRefusal s.launch e m w dst src) s <|
  faultIf (chEnFault s e.toNat m w) <|
  faultIf (firstFault e.toNat (hcopyFault s dst src)) <|
  faultIf (firstFault e.toNat (dataValueFault s .src src (chEnBit s e.toNat m w))) <|
  .next (s.setGv
    (storeData s dst e.toNat (chEnBit s e.toNat m w) fun c => (dataValue s .src src c).getD 0#64)).advance

end Sys2Proof.Machine
end

