-- ==== Sys2Proof/Machine/Special.lean ====
section
/-!
DEFINITION. The meanings of the rows for address, predicate and state variables, of the two reserved classes, of the
raw operand and of the predication control word.
-/

namespace Sys2Proof.Machine

/-- opnd.address (R106, R107). -/
def execOpndAddress (o : AddrOpnd) (s : State) : Result := evalAddr o s

/-- opnd.predicate (R109). -/
def execOpndPredicate (o : PredOpnd) (s : State) : Result := evalPred o s

/-- opnd.state: refused, like every State operand (R114). -/
def execOpndState (o : StateOpnd) (s : State) : Result := evalState o s

/-- opnd.reserved100: "The remaining values are reserved" (R47). The refusal names the operand's position
(60_exceptions.md R140). -/
def execOpndReserved100 (_mods : BitVec 3) (s : State) : Result :=
  .refused (.illFormed .reservedClass (placePos s.ctx.place) s.pc)

/-- opnd.reserved111: "The remaining values are reserved" (R47). The refusal names the operand's position
(60_exceptions.md R140). -/
def execOpndReserved111 (_mods : BitVec 3) (s : State) : Result :=
  .refused (.illFormed .reservedClass (placePos s.ctx.place) s.pc)

/-- raw_operand (R119). -/
def execRawOperand (o : RawOpnd) (s : State) : Result := evalRaw o s

/-- pred_control (R94). -/
def execPredControl (w : PredWord) (s : State) : Result := evalPredControl w s

end Sys2Proof.Machine
end

