-- ==== Sys2Proof/Machine/Vector.lean ====
section
/-!
DEFINITION. The meanings of the vector-operand rows that denote data values: General, Indirect and the two lengths
of Immediate (42_vector_operands.md R104, R110 to R113).
-/

namespace Sys2Proof.Machine

/-- opnd.general: elements of a general variable in its declared type (R104). -/
def execOpndGeneral (o : GenOpnd) (s : State) : Result := evalData (.general o) s

/-- opnd.indirect: elements of general variables through an address variable (R110). -/
def execOpndIndirect (o : IndOpnd) (s : State) : Result := evalData (.indirect o) s

/-- opnd.immediate32: a constant in every channel, or the elements of a packed vector (R111 to R113). -/
def execOpndImmediate32 (o : Imm32) (s : State) : Result := evalData (.immediate32 o) s

/-- opnd.immediate64: a 64-bit constant in every channel (R111). -/
def execOpndImmediate64 (o : Imm64) (s : State) : Result := evalData (.immediate64 o) s

end Sys2Proof.Machine
end

