-- ==== Sys2Proof/Machine/Dispatch.lean ====
section
/-!
DEFINITION. The meaning of each row of the opcode table: one arm per constructor of Instr.
-/

namespace Sys2Proof.Machine

def exec (i : Instr) (s : State) : Host.Outcome State Fault Refusal :=
  match i with
  | .opndGeneral o => Sys2Proof.Machine.execOpndGeneral o s
  | .opndAddress o => Sys2Proof.Machine.execOpndAddress o s
  | .opndPredicate o => Sys2Proof.Machine.execOpndPredicate o s
  | .opndIndirect o => Sys2Proof.Machine.execOpndIndirect o s
  | .opndImmediate32 o => Sys2Proof.Machine.execOpndImmediate32 o s
  | .opndImmediate64 o => Sys2Proof.Machine.execOpndImmediate64 o s
  | .opndState o => Sys2Proof.Machine.execOpndState o s
  | .opndReserved100 m => Sys2Proof.Machine.execOpndReserved100 m s
  | .opndReserved111 m => Sys2Proof.Machine.execOpndReserved111 m s
  | .rawOperand o => Sys2Proof.Machine.execRawOperand o s
  | .predControl w => Sys2Proof.Machine.execPredControl w s
  | .hcopy e m w d o => Sys2Proof.Machine.execHcopy e m w d o s

end Sys2Proof.Machine
end

