-- ==== Sys2Proof/Machine/Fetch.lean ====
section
/-!
DEFINITION. The harness program (44_named_instructions.md R137): the check that marks a whole program before its
first operation (60_exceptions.md R140), the operation at `pc`, the end of a run (70_reset_and_hazards.md R148), and
the loading of a one-operation program.
-/

namespace Sys2Proof.Machine

/-- The predication control of the instruction that an operand row belongs to, decoded (30_encoding.md R55, R56). A
predication control row and an HCOPY hold their own word, and none besides. -/
def entryPredWord (en : Entry) : Except Reason PredWord :=
  match en.code with
  | .vector _ | .raw _ => decodePredWord en.pred.toNat
  | .pred _ | .hcopy .. | .real _ => .ok PredWord.zero

/-- An operation decoded: what its instruction is evaluated under, and the instruction. -/
def decodeEntry (T : TypeTable) (en : Entry) : Except Reason (Ctx × Instr) := do
  let i ← decode T en.code
  let w ← entryPredWord en
  .ok ({ en.supply with pred := w }, i)

/-- The static checks of the predication control word `n` under the fields that go with it. That the word's own fields
come before the mask control is DESIGN CHOICE, log entry 18. -/
def predHalfRefusal (l : Launch) (c : Supply) (n : Nat) : Option (Pos × Reason) :=
  match decodePredWord n with
  | .error r => some (.pred, r)
  | .ok w => ctxRefusal l { c with pred := w }

/-- The refusal of one encoded vector operand at its place: the decoder's, then that of the static checks, so that the
per-field checks stand in the order of 30_encoding.md R67. -/
def opndRefusal (l : Launch) (c : Supply) (bs : List Byte) : Option (Pos × Reason) :=
  match decodeVecAt l.types (some c.place) bs with
  | .error r => some (placePos c.place, r)
  | .ok (o, _) => vecOwnRefusal l c o

/-- The element type of an encoded data operand. -/
def codedTy (l : Launch) (bs : List Byte) : Option Ty :=
  match decodeVec l.types bs with
  | .error _ => none
  | .ok (o, _) => dataTy l o

/-- The refusal of one operation, found by the decoder or by the static checks: destination before source, each
operand's checks in order (60_exceptions.md R140, R142). That the execution size comes first and the predication and
the types last is DESIGN CHOICE, log entry 18. -/
def codeRefusal (l : Launch) (c : Supply) (pred : Half) : Code → Option (Pos × Reason)
  | .vector bs => (opndRefusal l c bs).or (predHalfRefusal l c pred.toNat)
  | .raw bs =>
      match decodeRaw bs with
      | .error r => some (placePos c.place, r)
      | .ok (o, _) => (rawOwnRefusal l c o).or (predHalfRefusal l c pred.toNat)
  | .pred bs =>
      match takeLE 2 bs with
      | .error r => some (.pred, r)
      | .ok (n, _) => predHalfRefusal l c n
  | .hcopy n m p d s =>
      match decodeExec n with
      | .error r => some (.opcode, r)
      | .ok e =>
          (opndRefusal l (hcopySupply e m .dst) d).or <| (opndRefusal l (hcopySupply e m .src) s).or <|
            (predHalfRefusal l (hcopySupply e m .src) p.toNat).or <|
              if codedTy l d = codedTy l s then none else some (.src, .typeMismatch)
  | .real name => some (.opcode, .realInstruction name)

/-- The refusal of the operation at index `k`, with the operation, the operand position and the failing check (R140).
-/
def entryRefusal (l : Launch) (k : Nat) (en : Entry) : Option Refusal :=
  (codeRefusal l en.supply en.pred en.code).map fun x => .illFormed x.2 x.1 k

/-- The first refusal of a program whose first operation has index `k`: one ill-formed operation marks the whole
program (R140). That of several the one with the lowest index is named is DESIGN CHOICE, log entry 18. -/
def programRefusal (l : Launch) : Nat → List Entry → Option Refusal
  | _, [] => none
  | k, en :: rest => (entryRefusal l k en).or (programRefusal l (k + 1) rest)

/-- The operation at `pc`, or the end of the run: at the end nothing more happens and the state stands as the run's
result (R137, R148; log entry 12). The decoder's rejection has already refused the program (`stepState`). -/
def runNext (s : State) : Result :=
  match s.program[s.pc]? with
  | none => if s.pc = s.program.length then .next s else .refused (.pcOutside s.pc)
  | some en =>
      match decodeEntry s.launch.types en with
      | .error r => .refused (.illFormed r .opcode s.pc)
      | .ok (c, i) => exec i (s.enter c)

/-- One step: a program with an ill-formed operation takes none (R137, R140). -/
def stepState (s : State) : Result :=
  match programRefusal s.launch 0 s.program with
  | some r => .refused r
  | none => runNext s

/-! ### Loading a one-operation program -/

/-- The fields under which a structure is admitted, one choice per class: what the caller of the decoder supplies
(R43, R68). DESIGN CHOICE, log entry 14. -/
def loadSupply (i : Option Instr) : Supply :=
  match i with
  | some (.opndAddress _) => { exec := .e1, mask := .m1, user := .addrAdd, place := .dst, rawLen := 0 }
  | some (.opndPredicate _) => { exec := .e1, mask := .m1, user := .setp, place := .dst, rawLen := 0 }
  | some (.opndState _) => { exec := .e1, mask := .m1, user := .movs, place := .src, rawLen := 0 }
  | some (.rawOperand _) => { exec := .e1, mask := .m1, user := .block, place := .dst, rawLen := 32 }
  | _ => { exec := .e1, mask := .m1, user := .move, place := .scalar, rawLen := 0 }

/-- List a declaration or a value at a key that has none. -/
def supplyAt {α : Type} (m : Store α) (key : Nat) (a : α) : Store α :=
  match Store.get? m key with
  | some _ => m
  | none => Store.set m key a

/-- A program comes with the declarations of its variables (R137): declare the one variable the operation names,
where the launch has no declaration of it, and variable 0 for an indirect operand to reach. DESIGN CHOICE, log entry
14. -/
def loadDecls (l : Launch) (i : Option Instr) : Launch :=
  match i with
  | some (.opndGeneral o) => { l with vars := supplyAt l.vars o.id.toNat ⟨.ud, 4096, none⟩ }
  | some (.rawOperand o) => { l with vars := supplyAt l.vars o.id.toNat ⟨.ud, 4096, none⟩ }
  | some (.opndAddress o) => { l with addresses := supplyAt l.addresses o.id.toNat ⟨512, true⟩ }
  | some (.opndIndirect o) =>
      { l with addresses := supplyAt l.addresses o.id.toNat ⟨512, true⟩, vars := supplyAt l.vars 0 ⟨.ud, 4096, none⟩ }
  | some (.opndPredicate o) => { l with predicates := supplyAt l.predicates o.val.pid.toNat ⟨32, true⟩ }
  | some (.predControl w) => { l with predicates := supplyAt l.predicates w.pid.toNat ⟨32, true⟩ }
  | some (.opndState o) =>
      match o.cls with
      | .surface => { l with surfaces := supplyAt l.surfaces o.id.toNat ⟨512, true⟩ }
      | .sampler => { l with samplers := supplyAt l.samplers o.id.toNat ⟨512, true⟩ }
  | _ => l

/-- A value, 0, for each byte of the element that a scalar data operand reads, where the byte holds none. -/
def loadElement (s : State) (o : VecOpnd) : State :=
  match dataFault s .scalar o 0, dataLoc s .scalar o 0 with
  | none, some x =>
      s.setGv <| (List.range (dataSize s.launch o)).foldl (fun m i => supplyAt m (gvKey x.v (x.b.toNat + i)) 0#8) s.gv
  | _, _ => s

/-- A program comes with launch values of the elements it reads (R137): a value for each element that the operation
reads as loaded and that holds none, an address element such that the operand reaches byte 0 of variable 0. DESIGN
CHOICE, log entry 14. -/
def loadValues (s : State) (i : Option Instr) : State :=
  match i with
  | some (.opndGeneral o) => loadElement s (.general o)
  | some (.opndIndirect o) =>
      loadElement (s.setAv (supplyAt s.av (avKey o.id o.addrOffset.toNat) ⟨0#32, -o.offset.toInt⟩)) (.indirect o)
  | some (.predControl w) => s.setPv (supplyAt s.pv (pvKey w.pid 0) false)
  | _ => s

/-- What the machine's own decoder reads from a stored form. -/
def loaded (s : State) (code : Code) : Option Instr :=
  match decode s.launch.types code with
  | .ok i => some i
  | .error _ => none

/-- Load the one-operation program whose stored form is that of the table word, with what comes with a program, and
start it. -/
def loadWord (s : State) (nbits w : Nat) : State :=
  loadValues
    { s with
      launch := loadDecls s.launch (loaded s (codeOfTableWord nbits w))
      program := [{ supply := loadSupply (loaded s (codeOfTableWord nbits w)), pred := 0,
                    code := codeOfTableWord nbits w }]
      pc := 0 }
    (loaded s (codeOfTableWord nbits w))

end Sys2Proof.Machine
end

