-- ==== Sys2Proof/Machine/Step.lean ====
section
/-!
DEFINITION. The step of the machine, with its three outcomes (00_scope.md R12), and the host's way of placing an
instruction where the next step fetches it.
-/

namespace Sys2Proof.Machine

/-- One step of a run (44_named_instructions.md R137). -/
def step (s : State) : Host.Outcome State Fault Refusal := stepState s

/-- The state with the instruction of a table word loaded as a one-operation program (log entries 2 and 14). -/
def State.withFetchWord (s : State) (nbits w : Nat) : State := loadWord s nbits w

end Sys2Proof.Machine
end

