-- ==== Sys2Proof/Safety.lean ====
section
/-!
DEFINITION. What the statements call a good state: storage in canonical form, values only inside declared variables,
one lane per channel, the pc inside the program or at its end.
-/

namespace Sys2Proof.Machine

/-- All storage is in canonical form, and there is one lane per channel. -/
structure State.Canonical (s : State) : Prop where
  gv : Memory.wf s.gv
  av : Store.wf s.av
  pv : Store.wf s.pv
  sv : Store.wf s.sv
  laneData : s.laneData.length = Config.maxChannels
  lanePtr : s.lanePtr.length = Config.maxChannels
  laneState : s.laneState.length = Config.maxChannels

/-- Only declared storage holds values: each general variable is a region of `GV[id].size` bytes (20_memory.md R38),
and address, predicate and state variables have the elements their declarations give them (10_state.md R19, R21, R23).
-/
structure State.InBounds (s : State) : Prop where
  gv : ∀ v b, byteOf? s.gv v b ≠ none → ∃ d, s.launch.varDecl v = some d ∧ b < d.size s.launch.sizes
  av : ∀ id k, s.addrElem id k ≠ none → ∃ d, s.launch.addrDecl id = some d ∧ k < d.n
  pv : ∀ pid n, s.predBit pid n ≠ none → ∃ d, s.launch.predDecl pid = some d ∧ n < d.n
  sv : ∀ cls id k, s.stateElem cls id k ≠ none → ∃ d, s.launch.stateDecl cls id = some d ∧ k < d.n

/-- The invariant of a run (44_named_instructions.md R137). -/
structure State.Inv (s : State) : Prop where
  canonical : s.Canonical
  inBounds : s.InBounds
  pc : s.pc ≤ s.program.length

/-- No operation changes what a run is launched with: the declarations and the program (10_state.md R30), EM (R24) and
the state variables, which no operand of this spec writes (R13). -/
structure SameLaunch (s t : State) : Prop where
  launch : t.launch = s.launch
  program : t.program = s.program
  em : t.em = s.em
  sv : t.sv = s.sv

end Sys2Proof.Machine
end

