-- ==== Sys2Proof/Certificates/Slice0/Obligations.lean ====
section
/-!
DEFINITION. The statements for the provers, each a proposition about the model that formalises a rule of the spec.
-/

open Sys2Proof Sys2Proof.Machine

namespace Sys2Proof.Claims

/-! ### Vocabulary of the statements -/

/-- The execution size of the instruction under evaluation, as a number. -/
abbrev chans (s : State) : Nat := s.ctx.exec.toNat

/-- The region parameters that a place uses hold legal values (40_regions.md R80, R81, R86; 30_encoding.md R51, R65;
42_vector_operands.md R116). `ind` says that the operand is indirect. -/
def RegionLegal (p : Place) (ind : Prop) (e : Nat) (r : Region) : Prop :=
  match p with
  | .scalar => True
  | .dst =>
      (∃ n ∈ [1, 2, 4], countOf r.horz = .elems n) ∧ ¬ (ind ∧ countOf r.vert = .null)
  | .src =>
      ((∃ n ∈ [0, 1, 2, 4, 8, 16, 32], countOf r.vert = .elems n) ∨ (ind ∧ countOf r.vert = .null)) ∧
      (∃ n ∈ [1, 2, 4, 8, 16], countOf r.width = .elems n ∧ n ≤ e) ∧
      (∃ n ∈ [0, 1, 2, 4], countOf r.horz = .elems n)

/-- The mask control leaves the channels inside the 32 of EM (41_predication.md R93). -/
def MaskFits (e : Nat) (m : MaskControl) : Prop := ∀ off, maskOffset m = some off → e + off ≤ 32

/-- The static rules of the predication hold: the mask control fits, and unless the word is 0 it has an offset and
names a declared predicate with all the `e` bits, where their count is known (10_state.md R21, 41_predication.md R90,
R93). -/
def PredAccepted (l : Launch) (e : Nat) (m : MaskControl) (w : PredWord) : Prop :=
  MaskFits e m ∧
  (w.isNone = true ∨
   ∃ off d, predOffset l m = some off ∧ e + off ≤ 32 ∧ l.predDecl w.pid = some d ∧ (d.known = true → off + e ≤ d.n))

/-- What the channel-enable evaluation of `w` needs: a legal mask control, and unless `w` is 0 an offset, a declared
predicate with all the `e` bits from it on, each holding a value (41_predication.md R90, R93, R94). -/
def PredReady (s : State) (e : Nat) (m : MaskControl) (w : PredWord) : Prop :=
  MaskFits e m ∧
  (w.isNone = true ∨
   ∃ off d, predOffset s.launch m = some off ∧ e + off ≤ 32 ∧ s.launch.predDecl w.pid = some d ∧ off + e ≤ d.n ∧
    ∀ n, n < e → s.predBit w.pid (off + n) ≠ none)

/-- The channel enable of the operand under evaluation can be evaluated. -/
abbrev Ready (s : State) : Prop := PredReady s (chans s) s.ctx.mask s.ctx.pred

/-- Bit `n` is the first of the `e` predicate bits of `w` that holds no value, and all of them exist. -/
def BitMissing (s : State) (e : Nat) (m : MaskControl) (w : PredWord) (n : Nat) : Prop :=
  w.isNone = false ∧
  ∃ off d, predOffset s.launch m = some off ∧ s.launch.predDecl w.pid = some d ∧ off + e ≤ d.n ∧ n < e ∧
    (∀ k, k < n → s.predBit w.pid (off + k) ≠ none) ∧ s.predBit w.pid (off + n) = none

/-- Bit `n` is the first of the `e` predicate bits of `w` that lies beyond the predicate variable. -/
def BitBeyond (s : State) (e : Nat) (m : MaskControl) (w : PredWord) (n : Nat) : Prop :=
  w.isNone = false ∧
  ∃ off d, predOffset s.launch m = some off ∧ s.launch.predDecl w.pid = some d ∧ n < e ∧ d.n ≤ off + n ∧
    ∀ k, k < n → off + k < d.n

/-- The predication that a row evaluates: its own for a predication control word and for HCOPY, that of the using
instruction for an operand row (41_predication.md R89, 44_named_instructions.md R136). -/
def predicationOf (s : State) : Instr → Nat × MaskControl × PredWord
  | .predControl w => (chans s, s.ctx.mask, w)
  | .hcopy e m w _ _ => (e.toNat, m, w)
  | .opndGeneral _ | .opndAddress _ | .opndPredicate _ | .opndIndirect _ | .opndImmediate32 _ | .opndImmediate64 _
  | .opndState _ | .opndReserved100 _ | .opndReserved111 _ | .rawOperand _ => (chans s, s.ctx.mask, s.ctx.pred)

/-- The modifier code is none, or one that has a meaning at the place and that the using instruction admits (R101 to
R103, R118, R136). -/
def ModAdmitted (p : Place) (u : User) (m : BitVec 3) : Prop :=
  m = 0 ∨ u ≠ .hcopy ∧
    (Config.modCode (p == .dst) m = some .bitNot ∧ u ∈ [User.andOp, .notOp, .orOp, .xorOp] ∨
     Config.modCode (p == .dst) m = some .arithmetic ∧ u ∈ [User.arithmetic, .shift, .move])

/-- The linear element index of channel `c` in a source region (R71, R72), from the encoded fields. -/
def srcElem (z : TypeSizes) (t : Ty) (o : GenOpnd) (c : Nat) : Nat :=
  o.row.toNat * (32 / t.size z) + o.col.toNat + (c / countVal o.region.width) * countVal o.region.vert
    + (c % countVal o.region.width) * countVal o.region.horz

/-- The linear element index of channel `i` in a destination region (R73), from the encoded fields. -/
def dstElem (z : TypeSizes) (t : Ty) (o : GenOpnd) (i : Nat) : Nat :=
  o.row.toNat * (32 / t.size z) + o.col.toNat + i * countVal o.region.horz

/-- The data lanes after a source whose channel `c` has the value `y c`, `none` where its element holds no value. The
lanes of enabled channels hold it; so do those of the other channels of an instruction off the EU, where there is a
value, because nothing is assumed of what a shared function does with ChEn (41_predication.md R95, R97). -/
def LanesHold (s t : State) (y : Nat → Option Pattern) : Prop :=
  t.laneData.length = 32 ∧
  ∀ c, c < 32 → t.laneData.getD c 0#64 =
    if s.enabled c = true ∨ (s.ctx.user.onEU = false ∧ c < chans s) then (y c).getD (s.laneData.getD c 0#64)
    else s.laneData.getD c 0#64

/-- Nothing but the data lanes and the pc differs, and off the EU the channel enable that is passed to the shared
function (41_predication.md R97). -/
def OnlyLanes (s t : State) : Prop :=
  t = { s with
    laneData := t.laneData
    passed := if s.ctx.user.onEU then s.passed else evalChEn s (chans s) s.ctx.mask s.ctx.pred
    pc := s.pc + 1 }

/-- Nothing but the bytes of general variables and the pc differs, the channel enable is passed to the shared function
(41_predication.md R97), and one more of its returns is counted (log entry 38). -/
def OnlyReturned (s t : State) : Prop :=
  t = { s with
    gv := t.gv
    passed := evalChEn s (chans s) s.ctx.mask s.ctx.pred
    returns := s.returns + 1
    pc := s.pc + 1 }

/-- Nothing but the bytes of general variables and the pc differs. -/
def OnlyGv (s t : State) : Prop := t = { s with gv := t.gv, pc := s.pc + 1 }

/-- Every byte that lies in no enabled channel's destination element reads as before. The locations are those the
meaning computes, in the state it computes them in. -/
def BytesKept (s t : State) (o : VecOpnd) (e : Nat) (en : Nat → Bool) : Prop :=
  ∀ v b, (∀ c x, c < e → en c = true → dataLoc s .dst o c = some x →
      v ≠ x.v ∨ b < x.b.toNat ∨ x.b.toNat + dataSize s.launch o ≤ b) →
    byteOf? t.gv v b = byteOf? s.gv v b

/-- The value a destination's channel stores: its lane, after the destination's modifier (R118). -/
def laneOut (s : State) (o : VecOpnd) (c : Nat) : Pattern :=
  modify s.launch.sizes o.mods true (dataTy s.launch o) (s.laneData.getD c 0#64)

/-- The source's pseudo-code `EvaluateChEn()` (41_predication.md R94), line by line: `em` is EM, `off` the
mask-control offset, `pred` the bits of the predicate variable. -/
def evaluateChEn (e : Nat) (noMask : Bool) (off : Nat) (em : Nat → Bool) (w : PredWord) (pred : Nat → Bool) :
    Nat → Bool :=
  let chEn0 : Nat → Bool := fun n => if n < e then (if noMask then true else em (n + off)) else false
  let pmask0 : Nat → Bool := fun n => if n < e then pred (n + off) else false
  let pmask1 : Nat → Bool :=
    match w.comb with
    | .any => fun n => if n < e then decide (∃ k, k < e ∧ pmask0 k = true) else pmask0 n
    | .all => fun n => if n < e then decide (∀ k, k < e → pmask0 k = true) else pmask0 n
    | .seq => pmask0
  let pmask2 : Nat → Bool := if w.inv then fun n => !pmask1 n else pmask1
  let chEn1 : Nat → Bool := if w.isNone then chEn0 else fun n => if n < e then (chEn0 n && pmask2 n) else chEn0 n
  fun n => if e ≤ n then false else chEn1 n

/-- The bytes of a vector operand's structure (30_encoding.md R45). -/
def operandBytes : VecOpnd → Nat
  | .general _ => 9
  | .address _ => 5
  | .predicate _ => 3
  | .indirect _ => 9
  | .immediate32 _ => 6
  | .immediate64 _ => 10
  | .state _ => 5

/-- The row is a source operand row or the predication control word, at a place that stores nothing. -/
def StoresNothing (c : Ctx) : Instr → Prop
  | .opndGeneral _ | .opndIndirect _ | .opndAddress _ | .opndPredicate _ | .rawOperand _ => c.place ≠ .dst
  | .opndImmediate32 _ | .opndImmediate64 _ | .opndState _ | .predControl _ => True
  | .opndReserved100 _ | .opndReserved111 _ | .hcopy .. => False

/-- The operand has a code in the table for its type (00_scope.md R6). -/
def OpndCoded (T : TypeTable) : VecOpnd → Prop
  | .indirect o => ∃ c, T.typeOf c = o.ty
  | .immediate32 o => ∃ c, T.typeOf c = o.ty
  | .immediate64 o => ∃ c, T.typeOf c = o.ty
  | .general _ | .address _ | .predicate _ | .state _ => True

/-- The instruction's operands have codes for their types. -/
def Coded (T : TypeTable) : Instr → Prop
  | .opndIndirect o => OpndCoded T (.indirect o)
  | .opndImmediate32 o => OpndCoded T (.immediate32 o)
  | .opndImmediate64 o => OpndCoded T (.immediate64 o)
  | .hcopy _ _ _ dst src => OpndCoded T dst ∧ OpndCoded T src
  | .opndGeneral _ | .opndAddress _ | .opndPredicate _ | .opndState _ | .opndReserved100 _ | .opndReserved111 _
  | .rawOperand _ | .predControl _ => True

/-- The row makes the channel-enable evaluation: every row but those that are refused whatever they hold, the reserved
ones (R47) and a State operand (R114). -/
def EvaluatesChEn (i : Instr) : Prop :=
  (∀ m, i ≠ .opndReserved100 m ∧ i ≠ .opndReserved111 m) ∧ ∀ o, i ≠ .opndState o

/-- The causes a row can raise (the column "raised by" of 60_exceptions.md R138). U7 and U9 at the position `pred` are
those of the channel-enable evaluation. No row raises U8, the cause of state operands: every one is refused (R114). -/
def MayRaise (i : Instr) : Fault → Prop
  | .u1 _ => (∃ o, i = .opndGeneral o) ∨
      ∃ e m w d s, i = .hcopy e m w d s ∧ ((∃ o, d = .general o) ∨ ∃ o, s = .general o)
  | .u2 _ | .u3 _ | .u4 _ => (∃ o, i = .opndIndirect o) ∨
      ∃ e m w d s, i = .hcopy e m w d s ∧ ((∃ o, d = .indirect o) ∨ ∃ o, s = .indirect o)
  | .u5 _ => ∃ o, i = .rawOperand o
  | .u6 _ => ∃ o, i = .opndAddress o
  | .u7 x => (x.pos = .pred ∧ EvaluatesChEn i) ∨ ∃ o, i = .opndPredicate o
  | .u8 _ => False
  | .u9 x => (x.pos = .pred ∧ EvaluatesChEn i) ∨
      x.pos = .src ∧ ((∃ o, i = .opndGeneral o) ∨ (∃ o, i = .opndIndirect o) ∨ (∃ o, i = .opndAddress o) ∨
        (∃ o, i = .opndPredicate o) ∨ (∃ o, i = .rawOperand o) ∨ ∃ e m w d s, i = .hcopy e m w d s)

end Sys2Proof.Claims

open Sys2Proof.Claims

/-! ### Encoding -/

/-- Every well-formed instruction whose types have codes reads back from its stored form (30_encoding.md R44 to R67):
no bit is dropped, whatever the table TypeCode is (00_scope.md R6). Byte order and packing are decisions D2 and D3
(log entry 15), the stored form the model's (log entry 2). -/
def Obligations.EncodeDecodeRoundTrip : Prop :=
  ∀ (T : TypeTable) (i : Instr), WellFormed i = true → Coded T i → decode T (encode T i) = .ok i

/-- The decoder loses nothing of what it reads: the bytes it accepts are the encoding of the operand followed by the
rest, the structure has the length of its class, and the operand is well-formed (R45, R67), for every table TypeCode
that gives no type two codes (00_scope.md R6). Byte order and packing are decisions D2 and D3, reserved bits D13 (log
entries 15 and 19). -/
def Obligations.DecodedBytesRecovered : Prop :=
  ∀ (T : TypeTable) (bs : List Byte) (o : VecOpnd) (rest : List Byte), Function.Injective T.typeOf →
    decodeVec T bs = .ok (o, rest) →
    bs = encodeVec T o ++ rest ∧ bs.length = operandBytes o + rest.length ∧ WellFormed o.toInstr = true

/-- Words of 95_test_vectors.md, written out from the spec's encoding tables, decode to the operands they stand for
(T-EN1, T-EN5, T-EN6, T-EN7, T-EN10, T-EN11, T-EN13, T-EN15, T-PC7), for every table TypeCode in which the codes 2 and
13 name UW and Q, as in the default. The layout is that of decisions D2 and D3 (log entry 15). -/
def Obligations.SpecWordsDecode : Prop :=
  ∀ T : TypeTable, T.typeOf 2 = .uw → T.typeOf 13 = .q →
    decode T (.vector [0x00, 0x05, 0x00, 0x00, 0x00, 0x01, 0x02, 0x55, 0x02]) =
      .ok (.opndGeneral ⟨0, 5, 1, 2, ⟨5, 5, 2⟩⟩) ∧
    decode T (.vector [0x01, 0x02, 0x00, 0x01, 0x02]) = .ok (.opndAddress ⟨2, 1, 2⟩) ∧
    decode T (.vector [0x02, 0x05, 0x00]) = .ok (.opndPredicate ⟨⟨false, .seq, 5⟩⟩) ∧
    decode T (.vector [0x03, 0x01, 0x00, 0x00, 0xE0, 0xFF, 0x02, 0x55, 0x02]) =
      .ok (.opndIndirect ⟨0, 1, 0, BitVec.ofInt 16 (-32), .uw, ⟨5, 5, 2⟩⟩) ∧
    decode T (.vector [0x05, 0x02, 0x34, 0x12, 0x00, 0x00]) = .ok (.opndImmediate32 ⟨.uw, 0x1234⟩) ∧
    decode T (.vector [0x05, 0x0D, 0xFE, 0xFF, 0xFF, 0xFF, 0xFF, 0xFF, 0xFF, 0xFF]) =
      .ok (.opndImmediate64 ⟨.q, 0xFFFFFFFE, 0xFFFFFFFF⟩) ∧
    decode T (.vector [0x06, 0x01, 0x03, 0x00, 0x01]) = .ok (.opndState ⟨.sampler, 3, 1⟩) ∧
    decode T (.raw [0x0C, 0x00, 0x00, 0x00, 0x40, 0x00]) = .ok (.rawOperand ⟨12, 64⟩) ∧
    decode T (.pred [0x03, 0xC0]) = .ok (.predControl ⟨true, .all, 3⟩)

/-- The operand-class codes, bits 2:0 of the tag (R47): an accepted operand's class is the one its tag's code stands
for, and a tag of the reserved codes "100" and "111" is refused, whatever its modifier bits and the bytes after it: no
operand is read from it, the row it decodes to is refused in every state, and a program that holds it is refused. -/
def Obligations.OperandClassCodes : Prop :=
  (∀ (T : TypeTable) (t : Byte) (rest left : List Byte) (o : VecOpnd), decodeVec T (t :: rest) = .ok (o, left) →
    t.toNat % 8 = match o with
      | .general _ => 0
      | .address _ => 1
      | .predicate _ => 2
      | .indirect _ => 3
      | .immediate32 _ | .immediate64 _ => 5
      | .state _ => 6) ∧
  ∀ (t : Byte) (rest : List Byte), t.toNat % 8 = 4 ∨ t.toNat % 8 = 7 →
    (∀ T : TypeTable, ∃ r, decodeVec T (t :: rest) = .error r) ∧
    (∀ (T : TypeTable) (i : Instr) (s : State), decode T (.vector (t :: rest)) = .ok i →
      ∃ p, exec i s = .refused (.illFormed .reservedClass p s.pc)) ∧
    ∀ (l : Launch) (k : Nat) (c : Supply) (w : Half), ∃ r, entryRefusal l k ⟨c, w, .vector (t :: rest)⟩ = some r

/-- The region code table (R50). -/
def Obligations.RegionCodeTable : Prop :=
  countOf 0 = .null ∧ countOf 1 = .elems 0 ∧
  (∀ k : Nat, 2 ≤ k → k ≤ 7 → countOf (BitVec.ofNat 4 k) = .elems (2 ^ (k - 2))) ∧
  (∀ k : Nat, 8 ≤ k → k ≤ 15 → countOf (BitVec.ofNat 4 k) = .unlisted)

/-! ### Regions -/

/-- The closed form of a source region is the source's pseudo-code (R71): the loop nest fills
`SourceDataElements[count++]` with the elements `src_index` gives to channels 0, 1, 2, ... in order. -/
def Obligations.SourceRegionIsThePseudocode : Prop :=
  ∀ R C E V W H e : Nat, 0 < W → W ∣ e →
    (List.range (e / W)).flatMap (fun i => (List.range W).map fun j => (R * E + C) + i * V + j * H) =
      (List.range e).map (srcIndex R C E V W H)

/-- An accepted source region divides the execution size exactly (00_scope.md R10). The set of execution sizes is
decision D8 (log entry 16). -/
def Obligations.ExecSizeOverWidthExact : Prop :=
  ∀ (ind : Bool) (e : ExecSize) (r : Region), regionReason .src ind e.toNat r = none →
    0 < countVal r.width ∧ countVal r.width ∣ e.toNat ∧ 1 ≤ e.toNat / countVal r.width

/-- The element at row R, column C starts at byte `R * 32 + C * sizeof(T)` (20_memory.md R33), the place a scalar
general operand accesses in every channel, for every table TypeSize (00_scope.md R5). -/
def Obligations.ElementLayout : Prop :=
  ∀ (l : Launch) (o : GenOpnd) (d : VarDecl) (c : Nat), l.varDecl o.id = some d →
    genLoc l .scalar o c = some ⟨o.id, ((o.row.toNat * 32 + o.col.toNat * d.ty.size l.sizes : Nat) : Int)⟩

/-- `ElemRead`: byte `b` is the least significant, byte `b + sizeof(T) - 1` the most significant (R34). Byte order in
storage is decision D4 (log entry 15). -/
def Obligations.ElementBytesLittleEndian : Prop :=
  ∀ (m : Memory) (v : Word) (size b : Nat) (x : Pattern), size ≤ 8 → elemRead m v size b = some x →
    x.toNat < 256 ^ size ∧
    ∀ i, i < size → byteOf? m v (b + i) = some (BitVec.ofNat 8 (x.toNat / 256 ^ i))

/-! ### Which operands are accepted -/

/-- A general operand is accepted exactly when the static rules hold (R80 to R83, R90, R93, R101 to R104). R117 calls
those rules necessary only: that every combination they do not forbid is accepted, and which instruction belongs to
which modifier group, is the model's choice (log entry 35), off the EU log entry 31, and that a variable declared with
a type that is not of data is refused log entry 3. It rests on decisions D11, D18, D30, D32, D33 and D39 (log entries
16, 19 and 22). -/
def Obligations.GeneralAcceptedIff : Prop :=
  ∀ (l : Launch) (c : Ctx) (o : GenOpnd),
    vecRefusal l c (.general o) = none ↔
      (c.place = .dst → c.user.onEU = true) ∧ ModAdmitted c.place c.user o.mods ∧
      PredAccepted l c.exec.toNat c.mask c.pred ∧
      ∃ d, l.varDecl o.id = some d ∧ d.ty.isData = true ∧ RegionLegal c.place False c.exec.toNat o.region ∧
        o.col.toNat < 32 / d.ty.size l.sizes ∧
        (32 ≤ d.n * d.ty.size l.sizes → ∀ i j, i < c.exec.toNat → j < c.exec.toNat →
          genElem l.sizes d.ty c.place o i * d.ty.size l.sizes / 32 ≤
            genElem l.sizes d.ty c.place o j * d.ty.size l.sizes / 32 + 1)

/-- An indirect operand is accepted exactly when the static rules hold (R58, R59, R80, R81, R86, R90, R93, R101 to
R103). R117 calls those rules necessary only: that every combination they do not forbid is accepted, scatter and
sample sources among them, and which instruction belongs to which modifier group, is the model's choice (log entry
35), off the EU log entry 31. It rests on decisions D11, D31, D32 and D33 (log entries 16 and 19). -/
def Obligations.IndirectAcceptedIff : Prop :=
  ∀ (l : Launch) (c : Ctx) (o : IndOpnd),
    vecRefusal l c (.indirect o) = none ↔
      (-512 ≤ o.offset.toInt ∧ o.offset.toInt ≤ 511) ∧ (o.ty ≠ .v ∧ o.ty ≠ .uv ∧ o.ty ≠ .vf ∧ o.ty ≠ .bool) ∧
      (c.place = .dst → c.user.onEU = true) ∧ ModAdmitted c.place c.user o.mods ∧
      PredAccepted l c.exec.toNat c.mask c.pred ∧
      (∃ d, l.addrDecl o.id = some d) ∧ RegionLegal c.place True c.exec.toNat o.region

/-- An address operand is accepted exactly when a special address instruction uses it, its variable is declared and
the statically known bounds hold (R53, R105, R107, R108); a predicate operand in a comparison, logical or SETP
instruction, without combine and inverse (R21, R93, R109); a raw operand as a source or destination of a memory access
or sampler instruction, GRF-aligned (R119 to R121); each under a legal predication (R90, R93). A State operand is never
accepted: one that is a source of ADDR_ADD or MOVS, declared and within its bound, is refused because the two have no
meaning here (R114). It rests on decisions D11, D14, D18, D23 and D24 (log entries 16, 18, 20, 23 and 25), and on log
entries 3, 30, 31 and 35: R117 calls the rules necessary only. -/
def Obligations.SpecialOperandsAcceptedIff : Prop :=
  ∀ (l : Launch) (c : Ctx),
    (∀ o : AddrOpnd, vecRefusal l c (.address o) = none ↔
      c.user ∈ [User.addrAdd, .specialAddress] ∧ PredAccepted l c.exec.toNat c.mask c.pred ∧
      ∃ d, l.addrDecl o.id = some d ∧
        (c.place = .dst ∧ (d.known = true → o.offset.toNat + c.exec.toNat ≤ d.n) ∨
         c.place = .src ∧ o.width.toNat ∈ [1, 2, 4, 8, 16] ∧
           (d.known = true → o.offset.toNat + o.width.toNat ≤ d.n))) ∧
    (∀ o : PredOpnd, vecRefusal l c (.predicate o) = none ↔
      o.val.inv = false ∧ o.val.comb = .seq ∧ c.place ≠ .scalar ∧
      c.user ∈ [User.setp, .comparison, .logic, .andOp, .notOp, .orOp, .xorOp] ∧
      PredAccepted l c.exec.toNat c.mask c.pred ∧
      ∃ off d, predOffset l c.mask = some off ∧ c.exec.toNat + off ≤ 32 ∧ l.predDecl o.val.pid = some d ∧
        (d.known = true → off + c.exec.toNat ≤ d.n)) ∧
    (∀ o : StateOpnd, vecRefusal l c (.state o) ≠ none ∧
      (vecRefusal l c (.state o) = some (.src, .stateUse) ↔
        c.place = .src ∧ c.user ∈ [User.addrAdd, .movs] ∧
        ∃ d, l.stateDecl o.cls o.id = some d ∧ (d.known = true → o.offset.toNat + c.exec.toNat ≤ d.n))) ∧
    (∀ o : RawOpnd, rawRefusal l c o = none ↔
      c.user ∈ [User.memory, .scatter, .block, .sample] ∧ c.place ≠ .scalar ∧
      PredAccepted l c.exec.toNat c.mask c.pred ∧
      ∃ d, l.varDecl o.id = some d ∧ d.ty.isData = true ∧
        (32 ≤ d.n * d.ty.size l.sizes ∧ o.offset.toNat % 32 = 0 ∨
         d.n * d.ty.size l.sizes < 32 ∧ o.offset.toNat = 0 ∧ d.baseAlign l.sizes = 32))

/-- A general or indirect operand one of whose used region parameters is not a legal value, or whose Width exceeds the
execution size, is refused, at every place (R80); so is a destination stride other than 1, 2 or 4 (R81) and an
indirect destination with a Null vertical stride (R86). The operands of HCOPY are no exception. -/
def Obligations.RegionRestrictionsRefused : Prop :=
  (∀ (s : State) (o : GenOpnd), ¬ RegionLegal s.ctx.place False (chans s) o.region →
    ∃ r, exec (.opndGeneral o) s = .refused (.illFormed r (placePos s.ctx.place) s.pc)) ∧
  (∀ (s : State) (o : IndOpnd), ¬ RegionLegal s.ctx.place True (chans s) o.region →
    ∃ r, exec (.opndIndirect o) s = .refused (.illFormed r (placePos s.ctx.place) s.pc)) ∧
  ∀ (s : State) (e : ExecSize) (m : MaskControl) (w : PredWord) (dst src : VecOpnd),
    (∃ o, dst = .general o ∧ ¬ RegionLegal .dst False e.toNat o.region) ∨
    (∃ o, dst = .indirect o ∧ ¬ RegionLegal .dst True e.toNat o.region) ∨
    (∃ o, src = .general o ∧ ¬ RegionLegal .src False e.toNat o.region) ∨
    (∃ o, src = .indirect o ∧ ¬ RegionLegal .src True e.toNat o.region) →
    ∃ r p, exec (.hcopy e m w dst src) s = .refused (.illFormed r p s.pc)

/-- An operation that fails a static check is refused, with the reason, the operand position and the operation's
index (60_exceptions.md R140), whatever the run-time state holds. The line between refusal and fault is decision D12
(log entry 18). -/
def Obligations.StaticFailureRefuses : Prop :=
  ∀ (i : Instr) (s : State) (p : Pos) (r : Reason), staticRefusal s.launch s.ctx i = some (p, r) →
    exec i s = .refused (.illFormed r p s.pc)

/-! ### Predication -/

/-- The channel enable is what the source's pseudo-code computes (R94), bit by bit. The offset of the mask control is
decision D9 (log entry 16), and the word 0 decision D22 (log entry 25). -/
def Obligations.ChannelEnableIsThePseudocode : Prop :=
  ∀ (s : State) (e : ExecSize) (m : MaskControl) (w : PredWord) (n : Nat),
    (evalChEn s e.toNat m w).getLsbD n =
      evaluateChEn e.toNat (m == .noMask) (predOff s m) (fun k => s.em.getLsbD k) w
        (fun k => (s.predBit w.pid k).getD false) n

/-- The offsets of the mask controls, 4 * (n - 1) for Mn (R92, decision D9); NoMask with a predicate refused unless
`NoMaskPredOffset` is supplied (R93, decision D10); and every row whose execution size and mask control reach past
channel 31 refused, raw operands and HCOPY among them (R93, decision D11). See log entries 16 and 17. -/
def Obligations.MaskControlOffsets : Prop :=
  [MaskControl.m1, .m2, .m3, .m4, .m5, .m6, .m7, .m8].map maskOffset = (List.range 8).map (fun n => some (4 * n)) ∧
  (∀ (s : State) (w : PredWord), s.ctx.mask = .noMask → w.isNone = false → s.launch.noMaskPredOffset = none →
    exec (.predControl w) s = .refused (.illFormed .noMaskPred .pred s.pc)) ∧
  (∀ (i : Instr) (s : State), (predicationOf s i).2.1 = .noMask → (predicationOf s i).2.2.isNone = false →
    s.launch.noMaskPredOffset = none → ∃ r p, exec i s = .refused (.illFormed r p s.pc)) ∧
  ∀ (i : Instr) (s : State), ¬ MaskFits (predicationOf s i).1 (predicationOf s i).2.1 →
    ∃ r p, exec i s = .refused (.illFormed r p s.pc)

/-- Combine takes effect before inverse (R91); channels at and above the execution size are never enabled, and
predicate bits outside the `exec_size` ones have no influence (R96); any and all are taken over the predicate bits
alone, channels that EM disables among them, and give every channel the same bit, so that the channels still differ by
EM (R98). -/
def Obligations.CombineBeforeInverse : Prop :=
  ∀ (s : State) (e : ExecSize) (m : MaskControl) (w : PredWord),
    (∀ n, e.toNat ≤ n → (evalChEn s e.toNat m w).getLsbD n = false) ∧
    (∀ t : State, t.em = s.em → t.launch = s.launch →
      (∀ n, n < e.toNat → t.predBit w.pid (predOff s m + n) = s.predBit w.pid (predOff s m + n)) →
      evalChEn t e.toNat m w = evalChEn s e.toNat m w) ∧
    (w.isNone = false → ∀ n, n < e.toNat →
      (w.comb = .any → (evalChEn s e.toNat m w).getLsbD n =
        (baseBit s m n && (decide (∃ k, k < e.toNat ∧ predRead s m w.pid k = true) ^^ w.inv))) ∧
      (w.comb = .all → (evalChEn s e.toNat m w).getLsbD n =
        (baseBit s m n && (decide (∀ k, k < e.toNat → predRead s m w.pid k = true) ^^ w.inv))) ∧
      (w.comb = .seq → (evalChEn s e.toNat m w).getLsbD n = (baseBit s m n && (predRead s m w.pid n ^^ w.inv))))

/-- The predication control word (R55): bit 15 is the inverse, bits 14:13 the combine, bits 11:0 the predicate; a word
with bit 12 set or with combine "11" is refused, and only the word 0 means that there is no predicate (R56). -/
def Obligations.PredWordLayout : Prop :=
  ∀ x : Half,
    (x.getLsbD 12 = true ∨ x.toNat / 8192 % 4 = 3 → ∃ r, decodePredWord x.toNat = .error r) ∧
    (x.getLsbD 12 = false → x.toNat / 8192 % 4 ≠ 3 →
      ∃ w, decodePredWord x.toNat = .ok w ∧ w.inv = x.getLsbD 15 ∧ w.pid.toNat = x.toNat % 4096 ∧
        (w.isNone = true ↔ x = 0) ∧
        ∀ (s : State) (e : ExecSize) (m : MaskControl) (n : Nat), n < e.toNat →
          pmaskBit s e.toNat m w n =
            ((if x.toNat / 8192 % 4 = 0 then predRead s m w.pid n
              else if x.toNat / 8192 % 4 = 1 then decide (∃ k, k < e.toNat ∧ predRead s m w.pid k = true)
              else decide (∀ k, k < e.toNat → predRead s m w.pid k = true)) ^^ x.getLsbD 15))

/-- The predication control word of an instruction evaluates its channel enable, passes it on and changes nothing else
(R94, R97). The port it is passed on is the model's own, which no operation reads (log entry 7), that an operation
ends with pc + 1 decision D25 (log entry 28). -/
def Obligations.PredControlCompletes : Prop :=
  ∀ (s : State) (w : PredWord), PredReady s (chans s) s.ctx.mask w →
    exec (.predControl w) s =
      .next { s with passed := evalChEn s (chans s) s.ctx.mask w, pc := s.pc + 1 }

/-- Every one of the `exec_size` predicate bits is read, whatever EM holds: the first that holds no value raises U9,
in every row that is accepted: pred_control, HCOPY, and the operand rows, whose instruction is predicated (R94;
10_state.md R29; 44_named_instructions.md R136 step 1). No value at launch is decision D29 (log entry 1), the order of
causes D40 (log entry 18). -/
def Obligations.UnwrittenPredicateBitFaults : Prop :=
  ∀ (i : Instr) (s : State) (e n : Nat) (m : MaskControl) (w : PredWord),
    staticRefusal s.launch s.ctx i = none → predicationOf s i = (e, m, w) → BitMissing s e m w n →
    exec i s = .fault (.u9 ⟨s.pc, .pred, n⟩)

/-! ### General operands -/

/-- A general source delivers to each enabled channel `c` the element that `src_index` gives, in the declared type
(R104, R71, R72), and changes nothing else, but that off the EU it passes the channel enable on (R97, log entry 7).
Only enabled channels need a value (R95). The lanes are the model's own port (log entry 8). What a nonzero modifier
makes of a value is free (log entry 5). -/
def Obligations.GeneralSourceDelivers : Prop :=
  ∀ (s : State) (o : GenOpnd) (d : VarDecl),
    s.ctx.place = .src → vecRefusal s.launch s.ctx (.general o) = none → Ready s →
    s.launch.varDecl o.id = some d → (∀ c, c < chans s → srcElem s.launch.sizes d.ty o c < d.n) →
    (∀ c, s.enabled c = true → elemRead s.gv o.id (d.ty.size s.launch.sizes)
      (srcElem s.launch.sizes d.ty o c * d.ty.size s.launch.sizes) ≠ none) →
    ∃ t, exec (.opndGeneral o) s = .next t ∧ OnlyLanes s t ∧
      LanesHold s t fun c => (elemRead s.gv o.id (d.ty.size s.launch.sizes)
        (srcElem s.launch.sizes d.ty o c * d.ty.size s.launch.sizes)).map
          (modify s.launch.sizes o.mods false (some d.ty))

/-- A scalar general operand delivers its first element to every enabled channel, whatever its region bits, and a
scalar indirect operand the single element at `AN(k) + offset`, whatever its vertical stride (R116). The lanes are
the model's own port (log entry 8). Ignored codes are decision D33 (log entry 19). -/
def Obligations.ScalarOperandsDeliver : Prop :=
  ∀ (s : State) (x : Pattern), s.ctx.place = .scalar → Ready s →
    (∀ (o : GenOpnd) (d : VarDecl),
      vecRefusal s.launch s.ctx (.general o) = none → s.launch.varDecl o.id = some d →
      o.row.toNat * (32 / d.ty.size s.launch.sizes) + o.col.toNat < d.n →
      elemRead s.gv o.id (d.ty.size s.launch.sizes)
        (o.row.toNat * 32 + o.col.toNat * d.ty.size s.launch.sizes) = some x →
      ∃ t, exec (.opndGeneral o) s = .next t ∧ OnlyLanes s t ∧
        LanesHold s t fun _ => some (modify s.launch.sizes o.mods false (some d.ty) x)) ∧
    (∀ (o : IndOpnd) (q : Ptr),
      vecRefusal s.launch s.ctx (.indirect o) = none → s.addrElem o.id o.addrOffset.toNat = some q →
      (∀ c, c < chans s → indFault s .scalar o c = none) →
      elemRead s.gv q.v (o.ty.size s.launch.sizes) (q.b + o.offset.toInt).toNat = some x →
      ∃ t, exec (.opndIndirect o) s = .next t ∧ OnlyLanes s t ∧
        LanesHold s t fun _ => some (modify s.launch.sizes o.mods false (some o.ty) x))

/-- A general destination stores each enabled channel's lane into the element its region designates, and leaves every
other byte alone, the elements of disabled channels among them (R73, R95). What is stored is the lane after the
destination's modifier, whose place on a destination R118 leaves open (log entry 5). The lanes are the model's own port
(log entry 8). Byte order is decision D4 (log entry 15). -/
def Obligations.GeneralDestinationStores : Prop :=
  ∀ (s : State) (o : GenOpnd) (d : VarDecl),
    s.ctx.place = .dst → vecRefusal s.launch s.ctx (.general o) = none → Ready s →
    s.launch.varDecl o.id = some d → (∀ c, c < chans s → dstElem s.launch.sizes d.ty o c < d.n) →
    ∃ t, exec (.opndGeneral o) s = .next t ∧ OnlyGv s t ∧ BytesKept s t (.general o) (chans s) s.enabled ∧
      ∀ c, c < chans s → elemRead t.gv o.id (d.ty.size s.launch.sizes)
          (dstElem s.launch.sizes d.ty o c * d.ty.size s.launch.sizes) =
        if s.enabled c then
          some (BitVec.ofNat 64 ((laneOut s (.general o) c).toNat % 256 ^ d.ty.size s.launch.sizes))
        else elemRead s.gv o.id (d.ty.size s.launch.sizes)
          (dstElem s.launch.sizes d.ty o c * d.ty.size s.launch.sizes)

/-- An element index not below the variable's element count raises U1 at the first channel that has one, enabled or
not (R74). That it faults and is not refused is decision D12 and that disabled channels count is D39 (log entries 18
and 22). -/
def Obligations.GeneralOutOfBoundsFaults : Prop :=
  ∀ (s : State) (o : GenOpnd) (d : VarDecl) (c : Nat),
    vecRefusal s.launch s.ctx (.general o) = none → Ready s → s.launch.varDecl o.id = some d →
    c < chans s → (∀ k, k < c → genElem s.launch.sizes d.ty s.ctx.place o k < d.n) →
    d.n ≤ genElem s.launch.sizes d.ty s.ctx.place o c →
    exec (.opndGeneral o) s = .fault (.u1 ⟨s.pc, placePos s.ctx.place, c⟩)

/-! ### Indirect operands -/

/-- A single-address source reads the region whose origin is `AN(k) + offset`, in the operand's own type (R75). The
lanes are the model's own port (log entry 8). An address value is ptr(v, b) by decision D16 (log entry 21). -/
def Obligations.IndirectSingleSourceDelivers : Prop :=
  ∀ (s : State) (o : IndOpnd) (q : Ptr) (y : Nat → Option Pattern),
    s.ctx.place = .src → countOf o.region.vert ≠ .null → vecRefusal s.launch s.ctx (.indirect o) = none → Ready s →
    s.addrElem o.id o.addrOffset.toNat = some q →
    (∀ c, c < chans s → indFault s .src o c = none) →
    (∀ c, y c = elemRead s.gv q.v (o.ty.size s.launch.sizes)
      (q.b + o.offset.toInt + (((c / countVal o.region.width) * countVal o.region.vert
        + (c % countVal o.region.width) * countVal o.region.horz : Nat) : Int) * o.ty.size s.launch.sizes).toNat) →
    (∀ c, s.enabled c = true → y c ≠ none) →
    ∃ t, exec (.opndIndirect o) s = .next t ∧ OnlyLanes s t ∧
      LanesHold s t fun c => (y c).map (modify s.launch.sizes o.mods false (some o.ty))

/-- A multi-address source takes the origin of region row `i` from address element `AN(k + i)` (R77, R78). The lanes
are the model's own port (log entry 8). An address value is ptr(v, b) by decision D16 (log entry 21). -/
def Obligations.IndirectMultiSourceDelivers : Prop :=
  ∀ (s : State) (o : IndOpnd) (q : Nat → Ptr) (y : Nat → Option Pattern),
    s.ctx.place = .src → countOf o.region.vert = .null → vecRefusal s.launch s.ctx (.indirect o) = none → Ready s →
    (∀ c, c < chans s → indFault s .src o c = none) →
    (∀ i, i < chans s / countVal o.region.width → s.addrElem o.id (o.addrOffset.toNat + i) = some (q i)) →
    (∀ c, c < chans s → y c = elemRead s.gv (q (c / countVal o.region.width)).v (o.ty.size s.launch.sizes)
      ((q (c / countVal o.region.width)).b + o.offset.toInt
        + (((c % countVal o.region.width) * countVal o.region.horz * o.ty.size s.launch.sizes : Nat) : Int)).toNat) →
    (∀ c, s.enabled c = true → y c ≠ none) →
    ∃ t, exec (.opndIndirect o) s = .next t ∧ OnlyLanes s t ∧
      LanesHold s t fun c => (y c).map (modify s.launch.sizes o.mods false (some o.ty))

/-- An indirect destination stores each enabled channel's lane at `AN(k) + offset + i * HorzStride * sizeof(T)`, and
leaves every other byte alone (R76, R95). What is stored is the lane after the destination's modifier, whose place on a
destination R118 leaves open (log entry 5). The lanes are the model's own port (log entry 8). An address value is
ptr(v, b) by decision D16 (log entry 21). -/
def Obligations.IndirectDestinationStores : Prop :=
  ∀ (s : State) (o : IndOpnd) (q : Ptr),
    s.ctx.place = .dst → vecRefusal s.launch s.ctx (.indirect o) = none → Ready s →
    s.addrElem o.id o.addrOffset.toNat = some q →
    (∀ c, c < chans s → indFault s .dst o c = none) →
    ∃ t, exec (.opndIndirect o) s = .next t ∧ OnlyGv s t ∧ BytesKept s t (.indirect o) (chans s) s.enabled ∧
      ∀ c, s.enabled c = true → elemRead t.gv q.v (o.ty.size s.launch.sizes)
          (q.b + o.offset.toInt + ((c * countVal o.region.horz * o.ty.size s.launch.sizes : Nat) : Int)).toNat =
        some (BitVec.ofNat 64 ((laneOut s (.indirect o) c).toNat % 256 ^ o.ty.size s.launch.sizes))

/-- What an indirect operand is checked for at one channel, in the order U2, U3, U4 (R79, R83, R142): first that the
address element of the channel's row exists and holds a value (R79 (a)), and only then has the channel a location. The
base of a variable of 32 bytes or more is aligned to 32, that of a smaller one to the power of two its declaration
promises, or to its element size where it promises nothing (20_memory.md R36, R84). The order is decision D40, alignment
of small variables D18, no value at launch D29 (log entries 1, 13, 18 and 22); that an address into no declared
variable of data elements raises U2 is the model's choice (log entry 37). -/
def Obligations.IndirectChecks : Prop :=
  ∀ (s : State) (p : Place) (o : IndOpnd) (c : Nat),
    indRow p o c =
      (if p = .src ∧ countOf o.region.vert = .null then c / countVal o.region.width else 0) ∧
    ((∀ d, s.launch.addrDecl o.id = some d → d.n ≤ o.addrOffset.toNat + indRow p o c) ∨
        s.addrElem o.id (o.addrOffset.toNat + indRow p o c) = none →
      indFault s p o c = some (.u2 ⟨s.pc, placePos p, c⟩)) ∧
    (∀ d q, s.launch.addrDecl o.id = some d → o.addrOffset.toNat + indRow p o c < d.n →
      s.addrElem o.id (o.addrOffset.toNat + indRow p o c) = some q →
      ∃ x, indLoc s p o c = some x ∧ x.v = q.v) ∧
    (∀ (d : VarDecl) (z : TypeSizes), d.baseAlign z =
      if 32 ≤ d.n * d.ty.size z then 32
      else match d.alignLog with
        | some k => 2 ^ k
        | none => d.ty.size z) ∧
    ∀ x, indLoc s p o c = some x →
      ((∀ d, s.launch.varDecl x.v = some d → d.ty.isData = false) →
        indFault s p o c = some (.u2 ⟨s.pc, placePos p, c⟩)) ∧
      ∀ d size n, s.launch.varDecl x.v = some d → d.ty.isData = true → size = o.ty.size s.launch.sizes →
        n = d.n * d.ty.size s.launch.sizes →
        (¬ (0 ≤ x.b ∧ x.b + size ≤ (n : Int)) →
          indFault s p o c = some (.u2 ⟨s.pc, placePos p, c⟩)) ∧
        (0 ≤ x.b ∧ x.b + size ≤ (n : Int) →
          (¬ ((size : Int) ∣ x.b ∧ size ∣ d.baseAlign s.launch.sizes) →
            indFault s p o c = some (.u3 ⟨s.pc, placePos p, c⟩)) ∧
          ((size : Int) ∣ x.b ∧ size ∣ d.baseAlign s.launch.sizes →
            ((32 ≤ n ∧ ∃ k y, k < c ∧ indRow p o k = indRow p o c ∧ indLoc s p o k = some y ∧
                (y.b.toNat / 32 + 1 < x.b.toNat / 32 ∨ x.b.toNat / 32 + 1 < y.b.toNat / 32)) →
              indFault s p o c = some (.u4 ⟨s.pc, placePos p, c⟩)) ∧
            (¬ (32 ≤ n ∧ ∃ k y, k < c ∧ indRow p o k = indRow p o c ∧ indLoc s p o k = some y ∧
                (y.b.toNat / 32 + 1 < x.b.toNat / 32 ∨ x.b.toNat / 32 + 1 < y.b.toNat / 32)) →
              indFault s p o c = none)))

/-- The first failing check of the lowest failing channel, enabled or not, is what a general or indirect operand
raises, and what HCOPY raises in its second step, U1 to U4, within a channel destination before source (R74, R79, R136
step 2, R142). All channels are checked by decision D39, in the order of D40 (log entries 18 and 22). -/
def Obligations.FirstFailureRaised : Prop :=
  (∀ (s : State) (o : VecOpnd) (c : Nat) (f : Fault),
    vecRefusal s.launch s.ctx o = none → Ready s → c < chans s →
    (∀ k, k < c → dataFault s s.ctx.place o k = none) → dataFault s s.ctx.place o c = some f →
    exec o.toInstr s = .fault f) ∧
  ∀ (s : State) (e : ExecSize) (m : MaskControl) (w : PredWord) (dst src : VecOpnd) (c : Nat) (f : Fault),
    hcopyRefusal s.launch e m w dst src = none → PredReady s e.toNat m w → c < e.toNat →
    (∀ k, k < c → dataFault s .dst dst k = none ∧ dataFault s .src src k = none) →
    (dataFault s .dst dst c = some f ∨ dataFault s .dst dst c = none ∧ dataFault s .src src c = some f) →
    exec (.hcopy e m w dst src) s = .fault f

/-- When an indirect operand passes its checks, the elements of each region row lie in one GRF register or in two
adjacent ones of a variable of 32 bytes or more (R83, R85). Positions and rows are decisions D17 and D18 (log entry
22). -/
def Obligations.IndirectSpanHolds : Prop :=
  ∀ (s : State) (p : Place) (o : IndOpnd) (e i j : Nat) (x y : Loc) (d : VarDecl),
    (∀ c, c < e → indFault s p o c = none) → i < e → j < e → indRow p o i = indRow p o j →
    indLoc s p o i = some x → indLoc s p o j = some y → s.launch.varDecl x.v = some d →
    32 ≤ d.n * d.ty.size s.launch.sizes →
    x.v = y.v ∧ x.b.toNat / 32 ≤ y.b.toNat / 32 + 1

/-! ### Immediates -/

/-- A non-packed immediate delivers one constant to every enabled channel (R111): without `high` the low `8 *
sizeof(T)` bits of `low` (decision D19 below 32 bits), with it `high * 2^32 + low` (R61). That every instruction
and group admits one as a source is log entry 35 (R117). The lanes are the model's own port (log entry 8). -/
def Obligations.ImmediateReplicates : Prop :=
  ∀ (s : State), s.ctx.place ≠ .dst → Ready s →
    (∀ o : Imm32, o.ty ≠ .bool → o.ty.isLong = false → o.ty.isPacked = false →
      ∃ t, exec (.opndImmediate32 o) s = .next t ∧ OnlyLanes s t ∧
        LanesHold s t fun _ => some (BitVec.ofNat 64 (o.low.toNat % 2 ^ (8 * o.ty.size s.launch.sizes)))) ∧
    (∀ o : Imm64, o.ty.isLong = true →
      ∃ t, exec (.opndImmediate64 o) s = .next t ∧ OnlyLanes s t ∧
        LanesHold s t fun _ => some (BitVec.ofNat 64 (o.high.toNat * 2 ^ 32 + o.low.toNat)))

/-- A packed immediate delivers element `c` to channel `c` (R112, R113), an element of type W, UW or float. Under the
default PackedImm (decision D20, log entry 4) it is for V and UV a 4-bit field of `low` extended to 16 bits, for VF
the float that the 8-bit field denotes, whatever that is (log entry 6); under any other PackedImm it is whatever `low`
yields. That every instruction and group admits one as a source is log entry 35 (R117). The lanes are the model's own
port (log entry 8). -/
def Obligations.PackedImmediatesDeliver : Prop :=
  ∀ (s : State) (o : Imm32), s.ctx.place = .src → Ready s → o.ty.isPacked = true → chans s ≤ o.ty.packedCount →
    ∃ t, exec (.opndImmediate32 o) s = .next t ∧ OnlyLanes s t ∧
      (s.launch.packed = .fields → o.ty = .v ∨ o.ty = .uv → LanesHold s t fun c => some (BitVec.ofNat 64 (
        if o.ty = .v ∧ 8 ≤ o.low.toNat / 2 ^ (4 * c) % 16 then o.low.toNat / 2 ^ (4 * c) % 16 + 65520
        else o.low.toNat / 2 ^ (4 * c) % 16))) ∧
      (s.launch.packed = .fields → o.ty = .vf → LanesHold s t fun c => some (BitVec.ofNat 64 (
        (Config.vfElem (BitVec.ofNat 8 (o.low.toNat / 2 ^ (8 * c)))).toNat % 2 ^ (8 * Ty.f.size s.launch.sizes)))) ∧
      (s.launch.packed = .unknown → LanesHold s t fun c => some (BitVec.ofNat 64 (
        (Config.packedElem o.ty o.low c).toNat % 2 ^ (8 * o.ty.elem.size s.launch.sizes))))

/-- A packed immediate is refused with an execution size above its element count (R113, decision D21) and as a scalar
(R116, decision D21). See log entry 24. -/
def Obligations.PackedImmediateRefusals : Prop :=
  ∀ (s : State) (o : Imm32), o.ty.isPacked = true →
    (s.ctx.place = .src → o.ty.packedCount < chans s →
      exec (.opndImmediate32 o) s = .refused (.illFormed .packedExec .src s.pc)) ∧
    (s.ctx.place = .scalar → exec (.opndImmediate32 o) s = .refused (.illFormed .packedScalar .src s.pc))

/-- No immediate is a destination (R62): not at a destination place, and not as the destination of an HCOPY. -/
def Obligations.ImmediateNeverDestination : Prop :=
  (∀ (s : State), s.ctx.place = .dst →
    (∀ o : Imm32, ∃ r, exec (.opndImmediate32 o) s = .refused (.illFormed r .dst s.pc)) ∧
    (∀ o : Imm64, ∃ r, exec (.opndImmediate64 o) s = .refused (.illFormed r .dst s.pc))) ∧
  ∀ (s : State) (e : ExecSize) (m : MaskControl) (w : PredWord) (dst src : VecOpnd),
    ((∃ o, dst = .immediate32 o) ∨ (∃ o, dst = .immediate64 o)) →
    ∃ r, exec (.hcopy e m w dst src) s = .refused (.illFormed r .dst s.pc)

/-! ### Address, predicate and state operands -/

/-- A source address operand delivers element `offset + (c mod width)` to channel `c` (R106). The lanes are the
model's own port (log entry 8). Cyclic repetition is decision D15 (log entry 20). -/
def Obligations.AddressSourceReplicates : Prop :=
  ∀ (s : State) (o : AddrOpnd) (d : ElemDecl) (x : Nat → Ptr),
    s.ctx.place = .src → vecRefusal s.launch s.ctx (.address o) = none → Ready s →
    s.launch.addrDecl o.id = some d → o.offset.toNat + o.width.toNat ≤ d.n →
    (∀ c, s.enabled c = true → s.addrElem o.id (o.offset.toNat + c % o.width.toNat) = some (x c)) →
    ∃ t, exec (.opndAddress o) s = .next t ∧ t = { s with lanePtr := t.lanePtr, pc := s.pc + 1 } ∧
      ∀ c, c < 32 → t.lanePtr.getD c ⟨0, 0⟩ = if s.enabled c then x c else s.lanePtr.getD c ⟨0, 0⟩

/-- A destination address operand writes element `offset + i` for each enabled channel `i`, whatever its width, and
no other element of any address variable (R107). The lanes are the model's own port (log entry 8). -/
def Obligations.AddressDestinationWrites : Prop :=
  ∀ (s : State) (o : AddrOpnd) (d : ElemDecl),
    s.ctx.place = .dst → vecRefusal s.launch s.ctx (.address o) = none → Ready s →
    s.launch.addrDecl o.id = some d → o.offset.toNat + chans s ≤ d.n →
    ∃ t, exec (.opndAddress o) s = .next t ∧ t = { s with av := t.av, pc := s.pc + 1 } ∧
      ∀ id k, t.addrElem id k =
        if id = o.id ∧ o.offset.toNat ≤ k ∧ s.enabled (k - o.offset.toNat) = true
        then some (s.lanePtr.getD (k - o.offset.toNat) ⟨0, 0⟩) else s.addrElem id k

/-- Beyond the end of a variable whose element count is not known statically: an address operand raises U6 at the
channel of its first element beyond (R107, R108), a predicate operand U7 at its first channel beyond (R21, R109), and
every row that evaluates a channel enable U7 at the first bit beyond of the predicate it is under: pred_control, HCOPY
and the operand rows (R21, R94, R138). Reading what a state operand denotes would raise U8 at its first channel beyond;
the row itself is refused before (R114). Which side faults is decision D24, the channel named for an address operand
wider than the execution size log entry 18. -/
def Obligations.SpecialBoundFaults : Prop :=
  ∀ (s : State),
    (∀ (o : AddrOpnd) (d : ElemDecl),
      vecRefusal s.launch s.ctx (.address o) = none → Ready s → s.launch.addrDecl o.id = some d →
      d.n < o.offset.toNat + (if s.ctx.place = .dst then chans s else o.width.toNat) →
      d.known = false ∧ ∃ k, d.n ≤ o.offset.toNat + k ∧ (∀ j, j < k → o.offset.toNat + j < d.n) ∧
        exec (.opndAddress o) s = .fault (.u6 ⟨s.pc, placePos s.ctx.place, k⟩)) ∧
    (∀ (o : PredOpnd) (off c : Nat) (d : ElemDecl),
      vecRefusal s.launch s.ctx (.predicate o) = none → Ready s → predOffset s.launch s.ctx.mask = some off →
      s.launch.predDecl o.val.pid = some d → c < chans s → d.n ≤ off + c → (∀ k, k < c → off + k < d.n) →
      d.known = false ∧ exec (.opndPredicate o) s = .fault (.u7 ⟨s.pc, placePos s.ctx.place, c⟩)) ∧
    (∀ (o : StateOpnd) (d : ElemDecl) (c : Nat),
      Ready s → s.launch.stateDecl o.cls o.id = some d →
      c < chans s → d.n ≤ o.offset.toNat + c → (∀ k, k < c → o.offset.toNat + k < d.n) →
      readState o s = .fault (.u8 ⟨s.pc, .src, c⟩)) ∧
    ∀ (i : Instr) (e n : Nat) (m : MaskControl) (w : PredWord),
      staticRefusal s.launch s.ctx i = none → predicationOf s i = (e, m, w) → BitBeyond s e m w n →
      exec i s = .fault (.u7 ⟨s.pc, .pred, n⟩)

/-- A predicate source delivers bit `n + mask_control_offset` to channel `n` (R109). The lanes are the model's own
port (log entry 8). -/
def Obligations.PredicateSourceDelivers : Prop :=
  ∀ (s : State) (o : PredOpnd) (off : Nat) (d : ElemDecl) (x : Nat → Bool),
    s.ctx.place = .src → vecRefusal s.launch s.ctx (.predicate o) = none → Ready s →
    predOffset s.launch s.ctx.mask = some off → s.launch.predDecl o.val.pid = some d → off + chans s ≤ d.n →
    (∀ c, s.enabled c = true → s.predBit o.val.pid (c + off) = some (x c)) →
    ∃ t, exec (.opndPredicate o) s = .next t ∧ t = { s with laneBit := t.laneBit, pc := s.pc + 1 } ∧
      ∀ c, c < 32 → t.laneBit.getLsbD c = if s.enabled c then x c else s.laneBit.getLsbD c

/-- A predicate destination writes bit `n + mask_control_offset` for each enabled channel `n`, and no other bit of
any predicate variable (R109). The lanes are the model's own port (log entry 8). -/
def Obligations.PredicateDestinationWrites : Prop :=
  ∀ (s : State) (o : PredOpnd) (off : Nat) (d : ElemDecl),
    s.ctx.place = .dst → vecRefusal s.launch s.ctx (.predicate o) = none → Ready s →
    predOffset s.launch s.ctx.mask = some off → s.launch.predDecl o.val.pid = some d → off + chans s ≤ d.n →
    ∃ t, exec (.opndPredicate o) s = .next t ∧ t = { s with pv := t.pv, pc := s.pc + 1 } ∧
      ∀ pid n, t.predBit pid n =
        if pid = o.val.pid ∧ off ≤ n ∧ s.enabled (n - off) = true then some (s.laneBit.getLsbD (n - off))
        else s.predBit pid n

/-- Every State operand is refused, the model giving ADDR_ADD and MOVS no meaning (R114), at the position and for the
check that the static checks name. What it denotes is the element at its offset and, for further channels, the
elements that follow it (R114): reading it would deliver those to the lanes, the model's own port (log entry 8). -/
def Obligations.StateOperandRefused : Prop :=
  (∀ (s : State) (o : StateOpnd), ∃ p r, vecRefusal s.launch s.ctx (.state o) = some (p, r) ∧
    exec (.opndState o) s = .refused (.illFormed r p s.pc)) ∧
  ∀ (s : State) (o : StateOpnd) (d : ElemDecl) (x : Nat → StateVal),
    Ready s → s.launch.stateDecl o.cls o.id = some d → o.offset.toNat + chans s ≤ d.n →
    (∀ c, s.enabled c = true → s.stateElem o.cls o.id (o.offset.toNat + c) = some (x c)) →
    ∃ t, readState o s = .next t ∧ t = { s with laneState := t.laneState, pc := s.pc + 1 } ∧
      ∀ c, c < 32 → t.laneState.getD c ⟨0⟩ = if s.enabled c then x c else s.laneState.getD c ⟨0⟩

/-! ### Raw operands -/

/-- A raw source denotes the `L` contiguous bytes from its offset (R119): it hands them over with the channel enable
of its instruction, whatever that is, and changes nothing else (41_predication.md R97). The ports are the model's own
(log entries 7 and 9). -/
def Obligations.RawSourceDelivers : Prop :=
  ∀ (s : State) (o : RawOpnd) (d : VarDecl) (x : Nat → Byte),
    s.ctx.place = .src → rawRefusal s.launch s.ctx o = none → Ready s → s.launch.varDecl o.id = some d →
    o.offset.toNat + s.ctx.rawLen ≤ d.n * d.ty.size s.launch.sizes →
    (∀ i, i < s.ctx.rawLen → byteOf? s.gv o.id (o.offset.toNat + i) = some (x i)) →
    exec (.rawOperand o) s = .next { s with
      payload := (List.range s.ctx.rawLen).map x
      passed := evalChEn s (chans s) s.ctx.mask s.ctx.pred
      pc := s.pc + 1 }

/-- A raw destination passes the channel enable to the shared function and stores, of its `L` contiguous bytes from its
offset, those that the shared function returns, and leaves every other byte alone (R119; 41_predication.md R97). Which
bytes those are and what they hold is free, whatever the channel enable and the bytes handed over before (log entry
38). The port is the model's own (log entry 7). -/
def Obligations.RawDestinationStores : Prop :=
  ∀ (s : State) (o : RawOpnd) (d : VarDecl) (r : Nat → Option Byte),
    s.ctx.place = .dst → rawRefusal s.launch s.ctx o = none → Ready s → s.launch.varDecl o.id = some d →
    o.offset.toNat + s.ctx.rawLen ≤ d.n * d.ty.size s.launch.sizes →
    r = Config.sharedByte s.returns s.ctx.user (evalChEn s (chans s) s.ctx.mask s.ctx.pred) s.payload →
    ∃ t, exec (.rawOperand o) s = .next t ∧ OnlyReturned s t ∧
      (∀ i x, i < s.ctx.rawLen → r i = some x → byteOf? t.gv o.id (o.offset.toNat + i) = some x) ∧
      ∀ v b, (∀ i, i < s.ctx.rawLen → r i ≠ none → v ≠ o.id ∨ b ≠ o.offset.toNat + i) →
        byteOf? t.gv v b = byteOf? s.gv v b

/-- A raw operand whose `L` bytes run past the end of its variable raises U5, as source or destination (R122). -/
def Obligations.RawOutOfBoundsFaults : Prop :=
  ∀ (s : State) (o : RawOpnd) (d : VarDecl),
    rawRefusal s.launch s.ctx o = none → Ready s → s.launch.varDecl o.id = some d →
    ¬ (o.offset.toNat + s.ctx.rawLen ≤ d.n * d.ty.size s.launch.sizes) →
    ∃ k, exec (.rawOperand o) s = .fault (.u5 ⟨s.pc, placePos s.ctx.place, k⟩)

/-! ### HCOPY -/

/-- HCOPY copies, for each enabled channel, the value its source held before the operation into its destination's
element, leaves every other byte alone, and changes nothing else but the pc (R136). HCOPY is the spec's own operation,
decisions D26 and D35 (log entry 26). -/
def Obligations.HcopyCopies : Prop :=
  ∀ (s : State) (e : ExecSize) (m : MaskControl) (w : PredWord) (dst src : VecOpnd) (x : Nat → Pattern),
    hcopyRefusal s.launch e m w dst src = none → PredReady s e.toNat m w →
    (∀ c, c < e.toNat → dataFault s .dst dst c = none ∧ dataFault s .src src c = none) →
    (∀ c, (evalChEn s e.toNat m w).getLsbD c = true → dataValue s .src src c = some (x c)) →
    ∃ t, exec (.hcopy e m w dst src) s = .next t ∧ OnlyGv s t ∧
      BytesKept s t dst e.toNat (fun c => (evalChEn s e.toNat m w).getLsbD c) ∧
      ∀ c y, (evalChEn s e.toNat m w).getLsbD c = true → dataLoc s .dst dst c = some y →
        elemRead t.gv y.v (dataSize s.launch dst) y.b.toNat = some (x c)

/-- HCOPY is accepted exactly when its classes, its two operands, its predication and its mask control are, and the
element types of destination and source are equal (R136). HCOPY is the spec's own operation, decision D35 (log entry
26). -/
def Obligations.HcopyAcceptedIff : Prop :=
  ∀ (l : Launch) (e : ExecSize) (m : MaskControl) (w : PredWord) (dst src : VecOpnd),
    hcopyRefusal l e m w dst src = none ↔
      ((∃ o, dst = .general o) ∨ (∃ o, dst = .indirect o)) ∧
      ((∃ o, src = .general o) ∨ (∃ o, src = .indirect o) ∨ (∃ o, src = .immediate32 o) ∨
        (∃ o, src = .immediate64 o)) ∧
      vecRefusal l (hcopyCtx e m w .dst) dst = none ∧ vecRefusal l (hcopyCtx e m w .src) src = none ∧
      PredAccepted l e.toNat m w ∧ dataTy l dst = dataTy l src

/-- Reading an element that holds no value raises U9 at the first enabled channel that reads one, in every source row
(general, indirect, address, predicate) and in HCOPY, and a disabled channel raises nothing; a raw source raises it at
its first byte that holds no value, and reading what a state operand denotes, whose row is refused before (R114),
would (10_state.md R29, R95, R106, R109, R136 step 3, R138). No value at launch is decision D29, values of enabled
channels only D26 (log entries 1 and 26), the byte named for a raw source log entry 9. -/
def Obligations.UnwrittenSourceFaults : Prop :=
  ∀ (s : State) (c : Nat),
    (∀ o : VecOpnd, s.ctx.place ≠ .dst → vecRefusal s.launch s.ctx o = none → Ready s →
      (∃ g, o = .general g) ∨ (∃ i, o = .indirect i) →
      (∀ k, k < chans s → dataFault s s.ctx.place o k = none) →
      s.enabled c = true → dataValue s s.ctx.place o c = none →
      (∀ k, k < c → s.enabled k = true → dataValue s s.ctx.place o k ≠ none) →
      exec o.toInstr s = .fault (.u9 ⟨s.pc, .src, c⟩)) ∧
    (∀ (o : AddrOpnd) (d : ElemDecl), s.ctx.place = .src → vecRefusal s.launch s.ctx (.address o) = none → Ready s →
      s.launch.addrDecl o.id = some d → o.offset.toNat + o.width.toNat ≤ d.n →
      s.enabled c = true → s.addrElem o.id (o.offset.toNat + c % o.width.toNat) = none →
      (∀ k, k < c → s.enabled k = true → s.addrElem o.id (o.offset.toNat + k % o.width.toNat) ≠ none) →
      exec (.opndAddress o) s = .fault (.u9 ⟨s.pc, .src, c⟩)) ∧
    (∀ (o : PredOpnd) (off : Nat) (d : ElemDecl),
      s.ctx.place = .src → vecRefusal s.launch s.ctx (.predicate o) = none → Ready s →
      predOffset s.launch s.ctx.mask = some off → s.launch.predDecl o.val.pid = some d → off + chans s ≤ d.n →
      s.enabled c = true → s.predBit o.val.pid (off + c) = none →
      (∀ k, k < c → s.enabled k = true → s.predBit o.val.pid (off + k) ≠ none) →
      exec (.opndPredicate o) s = .fault (.u9 ⟨s.pc, .src, c⟩)) ∧
    (∀ (o : StateOpnd) (d : ElemDecl), Ready s →
      s.launch.stateDecl o.cls o.id = some d → o.offset.toNat + chans s ≤ d.n →
      s.enabled c = true → s.stateElem o.cls o.id (o.offset.toNat + c) = none →
      (∀ k, k < c → s.enabled k = true → s.stateElem o.cls o.id (o.offset.toNat + k) ≠ none) →
      readState o s = .fault (.u9 ⟨s.pc, .src, c⟩)) ∧
    (∀ (o : RawOpnd) (d : VarDecl), s.ctx.place = .src → rawRefusal s.launch s.ctx o = none → Ready s →
      s.launch.varDecl o.id = some d → o.offset.toNat + s.ctx.rawLen ≤ d.n * d.ty.size s.launch.sizes →
      c < s.ctx.rawLen → byteOf? s.gv o.id (o.offset.toNat + c) = none →
      (∀ k, k < c → byteOf? s.gv o.id (o.offset.toNat + k) ≠ none) →
      exec (.rawOperand o) s = .fault (.u9 ⟨s.pc, .src, c⟩)) ∧
    ∀ (e : ExecSize) (m : MaskControl) (w : PredWord) (dst src : VecOpnd),
      hcopyRefusal s.launch e m w dst src = none → PredReady s e.toNat m w →
      (∀ k, k < e.toNat → dataFault s .dst dst k = none ∧ dataFault s .src src k = none) →
      (evalChEn s e.toNat m w).getLsbD c = true → dataValue s .src src c = none →
      (∀ k, k < c → (evalChEn s e.toNat m w).getLsbD k = true → dataValue s .src src k ≠ none) →
      exec (.hcopy e m w dst src) s = .fault (.u9 ⟨s.pc, .src, c⟩)

/-- An HCOPY completes exactly when its element types are equal and its parts complete in turn: its source operand and
then its destination operand, each under the fields and the predication that HCOPY supplies; and then it leaves the
general variables as they do. HCOPY is the spec's own operation, decisions D26 and D35 (log entry 26); the lanes that
join the parts are the model's own (log entry 8). -/
def Obligations.HcopyIsItsPartsInTurn : Prop :=
  ∀ (s t : State) (e : ExecSize) (m : MaskControl) (w : PredWord) (dst src : VecOpnd),
    exec (.hcopy e m w dst src) s = .next t ↔
      dataTy s.launch dst = dataTy s.launch src ∧
      ∃ s1 s2, exec src.toInstr (s.enter (hcopyCtx e m w .src)) = .next s1 ∧
        exec dst.toInstr (s1.enter (hcopyCtx e m w .dst)) = .next s2 ∧
        t = { s with gv := s2.gv, pc := s.pc + 1 }

/-! ### Frames -/

/-- A row that stores nothing leaves every byte of every general variable, every address element, predicate bit and
state element, EM, the declarations, the program and the supplied fields unchanged; the pc advances by one, and only
the port of its own kind may change, and that for the channel enable in a predication control row and off the EU
(log entries 7 to 9). -/
def Obligations.SourceFrame : Prop :=
  ∀ (i : Instr) (s t : State), StoresNothing s.ctx i → exec i s = .next t →
    (∀ v b, byteOf? t.gv v b = byteOf? s.gv v b) ∧ (∀ id k, t.addrElem id k = s.addrElem id k) ∧
    (∀ pid n, t.predBit pid n = s.predBit pid n) ∧ (∀ c id k, t.stateElem c id k = s.stateElem c id k) ∧
    t.em = s.em ∧ t.launch = s.launch ∧ t.program = s.program ∧ t.ctx = s.ctx ∧ t.pc = s.pc + 1 ∧
    ((∃ w, i = .predControl w) ∨ s.ctx.user.onEU = false ∨ t.passed = s.passed) ∧ t.returns = s.returns ∧
    ((∃ o, i = .rawOperand o) ∨ t.payload = s.payload) ∧
    ((∃ o, i = .opndAddress o) ∨ t.lanePtr = s.lanePtr) ∧
    ((∃ o, i = .opndPredicate o) ∨ t.laneBit = s.laneBit) ∧
    t.laneState = s.laneState ∧
    ((∃ o, i = .opndGeneral o) ∨ (∃ o, i = .opndIndirect o) ∨ (∃ o, i = .opndImmediate32 o) ∨
      (∃ o, i = .opndImmediate64 o) ∨ t.laneData = s.laneData)

/-- A general or indirect destination changes only the bytes of the enabled channels' elements, at the locations its
region designates, and a raw destination only bytes `offset` to `offset + L - 1` of its variable; each changes the pc
(R73, R76, R95, R119). A raw destination also passes its channel enable on (41_predication.md R97, log entry 7), and
one more return is counted (log entry 38). -/
def Obligations.ByteDestinationFrame : Prop :=
  ∀ (s t : State), s.ctx.place = .dst →
    (∀ o : GenOpnd, exec (.opndGeneral o) s = .next t →
      OnlyGv s t ∧ BytesKept s t (.general o) (chans s) s.enabled) ∧
    (∀ o : IndOpnd, exec (.opndIndirect o) s = .next t →
      OnlyGv s t ∧ BytesKept s t (.indirect o) (chans s) s.enabled) ∧
    (∀ o : RawOpnd, exec (.rawOperand o) s = .next t →
      OnlyReturned s t ∧
      ∀ v b, (v ≠ o.id ∨ b < o.offset.toNat ∨ o.offset.toNat + s.ctx.rawLen ≤ b) →
        byteOf? t.gv v b = byteOf? s.gv v b)

/-- An address destination changes only address elements `offset + i` of enabled channels `i`, a predicate destination
only predicate bits `n + mask_control_offset` of enabled channels `n`, and each the pc (R107, R109): no byte of a
general variable changes. -/
def Obligations.ElementDestinationFrame : Prop :=
  ∀ (s t : State), s.ctx.place = .dst →
    (∀ o : AddrOpnd, exec (.opndAddress o) s = .next t →
      t = { s with av := t.av, pc := s.pc + 1 } ∧ (∀ v b, byteOf? t.gv v b = byteOf? s.gv v b) ∧
      ∀ id k, (id ≠ o.id ∨ ∀ i, s.enabled i = true → k ≠ o.offset.toNat + i) → t.addrElem id k = s.addrElem id k) ∧
    (∀ o : PredOpnd, exec (.opndPredicate o) s = .next t →
      t = { s with pv := t.pv, pc := s.pc + 1 } ∧ (∀ v b, byteOf? t.gv v b = byteOf? s.gv v b) ∧
      ∀ pid n, (pid ≠ o.val.pid ∨ ∀ i, s.enabled i = true → n ≠ i + predOff s s.ctx.mask) →
        t.predBit pid n = s.predBit pid n)

/-- HCOPY changes only the bytes of the enabled channels' destination elements and the pc (R136). HCOPY is decision
D35 (log entry 26). -/
def Obligations.HcopyFrame : Prop :=
  ∀ (s t : State) (e : ExecSize) (m : MaskControl) (w : PredWord) (dst src : VecOpnd),
    exec (.hcopy e m w dst src) s = .next t →
    OnlyGv s t ∧ BytesKept s t dst e.toNat (fun c => (evalChEn s e.toNat m w).getLsbD c)

/-! ### The machine -/

/-- A step runs the operation at `pc`: when no operation of the program is ill-formed and the one at `pc` decodes to
`i`, the step is `exec i` under the fields the operation's entry supplies and the predication control its 16-bit word
decodes to (R137, R68; 41_predication.md R89). Programs and pc are decision D25 (log entry 28), the supplied fields
D37 (log entry 2). -/
def Obligations.StepRunsDecodedOperation : Prop :=
  ∀ (s : State) (en : Entry) (i : Instr), programRefusal s.launch 0 s.program = none →
    s.program[s.pc]? = some en → decode s.launch.types en.code = .ok i →
    ∃ w, entryPredWord en = .ok w ∧ step s = exec i { s with ctx := { en.supply with pred := w } }

/-- One ill-formed operation anywhere marks the whole program: no step is taken, whatever the pc (R140). A real vISA
instruction is such an operation, and the refusal names it (44_named_instructions.md R124, R135). The line between
refusal and fault is decision D12 (log entry 18). -/
def Obligations.IllFormedProgramRefused : Prop :=
  (∀ (s : State) (k : Nat) (en : Entry) (r : Refusal), s.program[k]? = some en →
    entryRefusal s.launch k en = some r → ∃ r', step s = .refused r') ∧
  ∀ (l : Launch) (k : Nat) (en : Entry) (name : String), en.code = .real name →
    ∃ p, entryRefusal l k en = some (.illFormed (.realInstruction name) p k)

/-- An operation that decodes to an instruction and whose predication word decodes is accepted when no static check
fails under what its entry supplies, and so is a program of such operations; and a step of an accepted program is
never refused while `pc` is inside it: the static checks found everything there is to refuse (R12, R140). The line
between refusal and fault is decision D12 (log entry 18), the stored form the model's (log entry 2). The line between
refusal and fault is decision D12 (log entry 18). -/
def Obligations.AcceptedProgramNeverRefused : Prop :=
  (∀ (l : Launch) (p : List Entry) (k : Nat),
    (∀ en ∈ p, ∃ i w, decode l.types en.code = .ok i ∧ entryPredWord en = .ok w ∧
      staticRefusal l { en.supply with pred := w } i = none) →
    (∀ en ∈ p, ∀ n, entryRefusal l n en = none) ∧ programRefusal l k p = none) ∧
  ∀ (s : State) (r : Refusal), programRefusal s.launch 0 s.program = none → s.pc ≤ s.program.length →
    step s ≠ .refused r

/-- The run ends when `pc` equals the number of operations (R137, R148): the state stands as its result. The end is
decision D36, that a step then answers the same state the model's choice (log entry 12). -/
def Obligations.RunEndsAtProgramLength : Prop :=
  ∀ (s : State), programRefusal s.launch 0 s.program = none → s.pc = s.program.length → step s = .next s

/-- At launch no element of any variable holds a value, and `pc` is 0 (10_state.md R29, R147). That is decision D29
(log entry 1). -/
def Obligations.ResetHoldsNoValues : Prop :=
  State.reset.pc = 0 ∧ (∀ v b, byteOf? State.reset.gv v b = none) ∧ (∀ id k, State.reset.addrElem id k = none) ∧
  (∀ pid n, State.reset.predBit pid n = none) ∧ (∀ c id k, State.reset.stateElem c id k = none)

/-- The launch state meets the invariant. The length of the lanes, a part of it, is the model's own (log entry 8). -/
def Obligations.ResetMeetsInvariant : Prop := State.reset.Inv

/-- Every step from a state that meets the invariant answers one that meets it: storage stays canonical, and no
operation ever gives a value to storage outside a declared variable (R38, R79, R137). One region per variable is
decision D16 (log entry 21); the canonical form and the lanes are the model's own (log entry 8). -/
def Obligations.StepKeepsInvariant : Prop :=
  ∀ s t : State, s.Inv → step s = .next t → t.Inv

/-- No step changes the declarations, the program, EM or a state variable (R30, R42, R24). EM as an input that nothing
changes is decision D29 (log entry 11), the program as configuration D25 (log entry 28). That no operation writes a
state variable is the model's choice (log entries 31 and 32): its writer is not stated (R13, R115, R126). -/
def Obligations.StepKeepsLaunch : Prop :=
  ∀ s t : State, step s = .next t → SameLaunch s t

/-- Each row raises only the causes that the spec lists for it (60_exceptions.md R138). The causes are decision D12
(log entry 18). -/
def Obligations.FaultCausesByRow : Prop :=
  ∀ (i : Instr) (s : State) (f : Fault), exec i s = .fault f → MayRaise i f
end

