-- ==== Sys2Proof/Laws/State.lean ====
section
/-!
SUPPORT. One lemma per field per state update, each true by definition, so that no proof unfolds a record update.
-/

namespace Sys2Proof.Machine

/-! ### advance -/

@[simp] theorem State.advance_launch (s : State) : (s.advance).launch = s.launch := rfl
@[simp] theorem State.advance_program (s : State) : (s.advance).program = s.program := rfl
@[simp] theorem State.advance_pc (s : State) : (s.advance).pc = s.pc + 1 := rfl
@[simp] theorem State.advance_gv (s : State) : (s.advance).gv = s.gv := rfl
@[simp] theorem State.advance_av (s : State) : (s.advance).av = s.av := rfl
@[simp] theorem State.advance_pv (s : State) : (s.advance).pv = s.pv := rfl
@[simp] theorem State.advance_sv (s : State) : (s.advance).sv = s.sv := rfl
@[simp] theorem State.advance_em (s : State) : (s.advance).em = s.em := rfl
@[simp] theorem State.advance_passed (s : State) : (s.advance).passed = s.passed := rfl
@[simp] theorem State.advance_ctx (s : State) : (s.advance).ctx = s.ctx := rfl
@[simp] theorem State.advance_laneData (s : State) : (s.advance).laneData = s.laneData := rfl
@[simp] theorem State.advance_lanePtr (s : State) : (s.advance).lanePtr = s.lanePtr := rfl
@[simp] theorem State.advance_laneBit (s : State) : (s.advance).laneBit = s.laneBit := rfl
@[simp] theorem State.advance_laneState (s : State) : (s.advance).laneState = s.laneState := rfl
@[simp] theorem State.advance_payload (s : State) : (s.advance).payload = s.payload := rfl
@[simp] theorem State.advance_returns (s : State) : (s.advance).returns = s.returns := rfl

/-! ### enter -/

@[simp] theorem State.enter_launch (s : State) (x : Ctx) : (s.enter x).launch = s.launch := rfl
@[simp] theorem State.enter_program (s : State) (x : Ctx) : (s.enter x).program = s.program := rfl
@[simp] theorem State.enter_pc (s : State) (x : Ctx) : (s.enter x).pc = s.pc := rfl
@[simp] theorem State.enter_gv (s : State) (x : Ctx) : (s.enter x).gv = s.gv := rfl
@[simp] theorem State.enter_av (s : State) (x : Ctx) : (s.enter x).av = s.av := rfl
@[simp] theorem State.enter_pv (s : State) (x : Ctx) : (s.enter x).pv = s.pv := rfl
@[simp] theorem State.enter_sv (s : State) (x : Ctx) : (s.enter x).sv = s.sv := rfl
@[simp] theorem State.enter_em (s : State) (x : Ctx) : (s.enter x).em = s.em := rfl
@[simp] theorem State.enter_passed (s : State) (x : Ctx) : (s.enter x).passed = s.passed := rfl
@[simp] theorem State.enter_ctx (s : State) (x : Ctx) : (s.enter x).ctx = x := rfl
@[simp] theorem State.enter_laneData (s : State) (x : Ctx) : (s.enter x).laneData = s.laneData := rfl
@[simp] theorem State.enter_lanePtr (s : State) (x : Ctx) : (s.enter x).lanePtr = s.lanePtr := rfl
@[simp] theorem State.enter_laneBit (s : State) (x : Ctx) : (s.enter x).laneBit = s.laneBit := rfl
@[simp] theorem State.enter_laneState (s : State) (x : Ctx) : (s.enter x).laneState = s.laneState := rfl
@[simp] theorem State.enter_payload (s : State) (x : Ctx) : (s.enter x).payload = s.payload := rfl
@[simp] theorem State.enter_returns (s : State) (x : Ctx) : (s.enter x).returns = s.returns := rfl

/-! ### setGv -/

@[simp] theorem State.setGv_launch (s : State) (x : Memory) : (s.setGv x).launch = s.launch := rfl
@[simp] theorem State.setGv_program (s : State) (x : Memory) : (s.setGv x).program = s.program := rfl
@[simp] theorem State.setGv_pc (s : State) (x : Memory) : (s.setGv x).pc = s.pc := rfl
@[simp] theorem State.setGv_gv (s : State) (x : Memory) : (s.setGv x).gv = x := rfl
@[simp] theorem State.setGv_av (s : State) (x : Memory) : (s.setGv x).av = s.av := rfl
@[simp] theorem State.setGv_pv (s : State) (x : Memory) : (s.setGv x).pv = s.pv := rfl
@[simp] theorem State.setGv_sv (s : State) (x : Memory) : (s.setGv x).sv = s.sv := rfl
@[simp] theorem State.setGv_em (s : State) (x : Memory) : (s.setGv x).em = s.em := rfl
@[simp] theorem State.setGv_passed (s : State) (x : Memory) : (s.setGv x).passed = s.passed := rfl
@[simp] theorem State.setGv_ctx (s : State) (x : Memory) : (s.setGv x).ctx = s.ctx := rfl
@[simp] theorem State.setGv_laneData (s : State) (x : Memory) : (s.setGv x).laneData = s.laneData := rfl
@[simp] theorem State.setGv_lanePtr (s : State) (x : Memory) : (s.setGv x).lanePtr = s.lanePtr := rfl
@[simp] theorem State.setGv_laneBit (s : State) (x : Memory) : (s.setGv x).laneBit = s.laneBit := rfl
@[simp] theorem State.setGv_laneState (s : State) (x : Memory) : (s.setGv x).laneState = s.laneState := rfl
@[simp] theorem State.setGv_payload (s : State) (x : Memory) : (s.setGv x).payload = s.payload := rfl
@[simp] theorem State.setGv_returns (s : State) (x : Memory) : (s.setGv x).returns = s.returns := rfl

/-! ### setAv -/

@[simp] theorem State.setAv_launch (s : State) (x : Store Ptr) : (s.setAv x).launch = s.launch := rfl
@[simp] theorem State.setAv_program (s : State) (x : Store Ptr) : (s.setAv x).program = s.program := rfl
@[simp] theorem State.setAv_pc (s : State) (x : Store Ptr) : (s.setAv x).pc = s.pc := rfl
@[simp] theorem State.setAv_gv (s : State) (x : Store Ptr) : (s.setAv x).gv = s.gv := rfl
@[simp] theorem State.setAv_av (s : State) (x : Store Ptr) : (s.setAv x).av = x := rfl
@[simp] theorem State.setAv_pv (s : State) (x : Store Ptr) : (s.setAv x).pv = s.pv := rfl
@[simp] theorem State.setAv_sv (s : State) (x : Store Ptr) : (s.setAv x).sv = s.sv := rfl
@[simp] theorem State.setAv_em (s : State) (x : Store Ptr) : (s.setAv x).em = s.em := rfl
@[simp] theorem State.setAv_passed (s : State) (x : Store Ptr) : (s.setAv x).passed = s.passed := rfl
@[simp] theorem State.setAv_ctx (s : State) (x : Store Ptr) : (s.setAv x).ctx = s.ctx := rfl
@[simp] theorem State.setAv_laneData (s : State) (x : Store Ptr) : (s.setAv x).laneData = s.laneData := rfl
@[simp] theorem State.setAv_lanePtr (s : State) (x : Store Ptr) : (s.setAv x).lanePtr = s.lanePtr := rfl
@[simp] theorem State.setAv_laneBit (s : State) (x : Store Ptr) : (s.setAv x).laneBit = s.laneBit := rfl
@[simp] theorem State.setAv_laneState (s : State) (x : Store Ptr) : (s.setAv x).laneState = s.laneState := rfl
@[simp] theorem State.setAv_payload (s : State) (x : Store Ptr) : (s.setAv x).payload = s.payload := rfl
@[simp] theorem State.setAv_returns (s : State) (x : Store Ptr) : (s.setAv x).returns = s.returns := rfl

/-! ### setPv -/

@[simp] theorem State.setPv_launch (s : State) (x : Store Bool) : (s.setPv x).launch = s.launch := rfl
@[simp] theorem State.setPv_program (s : State) (x : Store Bool) : (s.setPv x).program = s.program := rfl
@[simp] theorem State.setPv_pc (s : State) (x : Store Bool) : (s.setPv x).pc = s.pc := rfl
@[simp] theorem State.setPv_gv (s : State) (x : Store Bool) : (s.setPv x).gv = s.gv := rfl
@[simp] theorem State.setPv_av (s : State) (x : Store Bool) : (s.setPv x).av = s.av := rfl
@[simp] theorem State.setPv_pv (s : State) (x : Store Bool) : (s.setPv x).pv = x := rfl
@[simp] theorem State.setPv_sv (s : State) (x : Store Bool) : (s.setPv x).sv = s.sv := rfl
@[simp] theorem State.setPv_em (s : State) (x : Store Bool) : (s.setPv x).em = s.em := rfl
@[simp] theorem State.setPv_passed (s : State) (x : Store Bool) : (s.setPv x).passed = s.passed := rfl
@[simp] theorem State.setPv_ctx (s : State) (x : Store Bool) : (s.setPv x).ctx = s.ctx := rfl
@[simp] theorem State.setPv_laneData (s : State) (x : Store Bool) : (s.setPv x).laneData = s.laneData := rfl
@[simp] theorem State.setPv_lanePtr (s : State) (x : Store Bool) : (s.setPv x).lanePtr = s.lanePtr := rfl
@[simp] theorem State.setPv_laneBit (s : State) (x : Store Bool) : (s.setPv x).laneBit = s.laneBit := rfl
@[simp] theorem State.setPv_laneState (s : State) (x : Store Bool) : (s.setPv x).laneState = s.laneState := rfl
@[simp] theorem State.setPv_payload (s : State) (x : Store Bool) : (s.setPv x).payload = s.payload := rfl
@[simp] theorem State.setPv_returns (s : State) (x : Store Bool) : (s.setPv x).returns = s.returns := rfl

/-! ### setPassed -/

@[simp] theorem State.setPassed_launch (s : State) (x : Mask) : (s.setPassed x).launch = s.launch := rfl
@[simp] theorem State.setPassed_program (s : State) (x : Mask) : (s.setPassed x).program = s.program := rfl
@[simp] theorem State.setPassed_pc (s : State) (x : Mask) : (s.setPassed x).pc = s.pc := rfl
@[simp] theorem State.setPassed_gv (s : State) (x : Mask) : (s.setPassed x).gv = s.gv := rfl
@[simp] theorem State.setPassed_av (s : State) (x : Mask) : (s.setPassed x).av = s.av := rfl
@[simp] theorem State.setPassed_pv (s : State) (x : Mask) : (s.setPassed x).pv = s.pv := rfl
@[simp] theorem State.setPassed_sv (s : State) (x : Mask) : (s.setPassed x).sv = s.sv := rfl
@[simp] theorem State.setPassed_em (s : State) (x : Mask) : (s.setPassed x).em = s.em := rfl
@[simp] theorem State.setPassed_passed (s : State) (x : Mask) : (s.setPassed x).passed = x := rfl
@[simp] theorem State.setPassed_ctx (s : State) (x : Mask) : (s.setPassed x).ctx = s.ctx := rfl
@[simp] theorem State.setPassed_laneData (s : State) (x : Mask) : (s.setPassed x).laneData = s.laneData := rfl
@[simp] theorem State.setPassed_lanePtr (s : State) (x : Mask) : (s.setPassed x).lanePtr = s.lanePtr := rfl
@[simp] theorem State.setPassed_laneBit (s : State) (x : Mask) : (s.setPassed x).laneBit = s.laneBit := rfl
@[simp] theorem State.setPassed_laneState (s : State) (x : Mask) : (s.setPassed x).laneState = s.laneState := rfl
@[simp] theorem State.setPassed_payload (s : State) (x : Mask) : (s.setPassed x).payload = s.payload := rfl
@[simp] theorem State.setPassed_returns (s : State) (x : Mask) : (s.setPassed x).returns = s.returns := rfl

/-! ### setLaneData -/

@[simp] theorem State.setLaneData_launch (s : State) (x : List Pattern) : (s.setLaneData x).launch = s.launch := rfl
@[simp] theorem State.setLaneData_program (s : State) (x : List Pattern) : (s.setLaneData x).program = s.program := rfl
@[simp] theorem State.setLaneData_pc (s : State) (x : List Pattern) : (s.setLaneData x).pc = s.pc := rfl
@[simp] theorem State.setLaneData_gv (s : State) (x : List Pattern) : (s.setLaneData x).gv = s.gv := rfl
@[simp] theorem State.setLaneData_av (s : State) (x : List Pattern) : (s.setLaneData x).av = s.av := rfl
@[simp] theorem State.setLaneData_pv (s : State) (x : List Pattern) : (s.setLaneData x).pv = s.pv := rfl
@[simp] theorem State.setLaneData_sv (s : State) (x : List Pattern) : (s.setLaneData x).sv = s.sv := rfl
@[simp] theorem State.setLaneData_em (s : State) (x : List Pattern) : (s.setLaneData x).em = s.em := rfl
@[simp] theorem State.setLaneData_passed (s : State) (x : List Pattern) : (s.setLaneData x).passed = s.passed := rfl
@[simp] theorem State.setLaneData_ctx (s : State) (x : List Pattern) : (s.setLaneData x).ctx = s.ctx := rfl
@[simp] theorem State.setLaneData_laneData (s : State) (x : List Pattern) : (s.setLaneData x).laneData = x := rfl
@[simp] theorem State.setLaneData_lanePtr (s : State) (x : List Pattern) : (s.setLaneData x).lanePtr = s.lanePtr := rfl
@[simp] theorem State.setLaneData_laneBit (s : State) (x : List Pattern) : (s.setLaneData x).laneBit = s.laneBit := rfl
@[simp] theorem State.setLaneData_laneState (s : State) (x : List Pattern) : (s.setLaneData x).laneState = s.laneState := rfl
@[simp] theorem State.setLaneData_payload (s : State) (x : List Pattern) : (s.setLaneData x).payload = s.payload := rfl
@[simp] theorem State.setLaneData_returns (s : State) (x : List Pattern) : (s.setLaneData x).returns = s.returns := rfl

/-! ### setLanePtr -/

@[simp] theorem State.setLanePtr_launch (s : State) (x : List Ptr) : (s.setLanePtr x).launch = s.launch := rfl
@[simp] theorem State.setLanePtr_program (s : State) (x : List Ptr) : (s.setLanePtr x).program = s.program := rfl
@[simp] theorem State.setLanePtr_pc (s : State) (x : List Ptr) : (s.setLanePtr x).pc = s.pc := rfl
@[simp] theorem State.setLanePtr_gv (s : State) (x : List Ptr) : (s.setLanePtr x).gv = s.gv := rfl
@[simp] theorem State.setLanePtr_av (s : State) (x : List Ptr) : (s.setLanePtr x).av = s.av := rfl
@[simp] theorem State.setLanePtr_pv (s : State) (x : List Ptr) : (s.setLanePtr x).pv = s.pv := rfl
@[simp] theorem State.setLanePtr_sv (s : State) (x : List Ptr) : (s.setLanePtr x).sv = s.sv := rfl
@[simp] theorem State.setLanePtr_em (s : State) (x : List Ptr) : (s.setLanePtr x).em = s.em := rfl
@[simp] theorem State.setLanePtr_passed (s : State) (x : List Ptr) : (s.setLanePtr x).passed = s.passed := rfl
@[simp] theorem State.setLanePtr_ctx (s : State) (x : List Ptr) : (s.setLanePtr x).ctx = s.ctx := rfl
@[simp] theorem State.setLanePtr_laneData (s : State) (x : List Ptr) : (s.setLanePtr x).laneData = s.laneData := rfl
@[simp] theorem State.setLanePtr_lanePtr (s : State) (x : List Ptr) : (s.setLanePtr x).lanePtr = x := rfl
@[simp] theorem State.setLanePtr_laneBit (s : State) (x : List Ptr) : (s.setLanePtr x).laneBit = s.laneBit := rfl
@[simp] theorem State.setLanePtr_laneState (s : State) (x : List Ptr) : (s.setLanePtr x).laneState = s.laneState := rfl
@[simp] theorem State.setLanePtr_payload (s : State) (x : List Ptr) : (s.setLanePtr x).payload = s.payload := rfl
@[simp] theorem State.setLanePtr_returns (s : State) (x : List Ptr) : (s.setLanePtr x).returns = s.returns := rfl

/-! ### setLaneBit -/

@[simp] theorem State.setLaneBit_launch (s : State) (x : Mask) : (s.setLaneBit x).launch = s.launch := rfl
@[simp] theorem State.setLaneBit_program (s : State) (x : Mask) : (s.setLaneBit x).program = s.program := rfl
@[simp] theorem State.setLaneBit_pc (s : State) (x : Mask) : (s.setLaneBit x).pc = s.pc := rfl
@[simp] theorem State.setLaneBit_gv (s : State) (x : Mask) : (s.setLaneBit x).gv = s.gv := rfl
@[simp] theorem State.setLaneBit_av (s : State) (x : Mask) : (s.setLaneBit x).av = s.av := rfl
@[simp] theorem State.setLaneBit_pv (s : State) (x : Mask) : (s.setLaneBit x).pv = s.pv := rfl
@[simp] theorem State.setLaneBit_sv (s : State) (x : Mask) : (s.setLaneBit x).sv = s.sv := rfl
@[simp] theorem State.setLaneBit_em (s : State) (x : Mask) : (s.setLaneBit x).em = s.em := rfl
@[simp] theorem State.setLaneBit_passed (s : State) (x : Mask) : (s.setLaneBit x).passed = s.passed := rfl
@[simp] theorem State.setLaneBit_ctx (s : State) (x : Mask) : (s.setLaneBit x).ctx = s.ctx := rfl
@[simp] theorem State.setLaneBit_laneData (s : State) (x : Mask) : (s.setLaneBit x).laneData = s.laneData := rfl
@[simp] theorem State.setLaneBit_lanePtr (s : State) (x : Mask) : (s.setLaneBit x).lanePtr = s.lanePtr := rfl
@[simp] theorem State.setLaneBit_laneBit (s : State) (x : Mask) : (s.setLaneBit x).laneBit = x := rfl
@[simp] theorem State.setLaneBit_laneState (s : State) (x : Mask) : (s.setLaneBit x).laneState = s.laneState := rfl
@[simp] theorem State.setLaneBit_payload (s : State) (x : Mask) : (s.setLaneBit x).payload = s.payload := rfl
@[simp] theorem State.setLaneBit_returns (s : State) (x : Mask) : (s.setLaneBit x).returns = s.returns := rfl

/-! ### setLaneState -/

@[simp] theorem State.setLaneState_launch (s : State) (x : List StateVal) : (s.setLaneState x).launch = s.launch := rfl
@[simp] theorem State.setLaneState_program (s : State) (x : List StateVal) : (s.setLaneState x).program = s.program := rfl
@[simp] theorem State.setLaneState_pc (s : State) (x : List StateVal) : (s.setLaneState x).pc = s.pc := rfl
@[simp] theorem State.setLaneState_gv (s : State) (x : List StateVal) : (s.setLaneState x).gv = s.gv := rfl
@[simp] theorem State.setLaneState_av (s : State) (x : List StateVal) : (s.setLaneState x).av = s.av := rfl
@[simp] theorem State.setLaneState_pv (s : State) (x : List StateVal) : (s.setLaneState x).pv = s.pv := rfl
@[simp] theorem State.setLaneState_sv (s : State) (x : List StateVal) : (s.setLaneState x).sv = s.sv := rfl
@[simp] theorem State.setLaneState_em (s : State) (x : List StateVal) : (s.setLaneState x).em = s.em := rfl
@[simp] theorem State.setLaneState_passed (s : State) (x : List StateVal) : (s.setLaneState x).passed = s.passed := rfl
@[simp] theorem State.setLaneState_ctx (s : State) (x : List StateVal) : (s.setLaneState x).ctx = s.ctx := rfl
@[simp] theorem State.setLaneState_laneData (s : State) (x : List StateVal) : (s.setLaneState x).laneData = s.laneData := rfl
@[simp] theorem State.setLaneState_lanePtr (s : State) (x : List StateVal) : (s.setLaneState x).lanePtr = s.lanePtr := rfl
@[simp] theorem State.setLaneState_laneBit (s : State) (x : List StateVal) : (s.setLaneState x).laneBit = s.laneBit := rfl
@[simp] theorem State.setLaneState_laneState (s : State) (x : List StateVal) : (s.setLaneState x).laneState = x := rfl
@[simp] theorem State.setLaneState_payload (s : State) (x : List StateVal) : (s.setLaneState x).payload = s.payload := rfl
@[simp] theorem State.setLaneState_returns (s : State) (x : List StateVal) : (s.setLaneState x).returns = s.returns := rfl

/-! ### setPayload -/

@[simp] theorem State.setPayload_launch (s : State) (x : List Byte) : (s.setPayload x).launch = s.launch := rfl
@[simp] theorem State.setPayload_program (s : State) (x : List Byte) : (s.setPayload x).program = s.program := rfl
@[simp] theorem State.setPayload_pc (s : State) (x : List Byte) : (s.setPayload x).pc = s.pc := rfl
@[simp] theorem State.setPayload_gv (s : State) (x : List Byte) : (s.setPayload x).gv = s.gv := rfl
@[simp] theorem State.setPayload_av (s : State) (x : List Byte) : (s.setPayload x).av = s.av := rfl
@[simp] theorem State.setPayload_pv (s : State) (x : List Byte) : (s.setPayload x).pv = s.pv := rfl
@[simp] theorem State.setPayload_sv (s : State) (x : List Byte) : (s.setPayload x).sv = s.sv := rfl
@[simp] theorem State.setPayload_em (s : State) (x : List Byte) : (s.setPayload x).em = s.em := rfl
@[simp] theorem State.setPayload_passed (s : State) (x : List Byte) : (s.setPayload x).passed = s.passed := rfl
@[simp] theorem State.setPayload_ctx (s : State) (x : List Byte) : (s.setPayload x).ctx = s.ctx := rfl
@[simp] theorem State.setPayload_laneData (s : State) (x : List Byte) : (s.setPayload x).laneData = s.laneData := rfl
@[simp] theorem State.setPayload_lanePtr (s : State) (x : List Byte) : (s.setPayload x).lanePtr = s.lanePtr := rfl
@[simp] theorem State.setPayload_laneBit (s : State) (x : List Byte) : (s.setPayload x).laneBit = s.laneBit := rfl
@[simp] theorem State.setPayload_laneState (s : State) (x : List Byte) : (s.setPayload x).laneState = s.laneState := rfl
@[simp] theorem State.setPayload_payload (s : State) (x : List Byte) : (s.setPayload x).payload = x := rfl
@[simp] theorem State.setPayload_returns (s : State) (x : List Byte) : (s.setPayload x).returns = s.returns := rfl

/-! ### setReturns -/

@[simp] theorem State.setReturns_launch (s : State) (x : Nat) : (s.setReturns x).launch = s.launch := rfl
@[simp] theorem State.setReturns_program (s : State) (x : Nat) : (s.setReturns x).program = s.program := rfl
@[simp] theorem State.setReturns_pc (s : State) (x : Nat) : (s.setReturns x).pc = s.pc := rfl
@[simp] theorem State.setReturns_gv (s : State) (x : Nat) : (s.setReturns x).gv = s.gv := rfl
@[simp] theorem State.setReturns_av (s : State) (x : Nat) : (s.setReturns x).av = s.av := rfl
@[simp] theorem State.setReturns_pv (s : State) (x : Nat) : (s.setReturns x).pv = s.pv := rfl
@[simp] theorem State.setReturns_sv (s : State) (x : Nat) : (s.setReturns x).sv = s.sv := rfl
@[simp] theorem State.setReturns_em (s : State) (x : Nat) : (s.setReturns x).em = s.em := rfl
@[simp] theorem State.setReturns_passed (s : State) (x : Nat) : (s.setReturns x).passed = s.passed := rfl
@[simp] theorem State.setReturns_ctx (s : State) (x : Nat) : (s.setReturns x).ctx = s.ctx := rfl
@[simp] theorem State.setReturns_laneData (s : State) (x : Nat) : (s.setReturns x).laneData = s.laneData := rfl
@[simp] theorem State.setReturns_lanePtr (s : State) (x : Nat) : (s.setReturns x).lanePtr = s.lanePtr := rfl
@[simp] theorem State.setReturns_laneBit (s : State) (x : Nat) : (s.setReturns x).laneBit = s.laneBit := rfl
@[simp] theorem State.setReturns_laneState (s : State) (x : Nat) : (s.setReturns x).laneState = s.laneState := rfl
@[simp] theorem State.setReturns_payload (s : State) (x : Nat) : (s.setReturns x).payload = s.payload := rfl
@[simp] theorem State.setReturns_returns (s : State) (x : Nat) : (s.setReturns x).returns = x := rfl

end Sys2Proof.Machine
end

