-- ==== Sys2Proof/Laws/Store.lean ====
section
/-!
SUPPORT. Sparse storage and the bytes of general variables: what a read after a write gives, what a write leaves
alone, and that every write keeps the canonical form.
-/

namespace Sys2Proof.Machine

/-! ### One cell -/

@[simp] theorem Store.get?_nil {α : Type} (k : Nat) : Store.get? ([] : Store α) k = none := rfl

theorem Store.get?_set_self {α : Type} (m : Store α) (k : Nat) (a : α) : Store.get? (Store.set m k a) k = some a := by
  induction m with
  | nil => simp [Store.set, Store.get?]
  | cons p rest ih =>
    obtain ⟨k', x⟩ := p
    simp only [Store.set]
    split
    · simp [Store.get?]
    · split
      · simp [Store.get?]
      · next h1 h2 => simp [Store.get?, Ne.symm h2, ih]

theorem Store.get?_set_ne {α : Type} (m : Store α) {k k' : Nat} (a : α) (h : k' ≠ k) :
    Store.get? (Store.set m k a) k' = Store.get? m k' := by
  induction m with
  | nil => simp [Store.set, Store.get?, Ne.symm h]
  | cons p rest ih =>
    obtain ⟨j, x⟩ := p
    simp only [Store.set]
    split
    · simp [Store.get?, Ne.symm h]
    · split
      · next h2 => subst h2; simp [Store.get?, Ne.symm h]
      · simp [Store.get?, ih]

theorem Store.get?_set {α : Type} (m : Store α) (k k' : Nat) (a : α) :
    Store.get? (Store.set m k a) k' = if k' = k then some a else Store.get? m k' := by
  split
  · next h => subst h; exact Store.get?_set_self m _ a
  · next h => exact Store.get?_set_ne m a h

theorem Store.mem_keys_set {α : Type} (m : Store α) (k : Nat) (a : α) (x : Nat)
    (h : x ∈ (Store.set m k a).map Prod.fst) : x = k ∨ x ∈ m.map Prod.fst := by
  induction m with
  | nil => simp [Store.set] at h; exact .inl h
  | cons p rest ih =>
    obtain ⟨j, y⟩ := p
    simp only [Store.set] at h
    split at h
    · simpa using h
    · split at h
      · simp at h ⊢; tauto
      · rw [List.map_cons, List.mem_cons] at h
        rcases h with h | h
        · exact .inr (by simp [h])
        · rcases ih h with h | h
          · exact .inl h
          · exact .inr (by simp at h ⊢; tauto)

/-- A write keeps the canonical form. -/
theorem Store.set_wf {α : Type} (m : Store α) (k : Nat) (a : α) (h : Store.wf m) : Store.wf (Store.set m k a) := by
  induction m with
  | nil => simp [Store.wf, Store.set]
  | cons p rest ih =>
    obtain ⟨j, x⟩ := p
    simp only [Store.wf, List.map_cons, List.pairwise_cons] at h
    simp only [Store.set]
    split
    · next hk =>
      simp only [Store.wf, List.map_cons, List.pairwise_cons]
      refine ⟨?_, h.1, h.2⟩
      intro y hy
      rcases List.mem_cons.1 hy with rfl | hy
      · exact hk
      · exact Nat.lt_trans hk (h.1 y hy)
    · split
      · next hj =>
        subst hj
        simp only [Store.wf, List.map_cons, List.pairwise_cons]
        exact h
      · next h1 h2 =>
        simp only [Store.wf, List.map_cons, List.pairwise_cons]
        refine ⟨?_, ih h.2⟩
        intro y hy
        rcases Store.mem_keys_set rest k a y hy with rfl | hy
        · omega
        · exact h.1 y hy

/-! ### Keys -/

theorem gvKey_inj {v v' : Word} {b b' : Nat} : gvKey v b = gvKey v' b' ↔ v = v' ∧ b = b' := by
  constructor
  · intro h
    simp only [gvKey] at h
    have hv := v.isLt
    have hv' := v'.isLt
    exact ⟨BitVec.eq_of_toNat_eq (by omega), by omega⟩
  · rintro ⟨rfl, rfl⟩; rfl

theorem avKey_inj {v v' : Half} {b b' : Nat} : avKey v b = avKey v' b' ↔ v = v' ∧ b = b' := by
  constructor
  · intro h
    simp only [avKey] at h
    have hv := v.isLt
    have hv' := v'.isLt
    exact ⟨BitVec.eq_of_toNat_eq (by omega), by omega⟩
  · rintro ⟨rfl, rfl⟩; rfl

theorem pvKey_inj {v v' : BitVec 12} {b b' : Nat} : pvKey v b = pvKey v' b' ↔ v = v' ∧ b = b' := by
  constructor
  · intro h
    simp only [pvKey] at h
    have hv := v.isLt
    have hv' := v'.isLt
    exact ⟨BitVec.eq_of_toNat_eq (by omega), by omega⟩
  · rintro ⟨rfl, rfl⟩; rfl

theorem svKey_inj {c c' : StateClass} {v v' : Half} {b b' : Nat} :
    svKey c v b = svKey c' v' b' ↔ c = c' ∧ v = v' ∧ b = b' := by
  constructor
  · intro h
    have hv := v.isLt
    have hv' := v'.isLt
    cases c <;> cases c' <;> simp only [svKey] at h
    · exact ⟨rfl, BitVec.eq_of_toNat_eq (by omega), by omega⟩
    · omega
    · omega
    · exact ⟨rfl, BitVec.eq_of_toNat_eq (by omega), by omega⟩
  · rintro ⟨rfl, rfl, rfl⟩; rfl

/-! ### Bytes and elements of a general variable -/

/-- What a read of one byte gives after a write of one byte. -/
theorem byteOf?_set (m : Memory) (v v' : Word) (b b' : Nat) (x : Byte) :
    byteOf? (Store.set m (gvKey v b) x) v' b' = if v' = v ∧ b' = b then some x else byteOf? m v' b' := by
  simp only [byteOf?, Store.get?_set, gvKey_inj]

/-- What a read of one byte gives after an element of `n` bytes is written. -/
theorem byteOf?_writeNat (m : Memory) (v v' : Word) (b n x b' : Nat) :
    byteOf? (writeNat m v b n x) v' b' =
      if v' = v ∧ b ≤ b' ∧ b' < b + n then some (BitVec.ofNat 8 (x / 256 ^ (b' - b))) else byteOf? m v' b' := by
  induction n generalizing m b x with
  | zero => simp [writeNat]
  | succ n ih =>
    rw [writeNat, ih, byteOf?_set]
    by_cases hv : v' = v
    · by_cases h1 : b + 1 ≤ b' ∧ b' < b + 1 + n
      · have h2 : b ≤ b' ∧ b' < b + (n + 1) := by omega
        have h3 : b' - b = (b' - (b + 1)) + 1 := by omega
        simp only [hv, h1, h2, and_self, if_true]
        rw [h3, Nat.pow_succ, Nat.mul_comm, Nat.div_div_eq_div_mul]
      · by_cases h4 : b' = b
        · subst h4; simp [hv]
        · have h2 : ¬ (b ≤ b' ∧ b' < b + (n + 1)) := by omega
          simp only [hv, true_and, h1, h2, h4, if_false]
    · simp [hv]

/-- A write of an element leaves every byte outside it alone (20_memory.md R33). -/
theorem byteOf?_elemWrite_ne (m : Memory) (v v' : Word) (size b b' : Nat) (x : Pattern)
    (h : v' ≠ v ∨ b' < b ∨ b + size ≤ b') : byteOf? (elemWrite m v size b x) v' b' = byteOf? m v' b' := by
  rw [elemWrite, byteOf?_writeNat, if_neg]
  rintro ⟨rfl, h1, h2⟩
  rcases h with h | h | h
  · exact h rfl
  · omega
  · omega

/-- Reading `n` bytes gives a number below `256 ^ n`. -/
theorem readNat_lt (m : Memory) (v : Word) (b n x : Nat) (h : readNat m v b n = some x) : x < 256 ^ n := by
  induction n generalizing b x with
  | zero => simp [readNat] at h; omega
  | succ n ih =>
    rw [readNat] at h
    split at h
    · next lo hi h1 h2 =>
      have := ih _ _ h2
      have := lo.isLt
      simp only [Option.some.injEq] at h
      rw [Nat.pow_succ]; omega
    · simp at h

/-- Reading depends on the bytes read alone. -/
theorem readNat_congr (m m' : Memory) (v : Word) (b n : Nat)
    (h : ∀ i, i < n → byteOf? m' v (b + i) = byteOf? m v (b + i)) : readNat m' v b n = readNat m v b n := by
  induction n generalizing b with
  | zero => rfl
  | succ n ih =>
    have h0 := h 0 (by omega)
    rw [Nat.add_zero] at h0
    rw [readNat, readNat, h0, ih (b + 1) fun i hi => by
      rw [show b + 1 + i = b + (i + 1) by omega]; exact h (i + 1) (by omega)]

/-- Reading bytes known one by one. -/
theorem readNat_of_bytes (m : Memory) (v : Word) (b n x : Nat)
    (h : ∀ i, i < n → byteOf? m v (b + i) = some (BitVec.ofNat 8 (x / 256 ^ i))) :
    readNat m v b n = some (x % 256 ^ n) := by
  induction n generalizing b x with
  | zero => simp [readNat, Nat.mod_one]
  | succ n ih =>
    have h0 := h 0 (by omega)
    simp only [Nat.add_zero, Nat.pow_zero, Nat.div_one] at h0
    have h1 := ih (b + 1) (x / 256) fun i hi => by
      rw [show b + 1 + i = b + (i + 1) by omega, h (i + 1) (by omega), Nat.pow_succ, Nat.mul_comm,
        Nat.div_div_eq_div_mul]
    rw [readNat, h0, h1]
    have h2 : x % 256 ^ (n + 1) = x % 256 + 256 * (x / 256 % 256 ^ n) := by
      rw [Nat.pow_succ, Nat.mul_comm (256 ^ n) 256, Nat.mod_mul]
    simp only [BitVec.toNat_ofNat, h2]

/-- `ElemRead` after `ElemWrite` at the same place gives the value's low bytes (20_memory.md R34). -/
theorem elemRead_elemWrite_self (m : Memory) (v : Word) (size b : Nat) (x : Pattern) :
    elemRead (elemWrite m v size b x) v size b = some (BitVec.ofNat 64 (x.toNat % 256 ^ size)) := by
  rw [elemRead, readNat_of_bytes (x := x.toNat)]
  · rfl
  · intro i hi
    rw [elemWrite, byteOf?_writeNat, if_pos ⟨rfl, by omega, by omega⟩]
    simp

/-- `ElemRead` of bytes that `ElemWrite` does not touch gives what it gave before. -/
theorem elemRead_elemWrite_ne (m : Memory) (v v' : Word) (size size' b b' : Nat) (x : Pattern)
    (h : v' ≠ v ∨ b' + size' ≤ b ∨ b + size ≤ b') :
    elemRead (elemWrite m v size b x) v' size' b' = elemRead m v' size' b' := by
  rw [elemRead, elemRead, readNat_congr]
  intro i hi
  refine byteOf?_elemWrite_ne m v v' size b (b' + i) x ?_
  rcases h with h | h | h
  · exact .inl h
  · exact .inr (.inl (by omega))
  · exact .inr (.inr (by omega))

theorem writeNat_wf (m : Memory) (v : Word) (b n x : Nat) (h : Memory.wf m) : Memory.wf (writeNat m v b n x) := by
  induction n generalizing m b x with
  | zero => exact h
  | succ n ih => exact ih _ _ _ (Store.set_wf m _ _ h)

/-- Writing an element keeps the canonical form. -/
theorem elemWrite_wf (m : Memory) (v : Word) (size b : Nat) (x : Pattern) (h : Memory.wf m) :
    Memory.wf (elemWrite m v size b x) := writeNat_wf m v b size x.toNat h

/-- Writing a run of bytes keeps the canonical form. -/
theorem writeBytes_wf (m : Memory) (v : Word) (b : Nat) (xs : List (Option Byte)) (h : Memory.wf m) :
    Memory.wf (writeBytes m v b xs) := by
  induction xs generalizing m b with
  | nil => exact h
  | cons x xs ih =>
    cases x with
    | none => exact ih _ _ h
    | some x => exact ih _ _ (Store.set_wf m _ _ h)

/-- The memory of the launch state is in canonical form. -/
theorem reset_gv_wf : Memory.wf State.reset.gv := List.Pairwise.nil

/-- What a read of one byte gives after a run of bytes is written: the byte given for it, or what it held. -/
theorem byteOf?_writeBytes (m : Memory) (v v' : Word) (b b' : Nat) (xs : List (Option Byte)) :
    byteOf? (writeBytes m v b xs) v' b' =
      if v' = v ∧ b ≤ b' then (xs[b' - b]?.join).or (byteOf? m v' b') else byteOf? m v' b' := by
  induction xs generalizing m b with
  | nil => simp [writeBytes]
  | cons x xs ih =>
    by_cases hv : v' = v
    · subst hv
      rcases Nat.lt_trichotomy b' b with h | h | h
      · have h1 : ¬ b + 1 ≤ b' := by omega
        have h2 : ¬ b ≤ b' := by omega
        have h3 : b' ≠ b := by omega
        cases x <;> simp [writeBytes, ih, byteOf?_set, h1, h2, h3]
      · subst h
        cases x <;> simp [writeBytes, ih, byteOf?_set]
      · have h1 : b + 1 ≤ b' := h
        have h2 : b ≤ b' := by omega
        have h3 : b' ≠ b := by omega
        have h4 : b' - b = (b' - (b + 1)) + 1 := by omega
        cases x <;> simp [writeBytes, ih, byteOf?_set, h1, h2, h3, h4]
    · cases x <;> simp [writeBytes, ih, byteOf?_set, hv]

/-! ### Channels -/

/-- A property that one enabled channel's write keeps, all channels' writes keep. -/
theorem forChannels_induct {σ : Type} (P : σ → Prop) (e : Nat) (en : Nat → Bool) (write : σ → Nat → σ) (x : σ)
    (h0 : P x) (h : ∀ y c, c < e → en c = true → P y → P (write y c)) : P (forChannels e en write x) := by
  have key : ∀ (l : List Nat) (y : σ), (∀ c ∈ l, c < e) → P y →
      P (l.foldl (fun y c => if en c then write y c else y) y) := by
    intro l
    induction l with
    | nil => intro y _ hy; exact hy
    | cons c l ih =>
      intro y hl hy
      rw [List.foldl_cons]
      refine ih _ (fun c' hc' => hl c' (List.mem_cons_of_mem _ hc')) ?_
      split
      · next hc => exact h y c (hl c (List.mem_cons_self ..)) hc hy
      · exact hy
  exact key _ x (fun c hc => List.mem_range.1 hc) h0

/-- The channels' writes in order: the last channel comes last. -/
theorem forChannels_succ {σ : Type} (e : Nat) (en : Nat → Bool) (write : σ → Nat → σ) (x : σ) :
    forChannels (e + 1) en write x =
      if en e then write (forChannels e en write x) e else forChannels e en write x := by
  simp [forChannels, List.range_succ, List.foldl_append]

@[simp] theorem forChannels_zero {σ : Type} (en : Nat → Bool) (write : σ → Nat → σ) (x : σ) :
    forChannels 0 en write x = x := rfl

/-- `firstFault` finds nothing exactly when no channel's check fails. -/
theorem firstFault_eq_none (e : Nat) (check : Nat → Option Fault) :
    firstFault e check = none ↔ ∀ c, c < e → check c = none := by
  simp [firstFault, List.findSome?_eq_none_iff]

theorem firstFault_succ (e : Nat) (check : Nat → Option Fault) :
    firstFault (e + 1) check = (firstFault e check).or (check e) := by
  rw [firstFault, List.range_succ, List.findSome?_append, firstFault]
  cases h : check e <;> simp [h]

/-- What `firstFault` finds, some channel raised, and no earlier one raised anything (60_exceptions.md R142). -/
theorem firstFault_eq_some (e : Nat) (check : Nat → Option Fault) (f : Fault) :
    firstFault e check = some f ↔ ∃ c, c < e ∧ check c = some f ∧ ∀ c', c' < c → check c' = none := by
  induction e with
  | zero => simp [firstFault]
  | succ e ih =>
    rw [firstFault_succ, Option.or_eq_some_iff, ih, firstFault_eq_none]
    constructor
    · rintro (⟨c, hc, h⟩ | ⟨hn, h⟩)
      · exact ⟨c, by omega, h⟩
      · exact ⟨e, by omega, h, hn⟩
    · rintro ⟨c, hc, h, hn⟩
      rcases Nat.lt_succ_iff_lt_or_eq.1 hc with hc | rfl
      · exact .inl ⟨c, hc, h, hn⟩
      · exact .inr ⟨hn, h⟩

/-- Bit `n` of the mask built from `f`. -/
theorem getLsbD_maskOf (f : Nat → Bool) (n : Nat) : (maskOf f).getLsbD n = (decide (n < 32) && f n) := by
  have key : ∀ k, k ≤ 32 → ((List.range k).foldl
      (fun acc n => if f n then acc ||| BitVec.twoPow 32 n else acc) 0#32).getLsbD n = (decide (n < k) && f n) := by
    intro k
    induction k with
    | zero => intro _; simp
    | succ k ih =>
      intro hk
      rw [List.range_succ, List.foldl_append, List.foldl_cons, List.foldl_nil]
      have ih := ih (by omega)
      by_cases hf : f k = true
      · rw [if_pos hf, BitVec.getLsbD_or, ih, BitVec.getLsbD_twoPow]
        rcases Nat.lt_trichotomy n k with h | h | h
        · have h1 : ¬ k = n := by omega
          have h2 : n < k + 1 := by omega
          simp [h, h1, h2]
        · subst h; simp [hf]; omega
        · have h1 : ¬ n < k := by omega
          have h2 : ¬ n < k + 1 := by omega
          have h3 : ¬ k = n := by omega
          simp [h1, h2, h3]
      · rw [if_neg hf, ih]
        rcases Nat.lt_trichotomy n k with h | h | h
        · have h2 : n < k + 1 := by omega
          simp [h, h2]
        · subst h; simp [hf]
        · have h1 : ¬ n < k := by omega
          have h2 : ¬ n < k + 1 := by omega
          simp [h1, h2]
  exact key 32 (Nat.le_refl _)

@[simp] theorem length_laneFill {α : Type} (old : List α) (d : α) (en : Nat → Bool) (f : Nat → α) :
    (laneFill old d en f).length = 32 := by simp [laneFill]

/-- What a lane holds after `laneFill`. -/
theorem getD_laneFill {α : Type} (old : List α) (d : α) (en : Nat → Bool) (f : Nat → α) (c : Nat) (hc : c < 32) :
    (laneFill old d en f).getD c d = if en c then f c else old.getD c d := by
  simp [laneFill, List.getD_eq_getElem?_getD, List.getElem?_map, List.getElem?_range hc]

end Sys2Proof.Machine
end

