-- ==== Sys2Proof/Laws/Eval.lean ====
section
/-!
SUPPORT. What each shared operation can do, said once: the conditions under which it answers a next state, and that
state. Proofs cite these and never unfold the operations.
-/

namespace Sys2Proof.Machine

/-! ### The ways a check ends an operation -/

@[simp] theorem refuseIf_none (s : State) (k : Result) : refuseIf none s k = k := rfl

@[simp] theorem refuseIf_some (p : Pos) (r : Reason) (s : State) (k : Result) :
    refuseIf (some (p, r)) s k = .refused (.illFormed r p s.pc) := rfl

@[simp] theorem faultIf_none (k : Result) : faultIf none k = k := rfl

@[simp] theorem faultIf_some (f : Fault) (k : Result) : faultIf (some f) k = .fault f := rfl

theorem refuseIf_eq_next (r : Option (Pos × Reason)) (s t : State) (k : Result) :
    refuseIf r s k = .next t ↔ r = none ∧ k = .next t := by
  cases r <;> simp [refuseIf]

theorem faultIf_eq_next (f : Option Fault) (t : State) (k : Result) :
    faultIf f k = .next t ↔ f = none ∧ k = .next t := by
  cases f <;> simp [faultIf]

theorem refuseIf_eq_fault (r : Option (Pos × Reason)) (s : State) (f : Fault) (k : Result) :
    refuseIf r s k = .fault f ↔ r = none ∧ k = .fault f := by
  cases r <;> simp [refuseIf]

theorem faultIf_eq_fault (g : Option Fault) (f : Fault) (k : Result) :
    faultIf g k = .fault f ↔ g = some f ∨ g = none ∧ k = .fault f := by
  cases g <;> simp [faultIf]

/-! ### When each evaluation answers a next state -/

/-- The state after a data source has delivered its values. -/
def afterDataSource (o : VecOpnd) (s : State) : State :=
  ((s.setPassed s.passedOn).setLaneData (laneFill s.laneData 0#64
    (s.delivers fun c => (dataValue s s.ctx.place o c).isSome) (sourceValue s s.ctx.place o))).advance

/-- The state after a data destination has stored the lanes. -/
def afterDataDest (o : VecOpnd) (s : State) : State :=
  (s.setGv (storeData s o s.ctx.exec.toNat s.enabled fun c =>
    modify s.launch.sizes o.mods true (dataTy s.launch o) (s.laneData.getD c 0#64))).advance

theorem evalData_eq_next (o : VecOpnd) (s t : State) :
    evalData o s = .next t ↔
      vecRefusal s.launch s.ctx o = none ∧ s.ctxFault = none ∧
      (∀ c, c < s.ctx.exec.toNat → dataFault s s.ctx.place o c = none) ∧
      (s.ctx.place = .dst ∧ t = afterDataDest o s ∨
       s.ctx.place ≠ .dst ∧
        (∀ c, c < s.ctx.exec.toNat → dataValueFault s s.ctx.place o s.enabled c = none) ∧
        t = afterDataSource o s) := by
  rw [evalData, refuseIf_eq_next, faultIf_eq_next, faultIf_eq_next, firstFault_eq_none]
  by_cases h : s.ctx.place = .dst
  · simp only [h, if_true, true_and, ne_eq, not_true, false_and, or_false]
    simp only [afterDataDest, Host.Outcome.next.injEq, eq_comm]
  · simp only [h, if_false, false_and, false_or, ne_eq, not_false_iff, true_and]
    rw [faultIf_eq_next, firstFault_eq_none]
    simp only [afterDataSource, Host.Outcome.next.injEq, eq_comm]

/-- The state after an address source has delivered its values. -/
def afterAddrSource (o : AddrOpnd) (s : State) : State :=
  (s.setLanePtr (laneFill s.lanePtr ⟨0#32, 0⟩ s.enabled fun c =>
    (s.addrElem o.id (addrIndex s.ctx.place o c)).getD ⟨0#32, 0⟩)).advance

/-- The state after an address destination has been written. -/
def afterAddrDest (o : AddrOpnd) (s : State) : State :=
  (s.setAv (forChannels s.ctx.exec.toNat s.enabled
    (fun m c => Store.set m (avKey o.id (addrIndex .dst o c)) (s.lanePtr.getD c ⟨0#32, 0⟩)) s.av)).advance

theorem evalAddr_eq_next (o : AddrOpnd) (s t : State) :
    evalAddr o s = .next t ↔
      vecRefusal s.launch s.ctx (.address o) = none ∧ s.ctxFault = none ∧
      addrFault s s.ctx.place o s.ctx.exec.toNat = none ∧
      (s.ctx.place = .dst ∧ t = afterAddrDest o s ∨
       s.ctx.place ≠ .dst ∧
        (∀ c, c < s.ctx.exec.toNat → addrValueFault s s.ctx.place o c = none) ∧
        t = afterAddrSource o s) := by
  rw [evalAddr, refuseIf_eq_next, faultIf_eq_next, faultIf_eq_next]
  by_cases h : s.ctx.place = .dst
  · simp only [h, if_true, true_and, ne_eq, not_true, false_and, or_false]
    simp only [afterAddrDest, Host.Outcome.next.injEq, eq_comm]
  · simp only [h, if_false, false_and, false_or, ne_eq, not_false_iff, true_and]
    rw [faultIf_eq_next, firstFault_eq_none]
    simp only [afterAddrSource, Host.Outcome.next.injEq, eq_comm]

/-- The state after a predicate source has delivered its bits. -/
def afterPredSource (o : PredOpnd) (s : State) : State :=
  (s.setLaneBit (maskOf fun c =>
    if s.enabled c then predRead s s.ctx.mask o.val.pid c else s.laneBit.getLsbD c)).advance

/-- The state after a predicate destination has been written. -/
def afterPredDest (o : PredOpnd) (s : State) : State :=
  (s.setPv (forChannels s.ctx.exec.toNat s.enabled
    (fun m c => Store.set m (pvKey o.val.pid (predOff s s.ctx.mask + c)) (s.laneBit.getLsbD c)) s.pv)).advance

theorem evalPred_eq_next (o : PredOpnd) (s t : State) :
    evalPred o s = .next t ↔
      vecRefusal s.launch s.ctx (.predicate o) = none ∧ s.ctxFault = none ∧
      (∀ c, c < s.ctx.exec.toNat →
        predBoundFault s (placePos s.ctx.place) o.val.pid (predOff s s.ctx.mask) c = none) ∧
      (s.ctx.place = .dst ∧ t = afterPredDest o s ∨
       s.ctx.place ≠ .dst ∧
        (∀ c, c < s.ctx.exec.toNat → predOpndValueFault s o c = none) ∧ t = afterPredSource o s) := by
  rw [evalPred, refuseIf_eq_next, faultIf_eq_next, faultIf_eq_next, firstFault_eq_none]
  by_cases h : s.ctx.place = .dst
  · simp only [h, if_true, true_and, ne_eq, not_true, false_and, or_false]
    simp only [afterPredDest, Host.Outcome.next.injEq, eq_comm]
  · simp only [h, if_false, false_and, false_or, ne_eq, not_false_iff, true_and]
    rw [faultIf_eq_next, firstFault_eq_none]
    simp only [afterPredSource, Host.Outcome.next.injEq, eq_comm]

/-- The state after a state source has delivered its elements. -/
def afterStateSource (o : StateOpnd) (s : State) : State :=
  (s.setLaneState (laneFill s.laneState ⟨0⟩ s.enabled fun c =>
    (s.stateElem o.cls o.id (o.offset.toNat + c)).getD ⟨0⟩)).advance

theorem readState_eq_next (o : StateOpnd) (s t : State) :
    readState o s = .next t ↔
      s.ctxFault = none ∧ (∀ c, c < s.ctx.exec.toNat → stateFault s o c = none) ∧
      (∀ c, c < s.ctx.exec.toNat → stateValueFault s o c = none) ∧ t = afterStateSource o s := by
  rw [readState, faultIf_eq_next, faultIf_eq_next, faultIf_eq_next, firstFault_eq_none, firstFault_eq_none]
  simp only [afterStateSource, Host.Outcome.next.injEq, eq_comm]

/-- Every State operand is refused, under any fields and declarations (R114). -/
theorem vecRefusal_state_ne_none (l : Launch) (c : Ctx) (o : StateOpnd) : vecRefusal l c (.state o) ≠ none := by
  simp [vecRefusal, vecOwnRefusal, vecReason, classReason]

/-- So a state row neither completes nor faults: it is refused. -/
theorem evalState_refused (o : StateOpnd) (s : State) :
    ∃ p r, vecRefusal s.launch s.ctx (.state o) = some (p, r) ∧ evalState o s = .refused (.illFormed r p s.pc) := by
  obtain ⟨⟨p, r⟩, h⟩ := Option.ne_none_iff_exists'.mp (vecRefusal_state_ne_none s.launch s.ctx o)
  exact ⟨p, r, h, by rw [evalState, h, refuseIf_some]⟩

/-- The state after a raw destination has taken its bytes. -/
def afterRawDest (o : RawOpnd) (s : State) : State :=
  (((s.setPassed s.ctxChEn).setReturns (s.returns + 1)).setGv
    (writeBytes s.gv o.id o.offset.toNat (sharedReturn s))).advance

/-- The state after a raw source has handed over its bytes. -/
def afterRawSource (o : RawOpnd) (s : State) : State :=
  ((s.setPassed s.ctxChEn).setPayload (rawBytes s o)).advance

@[simp] theorem length_sharedReturn (s : State) : (sharedReturn s).length = s.ctx.rawLen := by simp [sharedReturn]

theorem getElem?_sharedReturn (s : State) (i : Nat) (h : i < s.ctx.rawLen) :
    (sharedReturn s)[i]? = some (Config.sharedByte s.returns s.ctx.user s.ctxChEn s.payload i) := by
  simp [sharedReturn, h]

/-- On the EU a data source passes no channel enable on. -/
theorem State.passedOn_onEU (s : State) (h : s.ctx.user.onEU = true) : s.passedOn = s.passed := by
  simp [State.passedOn, h]

theorem evalRaw_eq_next (o : RawOpnd) (s t : State) :
    evalRaw o s = .next t ↔
      rawRefusal s.launch s.ctx o = none ∧ s.ctxFault = none ∧ rawFault s o = none ∧
      (s.ctx.place = .dst ∧ t = afterRawDest o s ∨
       s.ctx.place ≠ .dst ∧ (∀ i, i < s.ctx.rawLen → rawValueFault s o i = none) ∧
        t = afterRawSource o s) := by
  rw [evalRaw, refuseIf_eq_next, faultIf_eq_next, faultIf_eq_next]
  by_cases h : s.ctx.place = .dst
  · simp only [h, if_true, true_and, ne_eq, not_true, false_and, or_false]
    simp only [afterRawDest, Host.Outcome.next.injEq, eq_comm]
  · simp only [h, if_false, false_and, false_or, ne_eq, not_false_iff, true_and]
    rw [faultIf_eq_next, firstFault_eq_none]
    simp only [afterRawSource, Host.Outcome.next.injEq, eq_comm]

theorem evalPredControl_eq_next (w : PredWord) (s t : State) :
    evalPredControl w s = .next t ↔
      predControlRefusal s.launch s.ctx.exec.toNat s.ctx.mask w = none ∧
      chEnFault s s.ctx.exec.toNat s.ctx.mask w = none ∧
      t = (s.setPassed (evalChEn s s.ctx.exec.toNat s.ctx.mask w)).advance := by
  rw [evalPredControl, refuseIf_eq_next, faultIf_eq_next]
  simp only [Host.Outcome.next.injEq, eq_comm]

/-- The state after an HCOPY. -/
def afterHcopy (e : ExecSize) (m : MaskControl) (w : PredWord) (dst src : VecOpnd) (s : State) : State :=
  (s.setGv (storeData s dst e.toNat (chEnBit s e.toNat m w) fun c => (dataValue s .src src c).getD 0#64)).advance

theorem execHcopy_eq_next (e : ExecSize) (m : MaskControl) (w : PredWord) (dst src : VecOpnd) (s t : State) :
    execHcopy e m w dst src s = .next t ↔
      hcopyRefusal s.launch e m w dst src = none ∧ chEnFault s e.toNat m w = none ∧
      (∀ c, c < e.toNat → dataFault s .dst dst c = none ∧ dataFault s .src src c = none) ∧
      (∀ c, c < e.toNat → dataValueFault s .src src (chEnBit s e.toNat m w) c = none) ∧
      t = afterHcopy e m w dst src s := by
  rw [execHcopy, refuseIf_eq_next, faultIf_eq_next, faultIf_eq_next, faultIf_eq_next, firstFault_eq_none,
    firstFault_eq_none]
  simp only [hcopyFault, Option.or_eq_none_iff, afterHcopy, Host.Outcome.next.injEq, @eq_comm _ t]

/-- No meaning of the two reserved classes answers a next state. -/
theorem reserved_not_next (m : BitVec 3) (s t : State) :
    execOpndReserved100 m s ≠ .next t ∧ execOpndReserved111 m s ≠ .next t := by
  simp [execOpndReserved100, execOpndReserved111]

/-! ### What a data destination stores -/

/-- A byte that no enabled channel's element covers is left alone (R95). -/
theorem byteOf?_storeData (s : State) (o : VecOpnd) (e : Nat) (en : Nat → Bool) (val : Nat → Pattern)
    (v : Word) (b : Nat)
    (h : ∀ c x, c < e → en c = true → dataLoc s .dst o c = some x →
      v ≠ x.v ∨ b < x.b.toNat ∨ x.b.toNat + dataSize s.launch o ≤ b) :
    byteOf? (storeData s o e en val) v b = byteOf? s.gv v b := by
  refine forChannels_induct (fun m => byteOf? m v b = byteOf? s.gv v b) e en _ s.gv rfl ?_
  intro m c hc hen hm
  split
  · next x hx => rw [byteOf?_elemWrite_ne _ _ _ _ _ _ _ (h c x hc hen hx), hm]
  · exact hm

theorem storeData_wf (s : State) (o : VecOpnd) (e : Nat) (en : Nat → Bool) (val : Nat → Pattern)
    (h : Memory.wf s.gv) : Memory.wf (storeData s o e en val) := by
  refine forChannels_induct (fun m => Memory.wf m) e en _ s.gv h ?_
  intro m c _ _ hm
  split
  · exact elemWrite_wf _ _ _ _ _ hm
  · exact hm

/-- The element an enabled channel stores reads back as the stored value's low bytes, if no other enabled channel's
element overlaps it. -/
theorem elemRead_storeData (s : State) (o : VecOpnd) (e : Nat) (en : Nat → Bool) (val : Nat → Pattern)
    (c : Nat) (x : Loc) (hc : c < e) (hen : en c = true) (hx : dataLoc s .dst o c = some x)
    (hd : ∀ c' x', c' < e → en c' = true → c' ≠ c → dataLoc s .dst o c' = some x' →
      x.v ≠ x'.v ∨ x.b.toNat + dataSize s.launch o ≤ x'.b.toNat ∨ x'.b.toNat + dataSize s.launch o ≤ x.b.toNat) :
    elemRead (storeData s o e en val) x.v (dataSize s.launch o) x.b.toNat =
      some (BitVec.ofNat 64 ((val c).toNat % 256 ^ dataSize s.launch o)) := by
  rw [storeData]
  induction e with
  | zero => omega
  | succ e ih =>
    rw [forChannels_succ]
    by_cases hce : c = e
    · subst hce
      simp only [hen, if_true, hx]
      exact elemRead_elemWrite_self _ _ _ _ _
    · have ih := ih (by omega) fun c' x' h1 h2 h3 h4 => hd c' x' (by omega) h2 h3 h4
      split
      · next he =>
        split
        · next x' hx' =>
          rw [elemRead_elemWrite_ne _ _ _ _ _ _ _ _ (hd e x' (by omega) he (Ne.symm hce) hx'), ih]
        · exact ih
      · exact ih

end Sys2Proof.Machine

namespace Sys2Proof

/-! ### Words and types -/

theorem NarrowSize.toNat_dvd (n : NarrowSize) : 0 < n.toNat ∧ n.toNat ∣ 4 := by cases n <;> decide

theorem Ty.size_pos (t : Ty) (z : TypeSizes) : 0 < t.size z := by
  cases t <;> simp [Ty.size, NarrowSize.toNat_dvd]

/-- Every size divides 8, and so the size of a row (00_scope.md R5, R10). -/
theorem Ty.size_dvd_eight (t : Ty) (z : TypeSizes) : t.size z ∣ 8 := by
  cases t <;> simp only [Ty.size]
  all_goals first | decide | exact Nat.dvd_trans (NarrowSize.toNat_dvd _).2 (by decide)

theorem Ty.size_dvd (t : Ty) (z : TypeSizes) : t.size z ∣ Config.grfSize :=
  Nat.dvd_trans (t.size_dvd_eight z) (by decide)

theorem Ty.size_le (t : Ty) (z : TypeSizes) : t.size z ≤ 8 := Nat.le_of_dvd (by decide) (t.size_dvd_eight z)

theorem ExecSize.toNat_le (e : ExecSize) : e.toNat ≤ 32 := by cases e <;> decide

theorem ExecSize.toNat_pos (e : ExecSize) : 0 < e.toNat := by cases e <;> decide

@[simp] theorem execSizeOf_toNat (e : ExecSize) : execSizeOf e.toNat = some e := by cases e <;> rfl

/-- A type that has a code in the table reads back from the code the encoder gives it. -/
theorem TypeTable.typeOf_codeOf (T : TypeTable) (t : Ty) (h : ∃ c, T.typeOf c = t) : T.typeOf (T.codeOf t) = t := by
  obtain ⟨c, hc⟩ := h
  have hm : t ∈ T.types.toList := by
    rw [← hc, TypeTable.typeOf]
    simp
  have hl : T.types.toList.idxOf t < 16 := by simpa using List.idxOf_lt_length_of_mem hm
  have hn : (T.codeOf t).toNat = T.types.toList.idxOf t := by
    simp only [TypeTable.codeOf, BitVec.toNat_ofNat]
    omega
  simp only [TypeTable.typeOf, hn]
  rw [← Vector.getElem_toList (by simpa using hl)]
  exact List.getElem_idxOf _

/-- Where no two codes name one type, the encoder gives back the code that was read. -/
theorem TypeTable.codeOf_typeOf (T : TypeTable) (hT : Function.Injective T.typeOf) (c : BitVec 4) :
    T.codeOf (T.typeOf c) = c := hT (T.typeOf_codeOf _ ⟨c, rfl⟩)

end Sys2Proof
end

