-- ==== Sys2Proof/Laws/Codec.lean ====
section
/-!
SUPPORT. The byte stream: reading back what was written, and what was read.
-/

namespace Sys2Proof

@[simp] theorem ok_bind {ε α β : Type} (a : α) (f : α → Except ε β) : (Except.ok a >>= f) = f a := rfl

@[simp] theorem error_bind {ε α β : Type} (e : ε) (f : α → Except ε β) : (Except.error e >>= f) = .error e := rfl

@[simp] theorem rejectIf_false (r : Reason) : rejectIf false r = .ok () := rfl

theorem rejectIf_eq_ok (c : Bool) (r : Reason) (u : Unit) : rejectIf c r = .ok u ↔ c = false := by
  cases c <;> simp [rejectIf]

theorem bind_eq_ok {ε α β : Type} (x : Except ε α) (f : α → Except ε β) (b : β) :
    (x >>= f) = .ok b ↔ ∃ a, x = .ok a ∧ f a = .ok b := by
  cases x <;> simp

/-- Reading `k` bytes of a stream that begins with the `k` bytes of a number. -/
theorem takeLE_bytesOf (n k : Nat) (rest : List Byte) : takeLE k (bytesOf n k ++ rest) = .ok (n % 256 ^ k, rest) := by
  induction k generalizing n with
  | zero => simp [takeLE, bytesOf, Nat.mod_one]
  | succ k ih =>
    have h : n % 256 ^ (k + 1) = n % 256 + 256 * (n / 256 % 256 ^ k) := by
      rw [Nat.pow_succ, Nat.mul_comm (256 ^ k) 256, Nat.mod_mul]
    simp [takeLE, bytesOf, ih, h]

/-- What `takeLE` reads: the stream begins with the number's bytes, and the number fits them. -/
theorem takeLE_eq_ok (k : Nat) (bs rest : List Byte) (n : Nat) :
    takeLE k bs = .ok (n, rest) ↔ bs = bytesOf n k ++ rest ∧ n < 256 ^ k := by
  induction k generalizing bs n with
  | zero =>
    simp only [takeLE, bytesOf, List.nil_append, Except.ok.injEq, Prod.mk.injEq, Nat.pow_zero, Nat.lt_one_iff]
    constructor
    · rintro ⟨rfl, rfl⟩; exact ⟨rfl, rfl⟩
    · rintro ⟨rfl, rfl⟩; exact ⟨rfl, rfl⟩
  | succ k ih =>
    cases bs with
    | nil => simp [takeLE, bytesOf]
    | cons b bs =>
      rw [takeLE, bind_eq_ok]
      constructor
      · rintro ⟨⟨m, r⟩, h, h'⟩
        simp only [Except.ok.injEq, Prod.mk.injEq] at h'
        obtain ⟨rfl, rfl⟩ := h'
        rw [ih] at h
        have hb := b.isLt
        have h1 : (b.toNat + 256 * m) / 256 = m := by omega
        refine ⟨?_, by rw [Nat.pow_succ]; omega⟩
        rw [bytesOf, h1, h.1]
        simp only [List.cons_append, List.cons.injEq, and_true]
        apply BitVec.eq_of_toNat_eq
        simp only [BitVec.toNat_ofNat]
        omega
      · rintro ⟨h, hn⟩
        rw [bytesOf, List.cons_append, List.cons.injEq] at h
        refine ⟨(n / 256, rest), (ih _ _).2 ⟨h.2, ?_⟩, ?_⟩
        · rw [Nat.pow_succ] at hn
          exact Nat.div_lt_of_lt_mul (by rw [Nat.mul_comm]; exact hn)
        · simp only [h.1, BitVec.toNat_ofNat, Except.ok.injEq, Prod.mk.injEq, and_true]
          omega

@[simp] theorem length_bytesOf (n k : Nat) : (bytesOf n k).length = k := by
  induction k generalizing n with
  | zero => rfl
  | succ k ih => simp [bytesOf, ih]

/-- A region field reads back. -/
theorem decodeRegion_encodeRegion (r : Region) : decodeRegion (encodeRegion r) = .ok r := by
  have h1 := r.vert.isLt
  have h2 := r.width.isLt
  have h3 := r.horz.isLt
  have hz : encodeRegion r / 4096 = 0 := by simp only [encodeRegion]; omega
  rw [decodeRegion, hz]
  simp only [bne_self_eq_false, rejectIf_false, ok_bind, Except.ok.injEq]
  cases r
  simp only [Region.mk.injEq, fieldOf, encodeRegion] at *
  refine ⟨?_, ?_, ?_⟩ <;> apply BitVec.eq_of_toNat_eq <;> simp only [BitVec.toNat_ofNat] <;> omega

theorem decodePredWord_eq_ok (n : Nat) (w : PredWord) :
    decodePredWord n = .ok w ↔
      n / 4096 % 2 = 0 ∧ decodeCombine n = .ok w.comb ∧ w.inv = (n / 32768 % 2 != 0) ∧ w.pid = fieldOf 12 0 n := by
  rw [decodePredWord, bind_eq_ok]
  simp only [rejectIf_eq_ok, bind_eq_ok, Except.ok.injEq, bne_eq_false_iff_eq]
  constructor
  · rintro ⟨_, h1, k, h2, rfl⟩
    exact ⟨h1, h2, rfl, rfl⟩
  · rintro ⟨h1, h2, h3, h4⟩
    refine ⟨(), h1, w.comb, h2, ?_⟩
    cases w
    simp only at h3 h4
    rw [← h3, ← h4]

/-- A predication control word reads back. -/
theorem decodePredWord_encodePredWord (w : PredWord) : decodePredWord (encodePredWord w) = .ok w := by
  rw [decodePredWord_eq_ok]
  obtain ⟨inv, comb, pid⟩ := w
  have h1 := pid.isLt
  have h0 : ∀ i c, c < 3 → i < 2 → (pid.toNat + 8192 * c + 32768 * i) / 4096 % 2 = 0 ∧
      (pid.toNat + 8192 * c + 32768 * i) / 8192 % 4 = c ∧ (pid.toNat + 8192 * c + 32768 * i) / 32768 % 2 = i ∧
      (pid.toNat + 8192 * c + 32768 * i) % 4096 = pid.toNat := by
    intro i c hi hc
    refine ⟨?_, ?_, ?_, ?_⟩ <;> omega
  have key : ∀ i c, c < 3 → i < 2 →
      fieldOf 12 0 (pid.toNat + 8192 * c + 32768 * i) = pid := fun i c hc hi => by
    apply BitVec.eq_of_toNat_eq
    simp only [fieldOf, BitVec.toNat_ofNat, Nat.pow_zero, Nat.div_one]
    exact (h0 i c hc hi).2.2.2
  have e : encodePredWord ⟨inv, comb, pid⟩ =
      pid.toNat + 8192 * encodeCombine comb + 32768 * (if inv then 1 else 0) := by
    cases inv <;> simp [encodePredWord]
  have hc : encodeCombine comb < 3 := by cases comb <;> decide
  have hi : (if inv = true then 1 else 0) < 2 := by cases inv <;> decide
  have h := h0 _ _ hc hi
  rw [e]
  refine ⟨h.1, ?_, ?_, (key _ _ hc hi).symm⟩
  · rw [decodeCombine, h.2.1]
    cases comb <;> rfl
  · rw [h.2.2.1]
    cases inv <;> rfl

theorem encodePredWord_lt (w : PredWord) : encodePredWord w < 2 ^ 16 := by
  obtain ⟨inv, comb, pid⟩ := w
  have h1 := pid.isLt
  cases inv <;> cases comb <;> simp [encodePredWord, encodeCombine] <;> omega

theorem encodeRegion_lt (r : Region) : encodeRegion r < 2 ^ 12 := by
  have h1 := r.vert.isLt
  have h2 := r.width.isLt
  have h3 := r.horz.isLt
  simp only [encodeRegion]
  omega

end Sys2Proof
end

