-- ==== Sys2Proof/Machine/Text.lean ====
section
/-!
DEFINITION. The text forms the spec gives for operands and for the harness operation (30_encoding.md R69,
43_raw_operands.md R123, 44_named_instructions.md R136). A text is a list of characters. Where the spec's files show
a spelling as their own (an immediate `value:type`, the type after an indirect operand; 95_test_vectors.md), the
spelling here is that one (log entry 34). Nothing in the machine's behaviour depends on this file.
-/

namespace Sys2Proof

/-- The decimal digits of a number, most significant first; `fuel` bounds their count. -/
def decDigits : Nat → Nat → List Char
  | 0, _ => []
  | fuel + 1, n =>
      (if n < 10 then [] else decDigits fuel (n / 10)) ++ [Char.ofNat (48 + n % 10)]

/-- A number as text; every number an operand can hold has fewer than 40 digits. -/
def natText (n : Nat) : List Char := decDigits 40 n

/-- A signed number as text. -/
def intText (x : Int) : List Char := if x < 0 then '-' :: natText x.natAbs else natText x.toNat

/-- A number in hexadecimal, as 95_test_vectors.md writes the value of an immediate. -/
def hexDigits : Nat → Nat → List Char
  | 0, _ => []
  | fuel + 1, n =>
      (if n < 16 then [] else hexDigits fuel (n / 16)) ++
        [Char.ofNat (if n % 16 < 10 then 48 + n % 16 else 55 + n % 16)]

/-- A region parameter: empty for Null, as in the multi-address form; `?` for a code the table does not list. -/
def countText (c : BitVec 4) : List Char :=
  match countOf c with
  | .null => []
  | .elems n => natText n
  | .unlisted => ['?']

/-- The region of an operand at its place: `<VertStride;Width,HorzStride>` for a source, `<HorzStride>` for a
destination, `<0;1,0>` for a scalar, whose region is hard-coded (R69, 42_vector_operands.md R116). -/
def regionText (p : Place) (r : Region) : List Char :=
  match p with
  | .dst => ['<'] ++ countText r.horz ++ ['>']
  | .src => ['<'] ++ countText r.vert ++ [';'] ++ countText r.width ++ [','] ++ countText r.horz ++ ['>']
  | .scalar => ['<', '0', ';', '1', ',', '0', '>']

/-- `VN(R,C)<...>` (R69). A modifier has no text, its spelling not being given: DESIGN CHOICE, log entry 34. -/
def genText (p : Place) (o : GenOpnd) : List Char :=
  ['V'] ++ natText o.id.toNat ++ ['('] ++ natText o.row.toNat ++ [','] ++ natText o.col.toNat ++ [')'] ++
    regionText p o.region

/-- `r[AN(k), offset]<...>` (R69). A modifier has no text, its spelling not being given: DESIGN CHOICE, log entry 34. -/
def indText (p : Place) (o : IndOpnd) : List Char :=
  ['r', '[', 'A'] ++ natText o.id.toNat ++ ['('] ++ natText o.addrOffset.toNat ++ [')', ',', ' '] ++
    intText o.offset.toInt ++ [']'] ++ regionText p o.region

/-- `AN.offset`, the first element of an address operand (R69); the text gives its width no place. -/
def addrText (o : AddrOpnd) : List Char := ['A'] ++ natText o.id.toNat ++ ['.'] ++ natText o.offset.toNat

/-- `VN.offset` (R123). -/
def rawText (o : RawOpnd) : List Char := ['V'] ++ natText o.id.toNat ++ ['.'] ++ natText o.offset.toNat

/-- The mask control between braces (R69, 41_predication.md R92). -/
def maskText (m : MaskControl) : List Char :=
  [Char.ofNat 123] ++
    (match m with
     | .m1 => ['M', '1'] | .m2 => ['M', '2'] | .m3 => ['M', '3'] | .m4 => ['M', '4']
     | .m5 => ['M', '5'] | .m6 => ['M', '6'] | .m7 => ['M', '7'] | .m8 => ['M', '8']
     | .noMask => ['N', 'o', 'M', 'a', 's', 'k']) ++ [Char.ofNat 125]

/-- The predication `(P3)`, `(!P3)`, `(P3.any)`, `(!P3.all)` and so on; nothing for the word 0 (R136). -/
def predText (w : PredWord) : List Char :=
  if w.isNone then []
  else ['('] ++ (if w.inv then ['!'] else []) ++ ['P'] ++ natText w.pid.toNat ++
    (match w.comb with
     | .seq => []
     | .any => ['.', 'a', 'n', 'y']
     | .all => ['.', 'a', 'l', 'l']) ++ [')']

/-- The names of the types (00_scope.md R5, R6). -/
def tyText : Ty → List Char
  | .ud => ['U', 'D'] | .d => ['D'] | .uw => ['U', 'W'] | .w => ['W'] | .ub => ['U', 'B'] | .b => ['B']
  | .df => ['D', 'F'] | .f => ['F'] | .v => ['V'] | .vf => ['V', 'F'] | .bool => ['B', 'O', 'O', 'L']
  | .uq => ['U', 'Q'] | .uv => ['U', 'V'] | .q => ['Q'] | .hf => ['H', 'F'] | .bf => ['B', 'F']

/-- An immediate, in the spelling of 95_test_vectors.md. -/
def immText (t : Ty) (n : Nat) : List Char := ['0', 'x'] ++ hexDigits 16 n ++ [':'] ++ tyText t

/-- The text of a vector operand; `none` for a State operand, to which the spec gives no text form (R69). -/
def vecText (p : Place) : VecOpnd → Option (List Char)
  | .general o => some (genText p o)
  | .address o => some (addrText o)
  | .predicate o => some (['P'] ++ natText o.val.pid.toNat)
  | .indirect o => some (indText p o ++ [':'] ++ tyText o.ty)
  | .immediate32 o => some (immText o.ty o.low.toNat)
  | .immediate64 o => some (immText o.ty (o.high ++ o.low).toNat)
  | .state _ => none

/-- `[(pred)] HCOPY (ExecSize) mask dst src` (R136). -/
def hcopyText (e : ExecSize) (m : MaskControl) (w : PredWord) (dst src : VecOpnd) : Option (List Char) :=
  match vecText .dst dst, vecText .src src with
  | some d, some s =>
      some (predText w ++ (if w.isNone then [] else [' ']) ++ ['H', 'C', 'O', 'P', 'Y', ' ', '('] ++
        natText e.toNat ++ [')', ' '] ++ maskText m ++ [' '] ++ d ++ [' '] ++ s)
  | _, _ => none

end Sys2Proof
end

