-- ==== Sys2Proof/Tests/Slice0.lean ====
section
/-!
SUPPORT. Tests on fixed values, each expected result taken from a worked row of the spec (mostly 95_test_vectors.md),
and for every statement with hypotheses a witness that meets them together.
-/

open Sys2Proof Sys2Proof.Machine Sys2Proof.Claims

namespace Sys2Proof.Tests

/-! ### Small states -/

/-- The state of a next outcome. -/
def after (r : Result) : Option State :=
  match r with
  | .next t => some t
  | _ => none

/-- The fault of a faulting outcome. -/
def faultOf (r : Result) : Option Fault :=
  match r with
  | .fault f => some f
  | _ => none

/-- The refusal of a refused outcome. -/
def refusalOf (r : Result) : Option Refusal :=
  match r with
  | .refused f => some f
  | _ => none

/-- The rejection of the decoder. -/
def rejection {α : Type} (r : Except Reason α) : Option Reason :=
  match r with
  | .error e => some e
  | .ok _ => none

/-- What the decoder accepts. -/
def accepted {α : Type} (r : Except Reason α) : Option α :=
  match r with
  | .ok a => some a
  | .error _ => none

/-- Elements of `size` bytes holding the listed values, from byte `b` of variable `v`. -/
def fill (v : Word) (size : Nat) : Nat → List Nat → Memory → Memory
  | _, [], m => m
  | b, x :: xs, m => fill v size (b + size) xs (elemWrite m v size b (BitVec.ofNat 64 x))

/-- A source or destination position of an unpredicated instruction of `e` channels under M1. -/
def ctxOf (e : ExecSize) (u : User) (p : Place) : Ctx :=
  { exec := e, mask := .m1, user := u, place := p, rawLen := 0, pred := PredWord.zero }

/-- The default TypeCode (00_scope.md R6). -/
abbrev table : TypeTable := TypeTable.default

/-- The default TypeSize (R5). -/
abbrev sizes : TypeSizes := TypeSizes.default

/-- The declarations the tests share. -/
def decls : Launch :=
  { State.reset.launch with
    vars := [(1, ⟨.uw, 32, none⟩), (2, ⟨.uw, 32, none⟩), (3, ⟨.ud, 8, none⟩), (5, ⟨.ud, 16, none⟩),
      (7, ⟨.uw, 64, none⟩), (8, ⟨.uw, 16, none⟩), (9, ⟨.uw, 64, none⟩), (12, ⟨.ub, 128, none⟩), (13, ⟨.ub, 16, some 5⟩),
      (14, ⟨.ub, 16, none⟩), (15, ⟨.v, 16, none⟩)]
    addresses := [(0, ⟨4, true⟩), (1, ⟨1, true⟩), (2, ⟨8, true⟩), (3, ⟨4, false⟩)]
    predicates := [(1, ⟨16, true⟩), (2, ⟨16, true⟩), (5, ⟨16, true⟩), (6, ⟨2, false⟩)]
    samplers := [(3, ⟨4, true⟩), (4, ⟨4, false⟩)] }

/-- A state with those declarations, every channel in EM, evaluating an operand under the given fields. -/
def at_ (c : Ctx) : State := { State.reset with launch := decls, ctx := c }

/-- V1 holds 10, 11, ... in its first eight elements (95_test_vectors.md, program 1). -/
def withV1 (c : Ctx) : State := (at_ c).setGv (fill 1 2 0 [10, 11, 12, 13, 14, 15, 16, 17] [])

/-- V5 holds eight UD elements from byte 32, `A1[0] = ptr(V5, 64)` (T-IN1, T-IN2). -/
def withA1 (c : Ctx) (b : Int) : State :=
  ((at_ c).setGv (fill 5 4 32 [0x11223344, 2, 3, 4, 5, 6, 7, 8] [])).setAv [(avKey 1 0, ⟨5, b⟩)]

/-- V4's place is taken by V9 and V5 of program 3: a gather of two rows from different variables. -/
def withA0 (c : Ctx) : State :=
  ((at_ c).setGv (fill 2 2 32 [20, 21, 22, 23] (fill 1 2 0 [10, 11, 12, 13] []))).setAv
    [(avKey 0 0, ⟨1, 0⟩), (avKey 0 1, ⟨2, 32⟩)]

/-- The lanes hold 0, 1, 2, ... -/
def withLanes (c : Ctx) : State := (at_ c).setLaneData ((List.range 32).map fun n => BitVec.ofNat 64 n)

/-- Predicate bits `b0 b1 ...` of variable `pid` from element `n` on. -/
def setBits (pid : BitVec 12) : Nat → List Bool → Store Bool → Store Bool
  | _, [], m => m
  | n, b :: bs, m => setBits pid (n + 1) bs (Store.set m (pvKey pid n) b)

/-- `<8;8,1>` -/
def r881 : Region := ⟨5, 5, 2⟩
/-- `<4;4,1>` -/
def r441 : Region := ⟨4, 4, 2⟩
/-- `<0;1,0>` -/
def r010 : Region := ⟨1, 2, 1⟩
/-- `<1>`, with the ignored fields coded as the vectors code them. -/
def d1 : Region := ⟨2, 2, 2⟩

/-! ### Well-formedness: one ill-formed term for each check, and terms that pass -/

theorem test_wellFormed_predicate_inverse :
    (Instr.opndPredicate ⟨⟨true, .seq, 5⟩⟩).fieldReason = some .predOperandControl := by decide
theorem test_wellFormed_predicate_combine :
    (Instr.opndPredicate ⟨⟨false, .any, 5⟩⟩).fieldReason = some .predOperandControl := by decide
theorem test_wellFormed_indirect_offset :
    (Instr.opndIndirect ⟨0, 1, 0, 512, .uw, r881⟩).fieldReason = some .offsetRange ∧
    (Instr.opndIndirect ⟨0, 1, 0, BitVec.ofInt 16 (-513), .uw, r881⟩).fieldReason = some .offsetRange ∧
    WellFormed (.opndIndirect ⟨0, 1, 0, 511, .uw, r881⟩) = true ∧
    WellFormed (.opndIndirect ⟨0, 1, 0, BitVec.ofInt 16 (-512), .uw, r881⟩) = true := by decide
theorem test_wellFormed_indirect_type :
    (Instr.opndIndirect ⟨0, 1, 0, 0, .vf, r881⟩).fieldReason = some .indirectType ∧
    (Instr.opndIndirect ⟨0, 1, 0, 0, .bool, r881⟩).fieldReason = some .indirectType := by decide
theorem test_wellFormed_immediate :
    (Instr.opndImmediate32 ⟨.bool, 0⟩).fieldReason = some .immBool ∧
    (Instr.opndImmediate32 ⟨.q, 0⟩).fieldReason = some .immLength ∧
    (Instr.opndImmediate64 ⟨.ud, 0, 0⟩).fieldReason = some .immLength := by decide
theorem test_wellFormed_reserved :
    (Instr.opndReserved100 0).fieldReason = some .reservedClass ∧
    (Instr.opndReserved111 5).fieldReason = some .reservedClass := by decide
theorem test_wellFormed_hcopy :
    (Instr.hcopy .e4 .m1 ⟨false, .seq, 0⟩ (.immediate32 ⟨.ud, 0⟩) (.general ⟨0, 1, 0, 0, r441⟩)).fieldReason =
      some .classNotAdmitted ∧
    (Instr.hcopy .e4 .m1 ⟨false, .seq, 0⟩ (.general ⟨0, 2, 0, 0, d1⟩) (.general ⟨3, 1, 0, 0, r441⟩)).fieldReason =
      some .harnessModifier ∧
    WellFormed (.hcopy .e4 .m1 ⟨false, .seq, 0⟩ (.general ⟨0, 2, 0, 0, d1⟩) (.general ⟨0, 1, 0, 0, r441⟩)) = true := by
  decide

/-- Witness for EncodeDecodeRoundTrip: a well-formed term of every constructor that has one. -/
theorem witness_EncodeDecodeRoundTrip :
    WellFormed (.opndGeneral ⟨7, 0xFFFFFFFF, 255, 255, ⟨15, 8, 0⟩⟩) = true ∧
    WellFormed (.opndAddress ⟨0xFFFF, 255, 255⟩) = true ∧ WellFormed (.opndPredicate ⟨⟨false, .seq, 4095⟩⟩) = true ∧
    WellFormed (.opndIndirect ⟨7, 0xFFFF, 255, 511, .bf, ⟨0, 15, 15⟩⟩) = true ∧
    WellFormed (.opndImmediate32 ⟨.vf, 0xFFFFFFFF⟩) = true ∧
    WellFormed (.opndImmediate64 ⟨.df, 0, 0xFFFFFFFF⟩) = true ∧ WellFormed (.opndState ⟨.sampler, 3, 1⟩) = true ∧
    WellFormed (.rawOperand ⟨12, 64⟩) = true ∧ WellFormed (.predControl ⟨true, .all, 4095⟩) = true := by decide
/-- The default table has a code for every type, so every instruction is coded (R6). -/
theorem witness_Coded : ∀ t : Ty, ∃ c, table.typeOf c = t := fun t => ⟨table.codeOf t, by cases t <;> decide⟩

/-! ### Decoding: words written out from 30_encoding.md (95_test_vectors.md T-EN, T-PC, T-RF, T-DS1) -/

/-- T-EN2, T-EN3, T-EN4, T-EN16. -/
theorem test_decode_general :
    accepted (decode table (.vector [0x00, 0x01, 0, 0, 0, 0x00, 0x03, 0x21, 0x01])) =
      some (.opndGeneral ⟨0, 1, 0, 3, r010⟩) ∧
    accepted (decode table (.vector [0x00, 0x02, 0, 0, 0, 0x00, 0x00, 0x22, 0x03])) =
      some (.opndGeneral ⟨0, 2, 0, 0, ⟨2, 2, 3⟩⟩) ∧
    accepted (decode table (.vector [0x18, 0x05, 0, 0, 0, 0x01, 0x02, 0x55, 0x02])) =
      some (.opndGeneral ⟨3, 5, 1, 2, r881⟩) := by decide
/-- T-EN8, T-EN9. -/
theorem test_decode_indirect :
    accepted (decode table (.vector [0x03, 0, 0, 0, 0, 0, 0x02, 0x40, 0x02])) =
      some (.opndIndirect ⟨0, 0, 0, 0, .uw, ⟨0, 4, 2⟩⟩) ∧
    accepted (decode table (.vector [0x03, 0, 0, 3, 0, 0, 0x02, 0x22, 0x04])) =
      some (.opndIndirect ⟨0, 0, 3, 0, .uw, ⟨2, 2, 4⟩⟩) := by decide
/-- T-EN12. -/
theorem test_decode_immediate64 :
    accepted (decode table (.vector [0x05, 0x06, 0, 0, 0, 0, 0, 0, 0xF0, 0x3F])) =
      some (.opndImmediate64 ⟨.df, 0, 0x3FF00000⟩) := by decide
/-- T-EN14. -/
theorem test_decode_state :
    accepted (decode table (.vector [0x06, 0x00, 0x02, 0x01, 0x00])) =
      some (.opndState ⟨.surface, 0x0102, 0⟩) := by decide
/-- T-RF1, T-RF2: tags `04` and `07`. -/
theorem test_decode_reserved :
    accepted (decode table (.vector [0x04])) = some (.opndReserved100 0) ∧
    accepted (decode table (.vector [0x07])) = some (.opndReserved111 0) := by decide
/-- T-PC4, T-PC6, T-PC10. -/
theorem test_decode_predControl :
    accepted (decode table (.pred [0x03, 0x20])) = some (.predControl ⟨false, .any, 3⟩) ∧
    accepted (decode table (.pred [0x03, 0xA0])) = some (.predControl ⟨true, .any, 3⟩) ∧
    accepted (decode table (.pred [0x00, 0x80])) = some (.predControl ⟨true, .seq, 0⟩) := by decide
/-- Program 2 of 95_test_vectors.md, operation 2: `(!P1) HCOPY (4) M2 V3(0,4)<1> 0x55:UD`. -/
theorem test_decode_hcopy :
    accepted (decode table (.hcopy 4 .m2 0x8001 [0, 3, 0, 0, 0, 0, 4, 0x22, 0x02] [5, 0, 0x55, 0, 0, 0])) =
      some (.hcopy .e4 .m2 ⟨true, .seq, 1⟩ (.general ⟨0, 3, 0, 4, d1⟩) (.immediate32 ⟨.ud, 0x55⟩)) := by decide
/-- T-RF3 to T-RF6, T-RF17 to T-RF24, T-PC8, T-PC9: what the decoder rejects, by name. -/
theorem test_decode_rejects :
    rejection (decode table (.vector [0x40])) = some .tagReserved ∧
    rejection (decode table (.vector [0x80])) = some .tagReserved ∧
    rejection (decode table (.vector [0x09, 2, 0, 1, 2])) = some .modifierMustBeZero ∧
    rejection (decode table (.vector [0x00, 5, 0, 0, 0, 1, 2, 0x55, 0x12])) = some .regionReserved ∧
    rejection (decode table (.vector [0x03, 1, 0, 0, 0x00, 0x02, 2, 0x55, 0x02])) = some .offsetRange ∧
    rejection (decode table (.vector [0x03, 1, 0, 0, 0xFF, 0xFD, 2, 0x55, 0x02])) = some .offsetRange ∧
    rejection (decode table (.vector [0x03, 1, 0, 0, 0, 0, 0x0A, 0x55, 0x02])) = some .indirectType ∧
    rejection (decode table (.vector [0x03, 1, 0, 0, 0, 0, 0x12, 0x55, 0x02])) = some .bitPropertiesReserved ∧
    rejection (decode table (.vector [0x05, 0x0A, 0, 0, 0, 0])) = some .immBool ∧
    rejection (decode table (.vector [0x05, 0x12, 0, 0, 0, 0])) = some .immTypeReserved ∧
    rejection (decode table (.vector [0x06, 0x02, 0, 0, 0])) = some .stateClass ∧
    rejection (decode table (.vector [0x06, 0x05, 0, 0, 0])) = some .stateClassReserved ∧
    rejection (decode table (.pred [0x03, 0x60])) = some .combineReserved ∧
    rejection (decode table (.pred [0x03, 0x10])) = some .predReserved ∧
    rejection (decode table (.vector [0x02, 0x05])) = some .truncated := by decide
/-- T-DS1: the first operands of the 47-byte stream; each consumes its own bytes. -/
theorem test_decode_stream :
    (accepted (decodeVecs table 3 [0, 5, 0, 0, 0, 1, 2, 0x55, 2, 1, 2, 0, 1, 2, 2, 5, 0, 3, 1, 0])).map
        (fun x => (x.1.map VecOpnd.toInstr, x.2)) =
      some ([.opndGeneral ⟨0, 5, 1, 2, r881⟩, .opndAddress ⟨2, 1, 2⟩, .opndPredicate ⟨⟨false, .seq, 5⟩⟩],
        [3, 1, 0]) := by
  decide
/-- For DecodedBytesRecovered and OperandClassCodes: T-EN11 with two bytes after it; the default table gives no type
two codes, and SpecWordsDecode's two codes are its own. -/
theorem witness_DecodedBytesRecovered :
    decodeVec table [0x05, 0x0D, 0xFE, 0xFF, 0xFF, 0xFF, 0xFF, 0xFF, 0xFF, 0xFF, 6, 1] =
      .ok (.immediate64 ⟨.q, 0xFFFFFFFE, 0xFFFFFFFF⟩, [6, 1]) ∧
    Function.Injective table.typeOf ∧ table.typeOf 2 = .uw ∧ table.typeOf 13 = .q :=
  ⟨rfl, by decide, rfl, rfl⟩
/-- For OperandClassCodes: T-RF1, T-RF2. -/
theorem witness_OperandClassCodes : (0x04 : Byte).toNat % 8 = 4 ∧ (0x07 : Byte).toNat % 8 = 7 ∧
    decode table (.vector [0x2C, 1]) = .ok (.opndReserved100 5) := ⟨rfl, rfl, rfl⟩
/-- The words of the opcode table's fixed bits, all other bits zero: each row's own instruction. -/
theorem test_decodeTableWord :
    decodeTableWord 72 0 = some (.opndGeneral ⟨0, 0, 0, 0, ⟨0, 0, 0⟩⟩) ∧
    decodeTableWord 40 1 = some (.opndAddress ⟨0, 0, 0⟩) ∧
    decodeTableWord 24 2 = some (.opndPredicate ⟨⟨false, .seq, 0⟩⟩) ∧
    decodeTableWord 72 3 = some (.opndIndirect ⟨0, 0, 0, 0, .ud, ⟨0, 0, 0⟩⟩) ∧
    decodeTableWord 48 5 = some (.opndImmediate32 ⟨.ud, 0⟩) ∧
    decodeTableWord 80 (5 + 256 * 13) = some (.opndImmediate64 ⟨.q, 0, 0⟩) ∧
    decodeTableWord 40 6 = some (.opndState ⟨.surface, 0, 0⟩) ∧
    decodeTableWord 8 4 = some (.opndReserved100 0) ∧ decodeTableWord 8 7 = some (.opndReserved111 0) ∧
    decodeTableWord 48 0 = some (.rawOperand ⟨0, 0⟩) ∧
    decodeTableWord 16 0 = some (.predControl ⟨false, .seq, 0⟩) := by decide

/-! ### Text forms (30_encoding.md R69, T-EN, T-PC, S10, program 2) -/

theorem test_text_operands :
    genText .src ⟨0, 5, 1, 2, r881⟩ = ['V', '5', '(', '1', ',', '2', ')', '<', '8', ';', '8', ',', '1', '>'] ∧
    indText .src ⟨0, 0, 0, 0, .uw, ⟨0, 4, 2⟩⟩ =
      ['r', '[', 'A', '0', '(', '0', ')', ',', ' ', '0', ']', '<', ';', '4', ',', '1', '>'] ∧
    rawText ⟨12, 64⟩ = ['V', '1', '2', '.', '6', '4'] ∧
    predText ⟨true, .any, 3⟩ = ['(', '!', 'P', '3', '.', 'a', 'n', 'y', ')'] := by decide
theorem test_text_hcopy :
    hcopyText .e4 .m2 ⟨true, .seq, 1⟩ (.general ⟨0, 3, 0, 4, d1⟩) (.immediate32 ⟨.ud, 0x55⟩) =
      some (['(', '!', 'P', '1', ')', ' ', 'H', 'C', 'O', 'P', 'Y', ' ', '(', '4', ')', ' ', Char.ofNat 123, 'M', '2',
        Char.ofNat 125, ' ', 'V', '3', '(', '0', ',', '4', ')', '<', '1', '>', ' ', '0', 'x', '5', '5',
        ':', 'U', 'D']) := by
  decide

/-! ### Lemmas for witnesses: channels and bits lie below 32 -/

theorem of_enabled {s : State} {P : Nat → Prop} (h : ∀ c, c < 32 → s.enabled c = true → P c) :
    ∀ c, s.enabled c = true → P c := fun c hc => by
  have h1 : c < s.ctx.exec.toNat := by
    simp only [State.enabled, chEnBit, Bool.and_eq_true, decide_eq_true_eq] at hc
    exact hc.1.1
  exact h c (Nat.lt_of_lt_of_le h1 (ExecSize.toNat_le _)) hc

theorem of_bit {m : Mask} {P : Nat → Prop} (h : ∀ c, c < 32 → m.getLsbD c = true → P c) :
    ∀ c, m.getLsbD c = true → P c := fun c hc => h c (BitVec.lt_of_getLsbD hc) hc

/-- Every execution size fits under M1, and four channels fit under M8. -/
theorem witness_MaskFits : (∀ e : ExecSize, MaskFits e.toNat .m1) ∧ MaskFits 4 .m8 := by
  refine ⟨fun e off h => ?_, fun off h => ?_⟩
  · cases h
    cases e <;> decide
  · cases h
    decide

/-- An unpredicated instruction under M1 has its channel enable. -/
theorem ready {s : State} (hm : s.ctx.mask = .m1) (hw : s.ctx.pred = PredWord.zero) : Ready s := by
  refine ⟨?_, .inl (by rw [hw]; rfl)⟩
  rw [hm]
  exact witness_MaskFits.1 _

theorem next_of_after {r : Result} (h : (after r).isSome = true) : ∃ t, r = .next t := by
  cases r with
  | next t => exact ⟨t, rfl⟩
  | fault f => cases h
  | refused f => cases h

/-! ### Regions (40_regions.md R88, 95_test_vectors.md T-RG) -/

/-- R88: `<16;8,2>`, `<0;8,1>` from row 1, `<4;4,0>`, and the destination `V(2,4)<2>`. -/
theorem test_region_elements :
    (List.range 16).map (genElem sizes .uw .src ⟨0, 7, 0, 0, ⟨6, 5, 3⟩⟩) =
      [0, 2, 4, 6, 8, 10, 12, 14, 16, 18, 20, 22, 24, 26, 28, 30] ∧
    (List.range 16).map (genElem sizes .uw .src ⟨0, 7, 1, 0, ⟨1, 5, 2⟩⟩) =
      [16, 17, 18, 19, 20, 21, 22, 23, 16, 17, 18, 19, 20, 21, 22, 23] ∧
    (List.range 8).map (genElem sizes .uw .src ⟨0, 7, 0, 0, ⟨4, 4, 1⟩⟩) = [0, 0, 0, 0, 4, 4, 4, 4] ∧
    (List.range 8).map (genElem sizes .uw .dst ⟨0, 7, 2, 4, ⟨2, 2, 3⟩⟩) = [36, 38, 40, 42, 44, 46, 48, 50] := by decide
/-- R88's two rows that violate restriction 6, T-RG15, T-RG21, T-RF7 to T-RF13, T-RG18. -/
theorem test_region_refused :
    vecReason decls (ctxOf .e16 .move .src).toSupply (.general ⟨0, 7, 0, 0, ⟨7, 5, 2⟩⟩) = some .grfSpan ∧
    vecReason decls (ctxOf .e16 .move .dst).toSupply (.general ⟨0, 7, 0, 0, ⟨2, 2, 4⟩⟩) = some .grfSpan ∧
    vecReason decls (ctxOf .e8 .move .src).toSupply (.general ⟨0, 7, 0, 16, r010⟩) = some .colOffset ∧
    vecReason decls (ctxOf .e4 .move .src).toSupply (.general ⟨0, 7, 0, 0, r881⟩) = some .execBelowWidth ∧
    vecReason decls (ctxOf .e8 .move .src).toSupply (.general ⟨0, 7, 0, 0, ⟨5, 7, 2⟩⟩) = some .regionWidth ∧
    vecReason decls (ctxOf .e8 .move .src).toSupply (.general ⟨0, 7, 0, 0, ⟨5, 5, 5⟩⟩) = some .regionHorz ∧
    vecReason decls (ctxOf .e8 .move .src).toSupply (.general ⟨0, 7, 0, 0, ⟨0, 5, 2⟩⟩) = some .regionVert ∧
    vecReason decls (ctxOf .e8 .move .dst).toSupply (.general ⟨0, 7, 0, 0, ⟨2, 2, 1⟩⟩) = some .dstStrideZero ∧
    vecReason decls (ctxOf .e16 .move .src).toSupply (.general ⟨0, 8, 0, 0, ⟨6, 6, 2⟩⟩) = none := by decide
theorem witness_ExecSizeOverWidthExact : regionReason .src false ExecSize.e8.toNat r441 = none := by decide
theorem witness_ElementLayout : decls.varDecl 7 = some ⟨.uw, 64, none⟩ := by decide
theorem witness_ElementBytesLittleEndian :
    4 ≤ 8 ∧ elemRead (fill 5 4 32 [0x11223344] []) 5 4 32 = some 0x11223344 := by decide
theorem witness_SourceRegionIsThePseudocode : 0 < 4 ∧ 4 ∣ 8 := by decide

/-! ### General operands -/

/-- The last element of a destination region is stored to; T-RG25. -/
theorem test_exec_general_dst :
    ((after (exec (.opndGeneral ⟨0, 7, 3, 15, d1⟩)
      ((at_ (ctxOf .e1 .move .dst)).setLaneData (List.replicate 32 0x1234)))).bind
        fun t => elemRead t.gv 7 2 126) = some 0x1234 := by decide
/-- T-RG19, T-RG20: channel 15 indexes element 16 of 16, enabled or not. -/
theorem test_exec_general_bounds :
    faultOf (exec (.opndGeneral ⟨0, 8, 0, 1, ⟨6, 6, 2⟩⟩) (at_ (ctxOf .e16 .move .src))) = some (.u1 ⟨0, .src, 15⟩) ∧
    faultOf (exec (.opndGeneral ⟨0, 8, 0, 1, ⟨6, 6, 2⟩⟩) { at_ (ctxOf .e16 .move .src) with em := 1 }) =
      some (.u1 ⟨0, .src, 15⟩) := by decide
theorem witness_GeneralSourceDelivers :
    (withV1 (ctxOf .e8 .move .src)).ctx.place = .src ∧
    vecRefusal decls (ctxOf .e8 .move .src) (.general ⟨0, 1, 0, 0, r881⟩) = none ∧
    decls.varDecl 1 = some ⟨.uw, 32, none⟩ ∧
    (∀ c, c < 8 → srcElem sizes .uw ⟨0, 1, 0, 0, r881⟩ c < 32) ∧
    (∀ c, (withV1 (ctxOf .e8 .move .src)).enabled c = true →
      elemRead (withV1 (ctxOf .e8 .move .src)).gv 1 2 (srcElem sizes .uw ⟨0, 1, 0, 0, r881⟩ c * 2) ≠ none) ∧
    Ready (withV1 (ctxOf .e8 .move .src)) :=
  ⟨by decide, by decide, by decide, by decide, of_enabled (by decide), ready rfl rfl⟩
/-- Off the EU a source delivers every channel that has a value (R97), a disabled one among them. -/
theorem test_exec_general_off_EU :
    ((after (exec (.opndGeneral ⟨0, 1, 0, 0, r441⟩) { withV1 (ctxOf .e4 .scatter .src) with em := 1 })).map
      fun t => t.laneData.take 5) = some [10, 11, 12, 13, 0] ∧
    ((after (exec (.opndGeneral ⟨0, 1, 0, 0, r441⟩) { withV1 (ctxOf .e4 .move .src) with em := 1 })).map
      fun t => t.laneData.take 5) = some [10, 0, 0, 0, 0] := by decide
/-- Both clauses: T-SC1's shape, and T-SC2 (with `A1[0] = ptr(V5, 56)` for the address). -/
theorem witness_ScalarOperandsDeliver :
    (vecRefusal decls (ctxOf .e4 .move .scalar) (.general ⟨0, 1, 0, 3, ⟨15, 15, 15⟩⟩) = none ∧
     (0 : Nat) * (32 / 2) + 3 < 32 ∧
     elemRead (withV1 (ctxOf .e4 .move .scalar)).gv 1 2 (0 * 32 + 3 * 2) = some 13) ∧
    (vecRefusal decls (ctxOf .e4 .move .scalar) (.indirect ⟨0, 1, 0, 4, .ud, ⟨0, 2, 2⟩⟩) = none ∧
     (withA1 (ctxOf .e4 .move .scalar) 28).addrElem 1 0 = some ⟨5, 28⟩ ∧
     (∀ c, c < 4 → indFault (withA1 (ctxOf .e4 .move .scalar) 28) .scalar ⟨0, 1, 0, 4, .ud, ⟨0, 2, 2⟩⟩ c = none) ∧
     elemRead (withA1 (ctxOf .e4 .move .scalar) 28).gv 5 4 ((28 : Int) + (4 : Half).toInt).toNat =
       some 0x11223344) ∧
    Ready (withV1 (ctxOf .e4 .move .scalar)) ∧ Ready (withA1 (ctxOf .e4 .move .scalar) 28) :=
  ⟨by decide, by decide, ready rfl rfl, ready rfl rfl⟩
theorem witness_GeneralDestinationStores :
    (withLanes (ctxOf .e8 .move .dst)).ctx.place = .dst ∧
    vecRefusal decls (ctxOf .e8 .move .dst) (.general ⟨0, 7, 2, 4, ⟨0, 0, 3⟩⟩) = none ∧
    decls.varDecl 7 = some ⟨.uw, 64, none⟩ ∧
    ∀ c, c < 8 → dstElem sizes .uw ⟨0, 7, 2, 4, ⟨0, 0, 3⟩⟩ c < 64 := by decide
theorem witness_GeneralOutOfBoundsFaults :
    vecRefusal decls (ctxOf .e2 .move .dst) (.general ⟨0, 7, 3, 15, d1⟩) = none ∧
    decls.varDecl 7 = some ⟨.uw, 64, none⟩ ∧ 1 < ExecSize.e2.toNat ∧
    (∀ k, k < 1 → genElem sizes .uw .dst ⟨0, 7, 3, 15, d1⟩ k < 64) ∧
    64 ≤ genElem sizes .uw .dst ⟨0, 7, 3, 15, d1⟩ 1 := by decide
/-- Every used parameter illegal in turn (T-RF7 to T-RF14, T-RG21), at a source and at a destination. -/
theorem witness_RegionRestrictionsRefused :
    ¬ RegionLegal .src False 8 ⟨5, 7, 2⟩ ∧ ¬ RegionLegal .src False 8 ⟨5, 5, 5⟩ ∧ ¬ RegionLegal .src False 8 ⟨8, 5, 2⟩ ∧
    ¬ RegionLegal .src False 8 ⟨0, 5, 2⟩ ∧ ¬ RegionLegal .src True 4 ⟨0, 5, 2⟩ ∧ ¬ RegionLegal .dst False 8 ⟨2, 2, 1⟩ ∧
    ¬ RegionLegal .dst True 8 ⟨0, 2, 2⟩ ∧ RegionLegal .src True 8 ⟨0, 5, 2⟩ ∧ RegionLegal .dst False 8 ⟨0, 15, 4⟩ := by
  simp only [RegionLegal]
  decide
theorem witness_StaticFailureRefuses :
    staticRefusal decls (ctxOf .e4 .move .dst) (.opndGeneral ⟨0, 1, 0, 0, ⟨2, 2, 1⟩⟩) =
      some (.dst, .dstStrideZero) := by decide

/-! ### Indirect operands (T-IN) -/

/-- T-IN2: the same bytes read in another type, least significant first. -/
theorem test_exec_indirect_src :
    ((after (exec (.opndIndirect ⟨0, 1, 0, BitVec.ofInt 16 (-32), .uw, r881⟩) (withA1 (ctxOf .e8 .move .src) 64))).map
      fun t => (t.laneData.getD 0 0, t.laneData.getD 1 0)) = some (0x3344, 0x1122) := by decide
/-- T-IN3 to T-IN7. -/
theorem test_exec_indirect_faults :
    faultOf (exec (.opndIndirect ⟨0, 1, 0, 0, .uw, r010⟩) (withA1 (ctxOf .e1 .move .src) 1)) =
      some (.u3 ⟨0, .src, 0⟩) ∧
    faultOf (exec (.opndIndirect ⟨0, 1, 0, BitVec.ofInt 16 (-2), .uw, r010⟩) (withA1 (ctxOf .e1 .move .src) 0)) =
      some (.u2 ⟨0, .src, 0⟩) ∧
    faultOf (exec (.opndIndirect ⟨0, 1, 0, 0, .ud, r881⟩) (withA1 (ctxOf .e8 .move .src) 56)) =
      some (.u2 ⟨0, .src, 2⟩) ∧
    faultOf (exec (.opndIndirect ⟨0, 1, 0, 0, .uw, r010⟩) (withA1 (ctxOf .e1 .move .src) 63)) =
      some (.u2 ⟨0, .src, 0⟩) ∧
    faultOf (exec (.opndIndirect ⟨0, 1, 0, 0, .uw, r010⟩) (at_ (ctxOf .e1 .move .src))) =
      some (.u2 ⟨0, .src, 0⟩) := by decide
theorem witness_IndirectSingleSourceDelivers :
    (withA1 (ctxOf .e8 .move .src) 64).ctx.place = .src ∧ countOf r881.vert ≠ .null ∧
    vecRefusal decls (ctxOf .e8 .move .src) (.indirect ⟨0, 1, 0, BitVec.ofInt 16 (-32), .ud, r881⟩) = none ∧
    (withA1 (ctxOf .e8 .move .src) 64).addrElem 1 0 = some ⟨5, 64⟩ ∧
    (∀ c, c < 8 →
      indFault (withA1 (ctxOf .e8 .move .src) 64) .src ⟨0, 1, 0, BitVec.ofInt 16 (-32), .ud, r881⟩ c = none) ∧
    (∀ c, (withA1 (ctxOf .e8 .move .src) 64).enabled c = true →
      elemRead (withA1 (ctxOf .e8 .move .src) 64).gv 5 4
        ((64 : Int) + (BitVec.ofInt 16 (-32)).toInt + (((c / 8) * 8 + (c % 8) * 1 : Nat) : Int) * 4).toNat =
        some (if c = 0 then 0x11223344 else BitVec.ofNat 64 (c + 1))) :=
  ⟨by decide, by decide, by decide, by decide, by decide, of_enabled (by decide)⟩
/-- T-IN9: two rows of four from two variables. -/
theorem witness_IndirectMultiSourceDelivers :
    (withA0 (ctxOf .e8 .move .src)).ctx.place = .src ∧ countOf (0 : BitVec 4) = .null ∧
    vecRefusal decls (ctxOf .e8 .move .src) (.indirect ⟨0, 0, 0, 0, .uw, ⟨0, 4, 2⟩⟩) = none ∧
    (∀ c, c < 8 → indFault (withA0 (ctxOf .e8 .move .src)) .src ⟨0, 0, 0, 0, .uw, ⟨0, 4, 2⟩⟩ c = none) ∧
    (∀ i, i < 8 / 4 → (withA0 (ctxOf .e8 .move .src)).addrElem 0 (0 + i) =
      some (if i = 0 then ⟨1, 0⟩ else ⟨2, 32⟩)) ∧
    (∀ c, (withA0 (ctxOf .e8 .move .src)).enabled c = true →
      elemRead (withA0 (ctxOf .e8 .move .src)).gv (if c / 4 = 0 then 1 else 2) 2
        ((if c / 4 = 0 then (0 : Int) else 32) + 0 + (((c % 4) * 1 * 2 : Nat) : Int)).toNat =
        some (BitVec.ofNat 64 (if c / 4 = 0 then 10 + c else 16 + c))) :=
  ⟨by decide, by decide, by decide, by decide, by decide, of_enabled (by decide)⟩
/-- T-IN14's shape: `<1>` from byte 16 of V3. -/
theorem witness_IndirectDestinationStores :
    vecRefusal decls (ctxOf .e4 .move .dst) (.indirect ⟨0, 0, 2, 16, .ud, d1⟩) = none ∧
    ((withLanes (ctxOf .e4 .move .dst)).setAv [(avKey 0 2, ⟨3, 0⟩)]).addrElem 0 2 = some ⟨3, 0⟩ ∧
    ∀ c, c < 4 → indFault ((withLanes (ctxOf .e4 .move .dst)).setAv [(avKey 0 2, ⟨3, 0⟩)]) .dst
      ⟨0, 0, 2, 16, .ud, d1⟩ c = none := by decide
/-- Every clause: no address value; an undeclared variable; a variable declared V; out of bounds at either end;
misaligned; a span of three registers (T-IN13); none of these, at the last byte of the variable. -/
theorem witness_IndirectChecks :
    (decls.addrDecl 1 = some ⟨1, true⟩ ∧ 0 + indRow .src ⟨0, 1, 0, 0, .uw, r010⟩ 0 < 1 ∧
      (at_ (ctxOf .e1 .move .src)).addrElem 1 0 = none) ∧
    (withA1 (ctxOf .e1 .move .src) 63).addrElem 1 0 = some ⟨5, 63⟩ ∧
    (VarDecl.baseAlign ⟨.ud, 16, none⟩ sizes, VarDecl.baseAlign ⟨.uw, 8, some 5⟩ sizes,
      VarDecl.baseAlign ⟨.uw, 8, none⟩ sizes) = (32, 32, 2) ∧
    (indLoc ((at_ (ctxOf .e1 .move .src)).setAv [(avKey 1 0, ⟨99, 0⟩)]) .src ⟨0, 1, 0, 0, .uw, r010⟩ 0 = some ⟨99, 0⟩ ∧
      decls.varDecl 99 = none) ∧
    (indLoc ((at_ (ctxOf .e1 .move .src)).setAv [(avKey 1 0, ⟨15, 0⟩)]) .src ⟨0, 1, 0, 0, .uw, r010⟩ 0 = some ⟨15, 0⟩ ∧
      decls.varDecl 15 = some ⟨.v, 16, none⟩ ∧ Ty.v.isData = false) ∧
    (indLoc (withA1 (ctxOf .e1 .move .src) 63) .src ⟨0, 1, 0, 0, .uw, r010⟩ 0 = some ⟨5, 63⟩ ∧
      decls.varDecl 5 = some ⟨.ud, 16, none⟩ ∧ ¬ ((0 : Int) ≤ 63 ∧ (63 : Int) + 2 ≤ (16 * 4 : Nat))) ∧
    indLoc (withA1 (ctxOf .e1 .move .src) (-1)) .src ⟨0, 1, 0, 0, .ub, r010⟩ 0 = some ⟨5, -1⟩ ∧
    ¬ ((2 : Int) ∣ 61 ∧ 2 ∣ VarDecl.baseAlign ⟨.ud, 16, none⟩ sizes) ∧
    ((32 ≤ 64 * 2) ∧
      indRow .src ⟨0, 0, 0, 0, .uw, ⟨7, 5, 2⟩⟩ 0 = indRow .src ⟨0, 0, 0, 0, .uw, ⟨7, 5, 2⟩⟩ 8 ∧
      indLoc ((at_ (ctxOf .e16 .move .src)).setAv [(avKey 0 0, ⟨9, 0⟩)]) .src ⟨0, 0, 0, 0, .uw, ⟨7, 5, 2⟩⟩ 0 =
        some ⟨9, 0⟩ ∧
      indLoc ((at_ (ctxOf .e16 .move .src)).setAv [(avKey 0 0, ⟨9, 0⟩)]) .src ⟨0, 0, 0, 0, .uw, ⟨7, 5, 2⟩⟩ 8 =
        some ⟨9, 64⟩ ∧ (0 / 32 + 1 < 64 / 32)) ∧
    indFault (withA1 (ctxOf .e1 .move .src) 62) .src ⟨0, 1, 0, 0, .uw, r010⟩ 0 = none := by decide
/-- An indirect operand alone (T-IN5), a general operand alone (T-RG19), and both sides of HCOPY: program 4's source,
and a destination checked before the source of the same channel. -/
theorem witness_FirstFailureRaised :
    (vecRefusal decls (ctxOf .e8 .move .src) (.indirect ⟨0, 1, 0, 0, .ud, r881⟩) = none ∧ 2 < ExecSize.e8.toNat ∧
     (∀ k, k < 2 → dataFault (withA1 (ctxOf .e8 .move .src) 56) .src (.indirect ⟨0, 1, 0, 0, .ud, r881⟩) k = none) ∧
     dataFault (withA1 (ctxOf .e8 .move .src) 56) .src (.indirect ⟨0, 1, 0, 0, .ud, r881⟩) 2 =
       some (.u2 ⟨0, .src, 2⟩)) ∧
    (vecRefusal decls (ctxOf .e16 .move .src) (.general ⟨0, 8, 0, 1, ⟨6, 6, 2⟩⟩) = none ∧
     (∀ k, k < 15 → dataFault (at_ (ctxOf .e16 .move .src)) .src (.general ⟨0, 8, 0, 1, ⟨6, 6, 2⟩⟩) k = none) ∧
     dataFault (at_ (ctxOf .e16 .move .src)) .src (.general ⟨0, 8, 0, 1, ⟨6, 6, 2⟩⟩) 15 = some (.u1 ⟨0, .src, 15⟩)) ∧
    (hcopyRefusal decls .e8 .m1 PredWord.zero (.general ⟨0, 8, 0, 12, ⟨2, 2, 2⟩⟩) (.indirect ⟨0, 1, 0, 0, .uw, r881⟩) =
       none ∧
     (∀ k, k < 4 → dataFault (withA1 Ctx.reset 56) .dst (.general ⟨0, 8, 0, 12, ⟨2, 2, 2⟩⟩) k = none ∧
       dataFault (withA1 Ctx.reset 56) .src (.indirect ⟨0, 1, 0, 0, .uw, r881⟩) k = none) ∧
     dataFault (withA1 Ctx.reset 56) .dst (.general ⟨0, 8, 0, 12, ⟨2, 2, 2⟩⟩) 4 = some (.u1 ⟨0, .dst, 4⟩) ∧
     dataFault (withA1 Ctx.reset 56) .src (.indirect ⟨0, 1, 0, 0, .uw, r881⟩) 4 = some (.u2 ⟨0, .src, 4⟩)) ∧
    PredReady (withA1 Ctx.reset 56) ExecSize.e8.toNat .m1 PredWord.zero :=
  ⟨by decide, by decide, by decide, witness_MaskFits.1 .e8, .inl rfl⟩
/-- Destination before source within a channel (R136 step 2, R142). -/
theorem test_exec_hcopy_first_failure :
    faultOf (exec (.hcopy .e8 .m1 PredWord.zero (.general ⟨0, 8, 0, 12, ⟨2, 2, 2⟩⟩)
      (.indirect ⟨0, 1, 0, 0, .uw, r881⟩)) (withA1 Ctx.reset 56)) = some (.u1 ⟨0, .dst, 4⟩) := by decide
theorem witness_IndirectSpanHolds :
    (∀ c, c < 8 → indFault (withA1 (ctxOf .e8 .move .src) 16) .src ⟨0, 1, 0, 0, .ud, r881⟩ c = none) ∧
    indRow .src ⟨0, 1, 0, 0, .ud, r881⟩ 0 = indRow .src ⟨0, 1, 0, 0, .ud, r881⟩ 7 ∧
    indLoc (withA1 (ctxOf .e8 .move .src) 16) .src ⟨0, 1, 0, 0, .ud, r881⟩ 7 = some ⟨5, 44⟩ ∧
    indLoc (withA1 (ctxOf .e8 .move .src) 16) .src ⟨0, 1, 0, 0, .ud, r881⟩ 0 = some ⟨5, 16⟩ ∧
    decls.varDecl 5 = some ⟨.ud, 16, none⟩ := by decide

/-! ### Immediates (T-IM) -/

/-- T-IM3, T-IM7 (its first and last element), T-IM8. -/
theorem test_exec_immediate32 :
    ((after (exec (.opndImmediate32 ⟨.ub, 0x180⟩) (at_ (ctxOf .e16 .move .src)))).map
      fun t => t.laneData.getD 15 0) = some 0x80 ∧
    ((after (exec (.opndImmediate32 ⟨.v, 0xFEDCBA98⟩) (at_ (ctxOf .e8 .move .src)))).map
      fun t => (t.laneData.getD 0 0, t.laneData.getD 7 0)) = some (0xFFF8, 0xFFFF) ∧
    ((after (exec (.opndImmediate32 ⟨.uv, 0xFEDCBA98⟩) (at_ (ctxOf .e4 .move .src)))).map
      fun t => (t.laneData.getD 3 0, t.laneData.getD 4 0)) = some (11, 0) := by decide
/-- T-IM4. -/
theorem test_exec_immediate64 :
    ((after (exec (.opndImmediate64 ⟨.q, 0xFFFFFFFE, 0xFFFFFFFF⟩) (at_ (ctxOf .e2 .move .scalar)))).map
      fun t => t.laneData.getD 1 0) = some 0xFFFFFFFFFFFFFFFE := by decide
/-- Both lengths. -/
theorem witness_ImmediateReplicates :
    (at_ (ctxOf .e16 .move .src)).ctx.place ≠ .dst ∧ Ready (at_ (ctxOf .e16 .move .src)) ∧
    (Ty.w ≠ .bool ∧ Ty.w.isLong = false ∧ Ty.w.isPacked = false) ∧ Ty.uq.isLong = true :=
  ⟨by decide, ready rfl rfl, by decide, by decide⟩
/-- Eight channels of V or UV and four of VF, under the default PackedImm and under another. -/
theorem witness_PackedImmediatesDeliver :
    ((at_ (ctxOf .e8 .move .src)).ctx.place = .src ∧ chans (at_ (ctxOf .e8 .move .src)) ≤ Ty.uv.packedCount ∧
      Ready (at_ (ctxOf .e8 .move .src))) ∧
    ((at_ (ctxOf .e4 .move .src)).ctx.place = .src ∧ chans (at_ (ctxOf .e4 .move .src)) ≤ Ty.vf.packedCount ∧
      Ready (at_ (ctxOf .e4 .move .src))) ∧ decls.packed = .fields ∧
    Ready { at_ (ctxOf .e4 .move .src) with launch := { decls with packed := .unknown } } :=
  ⟨⟨by decide, by decide, ready rfl rfl⟩, ⟨by decide, by decide, ready rfl rfl⟩, rfl, ready rfl rfl⟩
/-- T-IM9, each clause: 16 channels of V, eight of VF, a scalar place. -/
theorem witness_PackedImmediateRefusals :
    (Ty.v.isPacked = true ∧ Ty.v.packedCount < chans (at_ (ctxOf .e16 .move .src))) ∧
    (Ty.vf.isPacked = true ∧ Ty.vf.packedCount < chans (at_ (ctxOf .e8 .move .src))) ∧
    (at_ (ctxOf .e1 .move .scalar)).ctx.place = .scalar := by decide
theorem witness_ImmediateNeverDestination : (at_ (ctxOf .e1 .move .dst)).ctx.place = .dst := by decide

/-! ### Address operands (T-AD) -/

/-- A2 of eight elements: element k is `ptr(V1, 2k)`. -/
def withA2 (c : Ctx) : State :=
  (at_ c).setAv ((List.range 8).map fun k => (avKey 2 k, ⟨1, (2 * k : Nat)⟩))
/-- T-AD1: elements 1, 2, 1, 2, ... -/
theorem test_exec_address_src :
    ((after (exec (.opndAddress ⟨2, 1, 2⟩) (withA2 (ctxOf .e8 .addrAdd .src)))).map fun t => t.lanePtr.take 8) =
      some [⟨1, 2⟩, ⟨1, 4⟩, ⟨1, 2⟩, ⟨1, 4⟩, ⟨1, 2⟩, ⟨1, 4⟩, ⟨1, 2⟩, ⟨1, 4⟩] := by decide
/-- T-AD3 (a) to (c), T-AD4 and T-AD5. -/
theorem test_address_bounds :
    vecReason decls (ctxOf .e8 .addrAdd .src).toSupply (.address ⟨0, 2, 2⟩) = none ∧
    vecReason decls (ctxOf .e8 .addrAdd .src).toSupply (.address ⟨1, 0, 1⟩) = none ∧
    vecReason decls (ctxOf .e8 .addrAdd .src).toSupply (.address ⟨0, 3, 2⟩) = some .addrBound ∧
    vecReason decls (ctxOf .e4 .addrAdd .dst).toSupply (.address ⟨0, 1, 0x20⟩) = some .addrBound ∧
    vecReason decls (ctxOf .e4 .addrAdd .dst).toSupply (.address ⟨2, 1, 0x20⟩) = none ∧
    vecReason decls (ctxOf .e8 .addrAdd .src).toSupply (.address ⟨2, 0, 3⟩) = some .addrWidth ∧
    vecReason decls (ctxOf .e8 .hcopy .src).toSupply (.address ⟨2, 0, 1⟩) = some .classNotAdmitted := by decide
theorem witness_AddressSourceReplicates :
    vecRefusal decls (ctxOf .e8 .addrAdd .src) (.address ⟨2, 1, 2⟩) = none ∧ decls.addrDecl 2 = some ⟨8, true⟩ ∧
    (1 + 2 ≤ 8) ∧
    (∀ c, (withA2 (ctxOf .e8 .addrAdd .src)).enabled c = true →
      (withA2 (ctxOf .e8 .addrAdd .src)).addrElem 2 (1 + c % 2) = some ⟨1, (2 * (1 + c % 2) : Nat)⟩) :=
  ⟨by decide, by decide, by decide, of_enabled (by decide)⟩
theorem witness_AddressDestinationWrites :
    vecRefusal decls (ctxOf .e8 .specialAddress .dst) (.address ⟨2, 0, 0⟩) = none ∧
    decls.addrDecl 2 = some ⟨8, true⟩ ∧ 0 + ExecSize.e8.toNat ≤ 8 := by decide
/-- An address operand whose first element beyond is channel 3's: `offset + channel = n` (T-AD5's shape, U6 for a
count not known statically). -/
theorem test_exec_address_dst_bound :
    faultOf (exec (.opndAddress ⟨3, 1, 0⟩) (at_ (ctxOf .e4 .addrAdd .dst))) = some (.u6 ⟨0, .dst, 3⟩) ∧
    ((after (exec (.opndAddress ⟨2, 1, 0⟩)
      ((at_ (ctxOf .e4 .addrAdd .dst)).setLanePtr (List.replicate 32 ⟨7, 6⟩)))).map
        fun t => (t.addrElem 2 0, t.addrElem 2 1, t.addrElem 2 4, t.addrElem 2 5)) =
      some (none, some ⟨7, 6⟩, some ⟨7, 6⟩, none) := by decide
/-- Each clause at the first element beyond: U6, U7, U8, and U7 of the predication of pred_control, of an operand row
and of HCOPY. -/
theorem witness_SpecialBoundFaults :
    (vecRefusal decls (ctxOf .e4 .addrAdd .dst) (.address ⟨3, 1, 0⟩) = none ∧ decls.addrDecl 3 = some ⟨4, false⟩ ∧
      4 < 1 + ExecSize.e4.toNat) ∧
    (vecRefusal decls (ctxOf .e4 .setp .src) (.predicate ⟨⟨false, .seq, 6⟩⟩) = none ∧ predOffset decls .m1 = some 0 ∧
      decls.predDecl 6 = some ⟨2, false⟩ ∧ 2 < ExecSize.e4.toNat ∧ 2 ≤ 0 + 2 ∧ ∀ k, k < 2 → 0 + k < 2) ∧
    (decls.stateDecl .sampler 4 = some ⟨4, false⟩ ∧ 2 < ExecSize.e4.toNat ∧ 4 ≤ 2 + 2 ∧ ∀ k, k < 2 → 2 + k < 4) ∧
    (staticRefusal decls (ctxOf .e4 .move .src) (.predControl ⟨false, .seq, 6⟩) = none ∧
      staticRefusal decls { ctxOf .e4 .move .src with pred := ⟨false, .seq, 6⟩ } (.opndImmediate32 ⟨.uw, 7⟩) = none ∧
      staticRefusal decls Ctx.reset (.hcopy .e4 .m1 ⟨false, .seq, 6⟩ (.general ⟨0, 2, 0, 0, d1⟩)
        (.general ⟨0, 1, 0, 0, r441⟩)) = none) ∧
    BitBeyond (at_ Ctx.reset) 4 .m1 ⟨false, .seq, 6⟩ 2 :=
  ⟨by decide, by decide, by decide, by decide,
    rfl, 0, ⟨2, false⟩, by decide, by decide, by decide, by decide, by decide⟩

/-! ### Predicate operands and predication (T-PO, T-PR) -/

/-- EM and predicate 2's bits from element `n` on. -/
def withBits (c : Ctx) (em : Mask) (n : Nat) (bits : List Bool) : State :=
  { (at_ c).setPv (setBits 2 n bits []) with em := em }
/-- Program 2's shape: bits 4 to 7 under M2 (T-PO1 with predicate 2). -/
theorem test_exec_predicate_src :
    ((after (exec (.opndPredicate ⟨⟨false, .seq, 2⟩⟩)
      (withBits { ctxOf .e4 .setp .src with mask := .m2 } 0xF0 4 [true, false, true, true]))).map fun t => t.laneBit) =
      some 0xD := by decide
theorem test_exec_predicate_dst :
    ((after (exec (.opndPredicate ⟨⟨false, .seq, 2⟩⟩)
      ((at_ { ctxOf .e4 .setp .dst with mask := .m2 }).setLaneBit 0x2))).map
        fun t => (t.predBit 2 3, t.predBit 2 4, t.predBit 2 5)) = some (none, some false, some true) := by decide
/-- T-PR1. -/
theorem test_exec_predControl :
    ((after (exec (.predControl ⟨false, .seq, 2⟩)
      (withBits { ctxOf .e8 .move .src with mask := .m3 } 0x0000FF0F 8
        [true, false, true, false, true, false, true, false]))).map fun t => t.passed) = some 0x55 := by decide
/-- T-PR2, T-PR5, T-PR7, T-PR8, T-PR9, T-PR10: any, inverted all, inverted any, inverse, the clearing loop, M8. -/
theorem test_channel_enable :
    evalChEn (withBits (ctxOf .e4 .move .src) 3 0 [false, false, false, true]) 4 .m1 ⟨false, .any, 2⟩ = 0x3 ∧
    evalChEn (withBits (ctxOf .e4 .move .src) 0xF 0 [true, true, true, false]) 4 .m1 ⟨true, .all, 2⟩ = 0xF ∧
    evalChEn (withBits (ctxOf .e4 .move .src) 0xF 0 [false, false, false, false]) 4 .m1 ⟨true, .any, 2⟩ = 0xF ∧
    evalChEn (withBits (ctxOf .e8 .move .src) 0xFF 0 [true, true, false, false, true, false, true, false]) 8 .m1
      ⟨true, .seq, 2⟩ = 0xAC ∧
    evalChEn (withBits (ctxOf .e4 .move .src) 0xFFFFFFFF 0 [false, false, false, false]) 4 .m1 ⟨true, .seq, 2⟩ = 0xF ∧
    evalChEn (withBits (ctxOf .e4 .move .src) 0x90000000 0 []) 4 .m8 ⟨false, .seq, 0⟩ = 0x9 := by decide
/-- T-PR11: 8 + 28 > 32, with and without a predicate. -/
theorem test_mask_overrun :
    predControlReason decls 8 .m8 ⟨false, .seq, 0⟩ = some .maskOverrun ∧
    predControlReason decls 8 .m8 ⟨false, .seq, 2⟩ = some .maskOverrun := by decide
/-- Both ways to be ready: not predicated, and predicated with every bit holding a value. -/
theorem witness_PredControlCompletes :
    PredReady (withBits (ctxOf .e8 .move .src) 0 0 []) 8 .noMask ⟨false, .seq, 0⟩ ∧
    PredReady (withBits (ctxOf .e4 .move .src) 0xF 28 []) 4 .m8 ⟨false, .seq, 0⟩ ∧
    PredReady (withBits (ctxOf .e4 .move .src) 0xF 4 [true, false, true, false]) 4 .m2 ⟨true, .all, 2⟩ := by
  refine ⟨⟨fun off h => ?_, .inl (by decide)⟩, ⟨witness_MaskFits.2, .inl (by decide)⟩,
    ⟨fun off h => ?_, .inr ⟨4, ⟨16, true⟩, ?_⟩⟩⟩
  · cases h
  · cases h
    decide
  · decide
/-- T-PR14 for pred_control, and the same predicate over HCOPY and over an operand row; the missing bit is read though
EM has its channel disabled. -/
theorem witness_UnwrittenPredicateBitFaults :
    (staticRefusal decls (ctxOf .e8 .move .src) (.predControl ⟨false, .seq, 2⟩) = none ∧
      staticRefusal decls { ctxOf .e8 .move .src with pred := ⟨false, .seq, 2⟩ } (.opndGeneral ⟨0, 1, 0, 0, r881⟩) =
        none ∧
      staticRefusal decls Ctx.reset (.hcopy .e8 .m1 ⟨false, .seq, 2⟩ (.general ⟨0, 2, 0, 0, d1⟩)
        (.general ⟨0, 1, 0, 0, r881⟩)) = none) ∧
    BitMissing (withBits Ctx.reset 0x1F 0 [true, true, true, true, true]) 8 .m1 ⟨false, .seq, 2⟩ 5 :=
  ⟨by decide, rfl, 0, ⟨16, true⟩, by decide, by decide, by decide, by decide, by decide, by decide⟩
/-- Both ways a predicate can fail, of one word: the bound is checked first (U7 before U9, log entry 18). -/
theorem test_predicate_causes :
    faultOf (exec (.predControl ⟨false, .seq, 6⟩) (at_ (ctxOf .e4 .move .src))) = some (.u7 ⟨0, .pred, 2⟩) ∧
    faultOf (exec (.opndImmediate32 ⟨.uw, 7⟩)
      (at_ { ctxOf .e8 .move .src with pred := ⟨false, .any, 2⟩ })) = some (.u9 ⟨0, .pred, 0⟩) := by decide
/-- T-PR13, and T-PR11 over an operand row. -/
theorem witness_MaskControlOffsets :
    (at_ { ctxOf .e8 .move .src with mask := .noMask }).ctx.mask = .noMask ∧
    PredWord.isNone ⟨false, .seq, 2⟩ = false ∧ decls.noMaskPredOffset = none ∧ ¬ MaskFits 8 .m8 :=
  ⟨by decide, by decide, by decide, fun h => absurd (h 28 rfl) (by decide)⟩
/-- A raw operand whose instruction's execution size and mask control overrun EM is refused too (R93). -/
theorem test_raw_mask_overrun :
    refusalOf (exec (.rawOperand ⟨12, 0⟩)
      (at_ { exec := .e32, mask := .m2, user := .block, place := .dst, rawLen := 32, pred := PredWord.zero })) =
      some (.illFormed .maskOverrun .pred 0) := by decide
/-- Two states that differ only in predicate bit 4, which four channels under M1 do not read. -/
theorem witness_CombineBeforeInverse :
    (withBits Ctx.reset 3 0 [true, false, true, true, true]).launch =
      (withBits Ctx.reset 3 0 [true, false, true, true, false]).launch ∧
    (∀ n, n < 4 → (withBits Ctx.reset 3 0 [true, false, true, true, true]).predBit 2 (0 + n) =
      (withBits Ctx.reset 3 0 [true, false, true, true, false]).predBit 2 (0 + n)) ∧
    PredWord.isNone ⟨true, .any, 2⟩ = false := by decide
/-- T-PC7, T-PC8, T-PC9. -/
theorem witness_PredWordLayout :
    (0x1003 : Half).getLsbD 12 = true ∧ (0x6003 : Half).toNat / 8192 % 4 = 3 ∧
    ((0xC003 : Half).getLsbD 12 = false ∧ (0xC003 : Half).toNat / 8192 % 4 ≠ 3) := by decide
theorem witness_PredicateSourceDelivers :
    vecRefusal decls { ctxOf .e4 .setp .src with mask := .m2 } (.predicate ⟨⟨false, .seq, 2⟩⟩) = none ∧
    predOffset decls .m2 = some 4 ∧ decls.predDecl 2 = some ⟨16, true⟩ ∧ (4 + ExecSize.e4.toNat ≤ 16) ∧
    (∀ c, (withBits { ctxOf .e4 .setp .src with mask := .m2 } 0xF0 4 [true, false, true, true]).enabled c = true →
      (withBits { ctxOf .e4 .setp .src with mask := .m2 } 0xF0 4 [true, false, true, true]).predBit 2 (c + 4) =
        some (c != 1)) :=
  ⟨by decide, by decide, by decide, by decide, of_enabled (by decide)⟩
theorem witness_PredicateDestinationWrites :
    vecRefusal decls { ctxOf .e16 .comparison .dst with mask := .m1 } (.predicate ⟨⟨false, .seq, 5⟩⟩) = none ∧
    predOffset decls .m1 = some 0 ∧ decls.predDecl 5 = some ⟨16, true⟩ ∧ 0 + ExecSize.e16.toNat ≤ 16 := by decide

/-! ### State operands -/

/-- Sampler 3 of four elements, each holding a token. -/
def withSampler (c : Ctx) : State :=
  { at_ c with sv := (List.range 4).map fun k => (svKey .sampler 3 k, ⟨50 + k⟩) }
/-- What the operand denotes: elements 1 and 2 to two channels (R114). -/
theorem test_read_state :
    ((after (readState ⟨.sampler, 3, 1⟩ (withSampler (ctxOf .e2 .movs .src)))).map fun t => t.laneState.take 3) =
      some [⟨51⟩, ⟨52⟩, ⟨0⟩] := by decide
/-- T-ST1: only ADDR_ADD and MOVS take one, and only as a source; since they have no meaning it is refused there too
(R114). -/
theorem test_state_admission :
    vecReason decls (ctxOf .e1 .hcopy .src).toSupply (.state ⟨.sampler, 3, 1⟩) = some .classNotAdmitted ∧
    vecReason decls (ctxOf .e1 .movs .dst).toSupply (.state ⟨.sampler, 3, 1⟩) = some .stateDst ∧
    refusalOf (exec (.opndState ⟨.sampler, 3, 1⟩) (withSampler (ctxOf .e1 .addrAdd .src))) =
      some (.illFormed .stateUse .src 0) := by decide
/-- For the second clause of StateOperandRefused; and a use that the check of its first clause names. -/
theorem witness_StateOperandRefused :
    Ready (withSampler (ctxOf .e4 .movs .src)) ∧
    decls.stateDecl .sampler 3 = some ⟨4, true⟩ ∧ (0 + ExecSize.e4.toNat ≤ 4) ∧
    (∀ c, (withSampler (ctxOf .e4 .movs .src)).enabled c = true →
      (withSampler (ctxOf .e4 .movs .src)).stateElem .sampler 3 (0 + c) = some ⟨50 + c⟩) ∧
    vecRefusal decls (ctxOf .e4 .movs .src) (.state ⟨.sampler, 3, 0⟩) = some (.src, .stateUse) :=
  ⟨ready rfl rfl, by decide, by decide, of_enabled (by decide), by decide⟩

/-! ### Raw operands (T-RW) -/

/-- A raw operand of `len` bytes at a place of a block access. -/
def rawCtx (p : Place) (len : Nat) : Ctx :=
  { exec := .e1, mask := .m1, user := .block, place := p, rawLen := len, pred := PredWord.zero }
/-- T-RW1's bytes: 64 and 65 of V12 are handed over. -/
theorem test_exec_raw_src :
    ((after (exec (.rawOperand ⟨12, 64⟩) ((at_ (rawCtx .src 2)).setGv (fill 12 1 64 [0xAB, 0xCD] [])))).map
      fun t => t.payload) = some [0xAB, 0xCD] := by decide
/-- Of a raw destination's bytes those that are returned are stored, and the others left (R97, R119). -/
theorem test_writeBytes :
    (List.range 4).map (fun k => byteOf? (writeBytes (fill 12 1 32 [1, 2, 3, 4] []) 12 32 [some 9, none, some 8]) 12
      (32 + k)) = [some 9, some 2, some 8, some 4] := by decide
/-- A raw operand's channel enable is passed to the shared function, at a destination and at a source (R97). -/
theorem test_exec_raw_passes :
    (after (exec (.rawOperand ⟨12, 32⟩) { at_ { rawCtx .dst 3 with exec := .e8 } with em := 0xA5 })).map
      (fun t => (t.passed, t.returns, t.pc)) = some (0xA5, 1, 1) ∧
    (after (exec (.rawOperand ⟨12, 64⟩) { at_ { rawCtx .src 2 with exec := .e8 } with
      em := 0xA5, gv := fill 12 1 64 [0xAB, 0xCD] [] })).map (fun t => t.passed) = some 0xA5 := by decide
/-- T-RW2 to T-RW6. -/
theorem test_raw_checks :
    faultOf (exec (.rawOperand ⟨12, 64⟩) (at_ (rawCtx .src 96))) = some (.u5 ⟨0, .src, 0⟩) ∧
    rawReason decls (rawCtx .src 16).toSupply ⟨12, 16⟩ = some .rawAlign ∧
    rawReason decls (rawCtx .src 16).toSupply ⟨14, 0⟩ = some .rawAlign ∧
    rawReason decls (rawCtx .src 16).toSupply ⟨13, 0⟩ = none ∧
    rawReason decls (rawCtx .dst 128).toSupply ⟨12, 0⟩ = none := by decide
theorem witness_RawSourceDelivers :
    rawRefusal decls (rawCtx .src 2) ⟨12, 64⟩ = none ∧ decls.varDecl 12 = some ⟨.ub, 128, none⟩ ∧
    64 + 2 ≤ 128 * 1 ∧
    ∀ i, i < 2 → byteOf? (fill 12 1 64 [0xAB, 0xCD] []) 12 (64 + i) = some (if i = 0 then 0xAB else 0xCD) := by decide
theorem witness_RawDestinationStores :
    rawRefusal decls (rawCtx .dst 128) ⟨12, 0⟩ = none ∧ decls.varDecl 12 = some ⟨.ub, 128, none⟩ ∧
    0 + 128 ≤ 128 * 1 := by decide
theorem witness_RawOutOfBoundsFaults :
    rawRefusal decls (rawCtx .src 65) ⟨12, 64⟩ = none ∧ rawRefusal decls (rawCtx .dst 65) ⟨12, 64⟩ = none ∧
    decls.varDecl 12 = some ⟨.ub, 128, none⟩ ∧ ¬ (64 + 65 ≤ 128 * 1) := by decide

/-! ### HCOPY (T-HC) -/

/-- The word of an unpredicated instruction. -/
def noPred : PredWord := ⟨false, .seq, 0⟩
/-- `V2(0,0)<1>` -/
def dstV2 : VecOpnd := .general ⟨0, 2, 0, 0, d1⟩
/-- `V1(0,0)<4;4,1>` -/
def srcV1 : VecOpnd := .general ⟨0, 1, 0, 0, r441⟩
/-- T-HC3: elements 0 and 2 of V1 hold 1 and 3, elements 1 and 3 nothing. -/
def holed (em : Mask) : State :=
  { (at_ Ctx.reset).setGv (fill 1 2 4 [3] (fill 1 2 0 [1] [])) with em := em }

/-- T-HC2: all reads precede all writes. -/
theorem test_exec_hcopy_overlap :
    ((after (exec (.hcopy .e4 .noMask noPred (.general ⟨0, 1, 0, 1, d1⟩) srcV1)
      ((at_ Ctx.reset).setGv (fill 1 2 0 [1, 2, 3, 4] [])))).map
        fun t => (List.range 5).map fun k => elemRead t.gv 1 2 (2 * k)) =
      some [some 1, some 1, some 2, some 3, some 4] := by decide
/-- T-HC3 and T-HC4: a disabled channel reads nothing; an enabled one must find a value. -/
theorem test_exec_hcopy_holes :
    ((after (exec (.hcopy .e4 .m1 noPred dstV2 srcV1) (holed 5))).map
      fun t => (List.range 4).map fun k => elemRead t.gv 2 2 (2 * k)) = some [some 1, none, some 3, none] ∧
    faultOf (exec (.hcopy .e4 .m1 noPred dstV2 srcV1) (holed 7)) = some (.u9 ⟨0, .src, 1⟩) := by decide
/-- T-HC5, T-HC6, program 5. -/
theorem test_hcopy_refused :
    refusalOf (exec (.hcopy .e4 .m1 noPred dstV2 (.general ⟨0, 3, 0, 0, r441⟩)) (at_ Ctx.reset)) =
      some (.illFormed .typeMismatch .src 0) ∧
    refusalOf (exec (.hcopy .e4 .m1 noPred dstV2 (.general ⟨3, 1, 0, 0, r441⟩)) (at_ Ctx.reset)) =
      some (.illFormed .harnessModifier .src 0) ∧
    refusalOf (exec (.hcopy .e4 .m1 noPred (.general ⟨0, 1, 0, 0, ⟨2, 2, 1⟩⟩) (.general ⟨0, 1, 0, 0, r010⟩))
      (at_ Ctx.reset)) = some (.illFormed .dstStrideZero .dst 0) := by decide
theorem witness_HcopyCopies :
    hcopyRefusal decls .e4 .m1 noPred dstV2 srcV1 = none ∧ PredReady (holed 5) 4 .m1 noPred ∧
    (∀ c, c < 4 → dataFault (holed 5) .dst dstV2 c = none ∧ dataFault (holed 5) .src srcV1 c = none) ∧
    (∀ c, (evalChEn (holed 5) 4 .m1 noPred).getLsbD c = true →
      dataValue (holed 5) .src srcV1 c = some (BitVec.ofNat 64 (c + 1))) :=
  ⟨by decide, ⟨witness_MaskFits.1 .e4, .inl (by decide)⟩, by decide, of_bit (by decide)⟩
/-- An indirect destination and a predicated copy meet the same hypotheses. -/
theorem witness_HcopyCopies_indirect :
    hcopyRefusal decls .e4 .m2 ⟨true, .seq, 2⟩ (.indirect ⟨0, 0, 2, 16, .ud, d1⟩) (.immediate32 ⟨.ud, 0x55⟩) = none ∧
    predOffset decls .m2 = some 4 ∧ decls.predDecl 2 = some ⟨16, true⟩ ∧
    (∀ n, n < 4 → (withBits Ctx.reset 0xFF 4 [true, false, true, false]).predBit 2 (4 + n) ≠ none) ∧
    (∀ c, c < 4 → dataFault ((withBits Ctx.reset 0xFF 4 [true, false, true, false]).setAv [(avKey 0 2, ⟨3, 0⟩)]) .dst
      (.indirect ⟨0, 0, 2, 16, .ud, d1⟩) c = none) := by decide
/-- HCOPY's clause: T-HC4. -/
theorem witness_UnwrittenSourceFaults_hcopy :
    hcopyRefusal decls .e4 .m1 noPred dstV2 srcV1 = none ∧ PredReady (holed 7) 4 .m1 noPred ∧
    (∀ k, k < 4 → dataFault (holed 7) .dst dstV2 k = none ∧ dataFault (holed 7) .src srcV1 k = none) ∧
    (evalChEn (holed 7) 4 .m1 noPred).getLsbD 1 = true ∧ dataValue (holed 7) .src srcV1 1 = none ∧
    (∀ k, k < 1 → (evalChEn (holed 7) 4 .m1 noPred).getLsbD k = true → dataValue (holed 7) .src srcV1 k ≠ none) :=
  ⟨by decide, ⟨witness_MaskFits.1 .e4, .inl (by decide)⟩, by decide, by decide, by decide, by decide⟩
/-- The other clauses: each source row in a state in which the element of channel 1 (byte 1) holds no value. -/
theorem witness_UnwrittenSourceFaults :
    (vecRefusal decls (ctxOf .e4 .move .src) srcV1 = none ∧ Ready { holed 7 with ctx := ctxOf .e4 .move .src } ∧
      (∀ k, k < 4 → dataFault { holed 7 with ctx := ctxOf .e4 .move .src } .src srcV1 k = none) ∧
      ({ holed 7 with ctx := ctxOf .e4 .move .src } : State).enabled 1 = true) ∧
    (vecRefusal decls (ctxOf .e4 .move .src) (.indirect ⟨0, 1, 0, 0, .ud, r441⟩) = none ∧
      (∀ k, k < 4 → dataFault (withA1 (ctxOf .e4 .move .src) 0) .src (.indirect ⟨0, 1, 0, 0, .ud, r441⟩) k = none) ∧
      dataValue (withA1 (ctxOf .e4 .move .src) 0) .src (.indirect ⟨0, 1, 0, 0, .ud, r441⟩) 0 = none) ∧
    (vecRefusal decls (ctxOf .e4 .addrAdd .src) (.address ⟨2, 0, 2⟩) = none ∧
      ((at_ (ctxOf .e4 .addrAdd .src)).setAv [(avKey 2 0, ⟨1, 0⟩)]).addrElem 2 (0 + 0 % 2) ≠ none ∧
      ((at_ (ctxOf .e4 .addrAdd .src)).setAv [(avKey 2 0, ⟨1, 0⟩)]).addrElem 2 (0 + 1 % 2) = none) ∧
    (vecRefusal decls (ctxOf .e4 .setp .src) (.predicate ⟨⟨false, .seq, 2⟩⟩) = none ∧
      (withBits (ctxOf .e4 .setp .src) 7 0 [true]).predBit 2 (0 + 1) = none) ∧
    (decls.stateDecl .sampler 4 = some ⟨4, false⟩ ∧ 0 + ExecSize.e2.toNat ≤ 4 ∧
      (at_ (ctxOf .e2 .movs .src)).stateElem .sampler 4 (0 + 0) = none) ∧
    (rawRefusal decls (rawCtx .src 2) ⟨12, 64⟩ = none ∧ byteOf? (fill 12 1 64 [0xAB] []) 12 (64 + 0) ≠ none ∧
      byteOf? (fill 12 1 64 [0xAB] []) 12 (64 + 1) = none) :=
  ⟨⟨by decide, ready rfl rfl, by decide, by decide⟩, by decide, by decide, by decide, by decide, by decide⟩
/-- What each of those rows raises (T-HC4's rule, R29): the first enabled channel, or byte, without a value. -/
theorem test_unwritten_sources :
    faultOf (exec srcV1.toInstr { holed 7 with ctx := ctxOf .e4 .move .src }) = some (.u9 ⟨0, .src, 1⟩) ∧
    faultOf (exec (.opndIndirect ⟨0, 1, 0, 0, .ud, r441⟩) (withA1 (ctxOf .e4 .move .src) 0)) =
      some (.u9 ⟨0, .src, 0⟩) ∧
    faultOf (exec (.opndAddress ⟨2, 0, 2⟩) ((at_ (ctxOf .e4 .addrAdd .src)).setAv [(avKey 2 0, ⟨1, 0⟩)])) =
      some (.u9 ⟨0, .src, 1⟩) ∧
    faultOf (exec (.opndPredicate ⟨⟨false, .seq, 2⟩⟩) (withBits (ctxOf .e4 .setp .src) 7 0 [true])) =
      some (.u9 ⟨0, .src, 1⟩) ∧
    faultOf (exec (.rawOperand ⟨12, 64⟩) ((at_ (rawCtx .src 2)).setGv (fill 12 1 64 [0xAB] []))) =
      some (.u9 ⟨0, .src, 1⟩) := by decide
/-- For HcopyIsItsPartsInTurn and HcopyFrame. -/
theorem witness_HcopyFrame : ∃ t, exec (.hcopy .e4 .m1 noPred dstV2 srcV1) (holed 5) = .next t :=
  next_of_after (by decide)
/-- The classes and types that HcopyAcceptedIff speaks of: accepted, and each refused (R136). -/
theorem test_hcopy_accepted :
    hcopyRefusal decls .e4 .m1 noPred dstV2 srcV1 = none ∧
    hcopyRefusal decls .e4 .m1 noPred dstV2 (.state ⟨.sampler, 3, 0⟩) = some (.src, .classNotAdmitted) ∧
    hcopyRefusal decls .e4 .m1 noPred (.address ⟨2, 0, 0⟩) srcV1 = some (.dst, .classNotAdmitted) := by decide

/-! ### Frames -/

/-- A source row of every kind reaches a next state. -/
theorem witness_SourceFrame :
    (∃ t, exec (.opndGeneral ⟨0, 1, 0, 0, r881⟩) (withV1 (ctxOf .e8 .move .src)) = .next t) ∧
    (∃ t, exec (.opndIndirect ⟨0, 1, 0, BitVec.ofInt 16 (-32), .ud, r881⟩) (withA1 (ctxOf .e8 .move .src) 64) =
      .next t) ∧
    (∃ t, exec (.opndAddress ⟨2, 1, 2⟩) (withA2 (ctxOf .e8 .addrAdd .src)) = .next t) ∧
    (∃ t, exec (.rawOperand ⟨12, 64⟩) ((at_ (rawCtx .src 2)).setGv (fill 12 1 64 [0xAB, 0xCD] [])) = .next t) ∧
    ∃ t, exec (.predControl noPred) (at_ (ctxOf .e8 .move .src)) = .next t :=
  ⟨next_of_after (by decide), next_of_after (by decide), next_of_after (by decide), next_of_after (by decide),
    next_of_after (by decide)⟩
theorem witness_ByteDestinationFrame :
    (∃ t, exec (.opndGeneral ⟨0, 7, 2, 4, ⟨0, 0, 3⟩⟩) (withLanes (ctxOf .e8 .move .dst)) = .next t) ∧
    (∃ t, exec (.opndIndirect ⟨0, 0, 2, 16, .ud, d1⟩)
      ((withLanes (ctxOf .e4 .move .dst)).setAv [(avKey 0 2, ⟨3, 0⟩)]) = .next t) ∧
    ∃ t, exec (.rawOperand ⟨12, 64⟩) ((at_ (rawCtx .dst 64)).setPayload [1, 3]) = .next t :=
  ⟨next_of_after (by decide), next_of_after (by decide), next_of_after (by decide)⟩
theorem witness_ElementDestinationFrame :
    (∃ t, exec (.opndAddress ⟨2, 0, 0⟩) (at_ (ctxOf .e8 .specialAddress .dst)) = .next t) ∧
    ∃ t, exec (.opndPredicate ⟨⟨false, .seq, 5⟩⟩) (at_ (ctxOf .e16 .comparison .dst)) = .next t :=
  ⟨next_of_after (by decide), next_of_after (by decide)⟩

/-! ### The machine -/

/-- Program 4's operation: `HCOPY (8) NoMask V8(0,0)<1> r[A1(0), 0]<8;8,1>:UW`, on V8. -/
def entry4 : Entry :=
  { supply := Ctx.reset.toSupply, pred := 0,
    code := .hcopy 8 .noMask 0 [0, 8, 0, 0, 0, 0, 0, 0x22, 2] [3, 1, 0, 0, 0, 0, 2, 0x55, 2] }
/-- Program 5's operation, whose destination stride decodes to 0. -/
def entry5 : Entry :=
  { supply := Ctx.reset.toSupply, pred := 0,
    code := .hcopy 4 .m1 0 [0, 1, 0, 0, 0, 0, 0, 0x22, 1] [0, 1, 0, 0, 0, 0, 0, 0x21, 1] }
/-- Program 4 at its launch. -/
def launch4 : State :=
  { (((at_ Ctx.reset).setGv (fill 8 2 0 [0, 1, 2, 3, 4, 5, 6, 7, 8, 9, 10, 11, 12, 13, 14, 15] [])).setAv
      [(avKey 1 0, ⟨8, 24⟩)]) with program := [entry4] }

/-- Program 4: fault U2 at operation 0, source operand, channel 4. -/
theorem test_step_program4 : faultOf (step launch4) = some (.u2 ⟨0, .src, 4⟩) := by decide
/-- Program 5: refused before any step, also where it stands behind a good operation. -/
theorem test_step_program5 :
    refusalOf (step { launch4 with program := [entry5] }) = some (.illFormed .dstStrideZero .dst 0) ∧
    refusalOf (step { launch4 with program := [entry4, entry5] }) = some (.illFormed .dstStrideZero .dst 1) := by decide
/-- R67's order across HCOPY's operands (R142): the destination's region before the source's tag. -/
theorem test_refusal_order :
    entryRefusal decls 0 { entry5 with code := .hcopy 4 .m1 0 [0, 1, 0, 0, 0, 0, 0, 0x22, 1] [0x40] } =
      some (.illFormed .dstStrideZero .dst 0) ∧
    entryRefusal decls 0 { entry5 with code := .hcopy 3 .m1 0 [0x40] [0x40] } =
      some (.illFormed .execSizeIllegal .opcode 0) ∧
    entryRefusal decls 0 { supply := (ctxOf .e4 .move .src).toSupply, pred := 0,
                           code := .vector [0x03, 1, 0, 0, 0x00, 0x02, 0x12, 0x75, 0x12] } =
      some (.illFormed .regionReserved .src 0) ∧
    entryRefusal decls 0 { supply := (ctxOf .e4 .addrAdd .src).toSupply, pred := 0,
                           code := .vector [0x09, 2, 0, 0, 3] } = some (.illFormed .addrWidth .src 0) := by decide
/-- A real vISA instruction is refused by its name (44_named_instructions.md R135). -/
theorem test_real_instruction :
    refusalOf (step { launch4 with program := [entry4, { entry4 with code := .real "ADDR_ADD" }] }) =
      some (.illFormed (.realInstruction "ADDR_ADD") .opcode 1) := by decide
/-- Loaded by its table word, every row but the reserved ones and the state operand runs as the first operation after
reset: general, address, predicate, indirect, both immediates, raw and predication control. The state operand is
refused, because of what uses it alone (R114). -/
theorem test_step_withFetchWord :
    [(72, 0x0001_02_01_00000005_00), (40, 0x02_01_0002_01), (24, 0x0005_02), (72, 0x0001_02_FFE0_02_0001_03),
      (48, 0x1234_02_05), (80, 0x7_0D_05), (48, 0x0040_0000000C), (16, 0xC003)].map
      (fun x => (after (step (State.reset.withFetchWord x.1 x.2))).map fun t => t.pc) =
      List.replicate 8 (some 1) ∧
    refusalOf (step (State.reset.withFetchWord 40 0x01_0003_01_06)) = some (.illFormed .stateUse .src 0) := by decide
theorem witness_StepRunsDecodedOperation :
    programRefusal launch4.launch 0 launch4.program = none ∧ launch4.program[launch4.pc]? = some entry4 ∧
    accepted (decode table entry4.code) = some (.hcopy .e8 .noMask noPred (.general ⟨0, 8, 0, 0, d1⟩)
      (.indirect ⟨0, 1, 0, 0, .uw, r881⟩)) := by decide
/-- The predication word of an operand row's instruction: T-PC4's, and T-PC8's refused. -/
theorem test_entry_predication :
    accepted (entryPredWord { entry4 with pred := 0x2003, code := .vector [] }) = some ⟨false, .any, 3⟩ ∧
    entryRefusal decls 0 { supply := (ctxOf .e4 .move .src).toSupply, pred := 0x6003,
                           code := .vector [5, 2, 0x34, 0x12, 0, 0] } =
      some (.illFormed .combineReserved .pred 0) := by decide
theorem witness_IllFormedProgramRefused :
    ([entry4, entry5] : List Entry)[1]? = some entry5 ∧
    entryRefusal decls 1 entry5 = some (.illFormed .dstStrideZero .dst 1) := by decide
/-- For AcceptedProgramNeverRefused and RunEndsAtProgramLength: inside the program and at its end. -/
theorem witness_RunEnds :
    programRefusal launch4.launch 0 launch4.program = none ∧ launch4.pc ≤ launch4.program.length ∧
    ({ launch4 with pc := 1 } : State).pc = launch4.program.length ∧
    accepted (entryPredWord entry4) = some noPred ∧
    staticRefusal launch4.launch { entry4.supply with pred := noPred } (.hcopy .e8 .noMask noPred
      (.general ⟨0, 8, 0, 0, d1⟩) (.indirect ⟨0, 1, 0, 0, .uw, r881⟩)) = none := by decide
/-- A fault for FaultCausesByRow. -/
theorem witness_FaultCausesByRow :
    faultOf (exec (.predControl ⟨false, .seq, 6⟩) (at_ (ctxOf .e4 .move .src))) = some (.u7 ⟨0, .pred, 2⟩) ∧
    MayRaise (.predControl ⟨false, .seq, 6⟩) (.u7 ⟨0, .pred, 2⟩) :=
  ⟨by decide, .inl ⟨rfl, fun _ => ⟨nofun, nofun⟩, nofun⟩⟩
/-- What reading past a state variable's end would raise (R114). -/
theorem test_read_state_bound :
    faultOf (readState ⟨.sampler, 4, 2⟩ (withSampler (ctxOf .e4 .movs .src))) = some (.u8 ⟨0, .src, 2⟩) := by decide

/-- One declared byte, V1's first, holds a value; the program is one immediate. -/
def smallRun : State :=
  { State.reset.withFetchWord 48 0x1234_02_05 with
    gv := [(1, 7)], launch := { State.reset.launch with vars := [(1, ⟨.uw, 32, none⟩)] } }

theorem smallRun_bytes (v : Word) (b : Nat) (h : byteOf? smallRun.gv v b ≠ none) : v = 1 ∧ b = 0 := by
  have hk : (1 : Nat) = gvKey v b := by
    by_contra hne
    apply h
    simp [byteOf?, smallRun, Store.get?, hne]
  have hv : (1 : Nat) = gvKey 1 0 := by decide
  rw [hv] at hk
  have := gvKey_inj.1 hk
  exact ⟨this.1.symm, this.2.symm⟩

/-- For StepKeepsInvariant and StepKeepsLaunch: a state that meets the invariant and takes a step. -/
theorem witness_StepKeepsInvariant : smallRun.Inv ∧ ∃ t, step smallRun = .next t := by
  refine ⟨⟨⟨by decide, by decide, by decide, by decide, by decide, by decide, by decide⟩,
    ⟨fun v b h => ?_, fun id k h => absurd rfl h, fun pid n h => absurd rfl h, fun cls id k h => absurd rfl h⟩,
    by decide⟩, next_of_after (by decide)⟩
  obtain ⟨rfl, rfl⟩ := smallRun_bytes v b h
  exact ⟨⟨.uw, 32, none⟩, by decide, by decide⟩

end Sys2Proof.Tests
end

section
/-!
SUPPORT. The obligations about the encoding (30_encoding.md): the class codes of the tag (R47), the region code table
(R50), the predication control word (R55, R56), and no immediate as a destination (R62).
-/

namespace Sys2Proof

/-! ### The tag of a vector operand -/

/-- The class code of an operand, bits 2:0 of its tag (R47). -/
def VecOpnd.classCode : VecOpnd → Nat
  | .general _ => 0
  | .address _ => 1
  | .predicate _ => 2
  | .indirect _ => 3
  | .immediate32 _ | .immediate64 _ => 5
  | .state _ => 6

/-- A decoding that never succeeds is a refusal. -/
theorem exists_error_of_ne_ok {ε α : Type} {x : Except ε α} (h : ∀ a, x ≠ .ok a) : ∃ e, x = .error e := by
  cases x with
  | error e => exact ⟨e, rfl⟩
  | ok a => exact absurd rfl (h a)

@[simp] theorem takeLE_one_cons (b : Byte) (bs : List Byte) : takeLE 1 (b :: bs) = .ok (b.toNat, bs) := rfl

/-- Which structure an accepted operand was read as: the one its tag's class code names (R47). -/
theorem decodeVecAt_cons_eq_ok {T : TypeTable} {use : Option Place} {t : Byte} {rest : List Byte}
    {x : VecOpnd × List Byte} (h : decodeVecAt T use (t :: rest) = .ok x) :
    (t.toNat % 8 = 0 ∧ decodeGen use (fieldOf 3 3 t.toNat) rest = .ok x) ∨
    (t.toNat % 8 = 1 ∧ decodeAddr use (fieldOf 3 3 t.toNat) rest = .ok x) ∨
    (t.toNat % 8 = 2 ∧ decodePred (fieldOf 3 3 t.toNat) rest = .ok x) ∨
    (t.toNat % 8 = 3 ∧ decodeInd T use (fieldOf 3 3 t.toNat) rest = .ok x) ∨
    (t.toNat % 8 = 5 ∧ decodeImm T (fieldOf 3 3 t.toNat) rest = .ok x) ∨
    (t.toNat % 8 = 6 ∧ decodeState (fieldOf 3 3 t.toNat) rest = .ok x) := by
  simp only [decodeVecAt, takeLE_one_cons, ok_bind, bind_eq_ok] at h
  obtain ⟨-, -, h⟩ := h
  split at h
  · next hc => exact .inl ⟨hc, h⟩
  · next hc => exact .inr (.inl ⟨hc, h⟩)
  · next hc => exact .inr (.inr (.inl ⟨hc, h⟩))
  · next hc => exact .inr (.inr (.inr (.inl ⟨hc, h⟩)))
  · next hc => exact .inr (.inr (.inr (.inr (.inl ⟨hc, h⟩))))
  · next hc => exact .inr (.inr (.inr (.inr (.inr ⟨hc, h⟩))))
  · cases h

theorem decodeGen_classCode {use : Option Place} {m : BitVec 3} {bs left : List Byte} {o : VecOpnd}
    (h : decodeGen use m bs = .ok (o, left)) : o.classCode = 0 := by
  simp only [decodeGen, bind_eq_ok, Except.ok.injEq, Prod.mk.injEq] at h
  obtain ⟨_, -, _, -, _, -, _, -, _, -, _, -, rfl, -⟩ := h
  rfl

theorem decodeAddr_classCode {use : Option Place} {m : BitVec 3} {bs left : List Byte} {o : VecOpnd}
    (h : decodeAddr use m bs = .ok (o, left)) : o.classCode = 1 := by
  simp only [decodeAddr, bind_eq_ok, Except.ok.injEq, Prod.mk.injEq] at h
  obtain ⟨_, -, _, -, _, -, _, -, _, -, rfl, -⟩ := h
  rfl

theorem decodePred_classCode {m : BitVec 3} {bs left : List Byte} {o : VecOpnd}
    (h : decodePred m bs = .ok (o, left)) : o.classCode = 2 := by
  simp only [decodePred, bind_eq_ok, Except.ok.injEq, Prod.mk.injEq] at h
  obtain ⟨_, -, _, -, _, -, _, -, rfl, -⟩ := h
  rfl

theorem decodeInd_classCode {T : TypeTable} {use : Option Place} {m : BitVec 3} {bs left : List Byte} {o : VecOpnd}
    (h : decodeInd T use m bs = .ok (o, left)) : o.classCode = 3 := by
  simp only [decodeInd, bind_eq_ok, Except.ok.injEq, Prod.mk.injEq] at h
  obtain ⟨_, -, _, -, _, -, _, -, _, -, _, -, _, -, _, -, _, -, _, -, rfl, -⟩ := h
  rfl

theorem decodeConst_classCode {ty : Ty} {bs left : List Byte} {o : VecOpnd}
    (h : decodeConst ty bs = .ok (o, left)) : o.classCode = 5 := by
  simp only [decodeConst, bind_eq_ok] at h
  obtain ⟨_, -, h⟩ := h
  split at h
  · simp only [bind_eq_ok, Except.ok.injEq, Prod.mk.injEq] at h
    obtain ⟨_, -, rfl, -⟩ := h
    rfl
  · simp only [Except.ok.injEq, Prod.mk.injEq] at h
    obtain ⟨rfl, -⟩ := h
    rfl

theorem decodeImm_classCode {T : TypeTable} {m : BitVec 3} {bs left : List Byte} {o : VecOpnd}
    (h : decodeImm T m bs = .ok (o, left)) : o.classCode = 5 := by
  simp only [decodeImm, bind_eq_ok, Except.ok.injEq] at h
  obtain ⟨_, -, _, hc, _, -, _, -, _, -, rfl⟩ := h
  exact decodeConst_classCode hc

theorem decodeState_classCode {m : BitVec 3} {bs left : List Byte} {o : VecOpnd}
    (h : decodeState m bs = .ok (o, left)) : o.classCode = 6 := by
  simp only [decodeState, bind_eq_ok, Except.ok.injEq, Prod.mk.injEq] at h
  obtain ⟨_, -, _, -, _, -, _, -, _, -, _, -, rfl, -⟩ := h
  rfl

/-- An accepted operand has the class its tag says. -/
theorem decodeVecAt_classCode {T : TypeTable} {use : Option Place} {t : Byte} {rest left : List Byte} {o : VecOpnd}
    (h : decodeVecAt T use (t :: rest) = .ok (o, left)) : t.toNat % 8 = o.classCode := by
  obtain ⟨ht, h⟩ | ⟨ht, h⟩ | ⟨ht, h⟩ | ⟨ht, h⟩ | ⟨ht, h⟩ | ⟨ht, h⟩ := decodeVecAt_cons_eq_ok h
  · rw [ht, decodeGen_classCode h]
  · rw [ht, decodeAddr_classCode h]
  · rw [ht, decodePred_classCode h]
  · rw [ht, decodeInd_classCode h]
  · rw [ht, decodeImm_classCode h]
  · rw [ht, decodeState_classCode h]

/-- No operand class has a reserved code (R47). -/
theorem VecOpnd.classCode_not_reserved (o : VecOpnd) : ¬ (o.classCode = 4 ∨ o.classCode = 7) := by
  cases o <;> simp [VecOpnd.classCode]

/-- No operand is read from a tag of reserved class, at any place. -/
theorem decodeVecAt_reserved (T : TypeTable) (use : Option Place) {t : Byte} (rest : List Byte)
    (ht : t.toNat % 8 = 4 ∨ t.toNat % 8 = 7) : ∃ r, decodeVecAt T use (t :: rest) = .error r := by
  refine exists_error_of_ne_ok fun ⟨o, left⟩ h => o.classCode_not_reserved ?_
  rwa [← decodeVecAt_classCode h]

/-- What the decoder makes of a tag of reserved class, if anything: the row of that class. -/
theorem decode_reserved {T : TypeTable} {t : Byte} {rest : List Byte} {i : Instr}
    (ht : t.toNat % 8 = 4 ∨ t.toNat % 8 = 7) (h : decode T (.vector (t :: rest)) = .ok i) :
    ∃ m, i = .opndReserved100 m ∨ i = .opndReserved111 m := by
  obtain ⟨r, hr⟩ := decodeVecAt_reserved T none rest ht
  by_cases h64 : t.toNat / 64 = 0
  · refine ⟨fieldOf 3 3 t.toNat, ?_⟩
    simp only [decode, reservedTag, h64, bne_self_eq_false, Bool.false_eq_true, if_false] at h
    obtain ht | ht := ht <;> simp only [ht, Except.ok.injEq] at h
    · exact .inl h.symm
    · exact .inr h.symm
  · simp [decode, reservedTag, h64, decodeVec, hr] at h

/-! ### The predication control word -/

theorem decodeCombine_eq_ok (n : Nat) (k : Combine) : decodeCombine n = .ok k ↔ n / 8192 % 4 = encodeCombine k := by
  rw [decodeCombine]
  split
  · next h => rw [h]; cases k <;> decide
  · next h => rw [h]; cases k <;> decide
  · next h => rw [h]; cases k <;> decide
  · next h0 h1 h2 =>
    have hk : n / 8192 % 4 ≠ encodeCombine k := by
      cases k
      · exact h0
      · exact h1
      · exact h2
    simp [hk]

theorem encodeCombine_ne_three (k : Combine) : encodeCombine k ≠ 3 := by cases k <;> decide

/-- Every combine code but the reserved one stands for a combine (R55). -/
theorem exists_encodeCombine_eq {c : Nat} (h4 : c < 4) (h3 : c ≠ 3) : ∃ k, encodeCombine k = c := by
  obtain rfl | rfl | rfl : c = 0 ∨ c = 1 ∨ c = 2 := by omega
  · exact ⟨.seq, rfl⟩
  · exact ⟨.any, rfl⟩
  · exact ⟨.all, rfl⟩

theorem encodeCombine_eq_zero (k : Combine) : encodeCombine k = 0 ↔ k = .seq := by cases k <;> decide

theorem PredWord.isNone_iff (w : PredWord) : w.isNone = true ↔ w.inv = false ∧ w.comb = .seq ∧ w.pid = 0 := by
  simp [PredWord.isNone, and_assoc]

/-- Bit `i` of a word as arithmetic, the form in which the decoder reads it. -/
theorem getLsbD_eq_div {w : Nat} (x : BitVec w) (i : Nat) : x.getLsbD i = decide (x.toNat / 2 ^ i % 2 = 1) := by
  rw [BitVec.getLsbD, Nat.testBit_eq_decide_div_mod_eq]

/-- The fields of an accepted predication control word (R55). -/
theorem decodePredWord_toNat_eq_ok (x : Half) (w : PredWord) :
    decodePredWord x.toNat = .ok w ↔
      x.getLsbD 12 = false ∧ x.toNat / 8192 % 4 = encodeCombine w.comb ∧ w.inv = x.getLsbD 15 ∧
        w.pid.toNat = x.toNat % 4096 := by
  have h12 : x.toNat / 4096 % 2 = 0 ↔ x.getLsbD 12 = false := by
    rw [getLsbD_eq_div, decide_eq_false_iff_not]
    omega
  have h15 : (x.toNat / 32768 % 2 != 0) = x.getLsbD 15 := by
    rw [getLsbD_eq_div, Bool.eq_iff_iff, bne_iff_ne, decide_eq_true_iff]
    omega
  have hpid : (fieldOf 12 0 x.toNat).toNat = x.toNat % 4096 := by simp [fieldOf]
  rw [decodePredWord_eq_ok, decodeCombine_eq_ok, h12, h15, ← BitVec.toNat_inj, hpid]

/-- Only the word 0 means that there is no predicate (R56). -/
theorem isNone_of_decodePredWord {x : Half} {w : PredWord} (h : decodePredWord x.toNat = .ok w) :
    w.isNone = true ↔ x = 0 := by
  obtain ⟨h12, hcomb, hinv, hpid⟩ := (decodePredWord_toNat_eq_ok x w).1 h
  rw [PredWord.isNone_iff, hinv, ← encodeCombine_eq_zero, ← hcomb, ← BitVec.toNat_inj, ← BitVec.toNat_inj, hpid]
  simp only [getLsbD_eq_div, decide_eq_false_iff_not, BitVec.ofNat_eq_ofNat, BitVec.toNat_ofNat, Nat.zero_mod,
    Nat.reducePow] at h12 ⊢
  omega

end Sys2Proof

namespace Sys2Proof.Machine

/-! ### Reserved classes are refused -/

theorem exec_reserved (m : BitVec 3) (s : State) :
    exec (.opndReserved100 m) s = .refused (.illFormed .reservedClass (placePos s.ctx.place) s.pc) ∧
    exec (.opndReserved111 m) s = .refused (.illFormed .reservedClass (placePos s.ctx.place) s.pc) := ⟨rfl, rfl⟩

/-- An entry whose operand the decoder rejects at its place is refused. -/
theorem entryRefusal_of_decodeVecAt_error {l : Launch} {c : Supply} {bs : List Byte} {r : Reason}
    (h : decodeVecAt l.types (some c.place) bs = .error r) (k : Nat) (w : Half) :
    entryRefusal l k ⟨c, w, .vector bs⟩ = some (.illFormed r (placePos c.place) k) := by
  simp [entryRefusal, codeRefusal, opndRefusal, h]

/-! ### What combine does (R94, R98) -/

theorem combineBit_eq_ite (k : Combine) (e : Nat) (p : Nat → Bool) (n : Nat) :
    combineBit k e p n =
      if encodeCombine k = 0 then p n
      else if encodeCombine k = 1 then decide (∃ j, j < e ∧ p j = true)
      else decide (∀ j, j < e → p j = true) := by
  cases k with
  | seq => rfl
  | any => rw [Bool.eq_iff_iff]; simp [combineBit, encodeCombine]
  | all => rw [Bool.eq_iff_iff]; simp [combineBit, encodeCombine]

/-! ### An operand that its using instruction does not admit -/

/-- An operand not admitted at its place fails a static check, that one or an earlier one. -/
theorem vecReason_of_admitReason {l : Launch} {c : Supply} {o : VecOpnd} {r : Reason} (h : admitReason c o = some r) :
    ∃ r', vecReason l c o = some r' := by
  rw [← Option.isSome_iff_exists]
  simp [vecReason, h]

theorem evalData_of_vecReason {o : VecOpnd} {s : State} {r : Reason}
    (h : vecReason s.launch s.ctx.toSupply o = some r) :
    evalData o s = .refused (.illFormed r (placePos s.ctx.place) s.pc) := by
  simp [evalData, vecRefusal, vecOwnRefusal, h]

@[simp] theorem hcopySupply_place (e : ExecSize) (m : MaskControl) (p : Place) : (hcopySupply e m p).place = p := rfl

/-- The destination's checks come first in an HCOPY (R142). -/
theorem execHcopy_of_vecReason_dst {e : ExecSize} {m : MaskControl} {dst : VecOpnd} {s : State} {r : Reason}
    (h : vecReason s.launch (hcopySupply e m .dst) dst = some r) (w : PredWord) (src : VecOpnd) :
    execHcopy e m w dst src s = .refused (.illFormed r .dst s.pc) := by
  simp [execHcopy, hcopyRefusal, vecOwnRefusal, h, placePos]

/-- No instruction admits an immediate as its destination (R62). -/
theorem admitReason_immediate_dst {c : Supply} (hc : c.place = .dst) {o : VecOpnd}
    (ho : (∃ i, o = .immediate32 i) ∨ ∃ i, o = .immediate64 i) : admitReason c o = some .immediateDst := by
  obtain ⟨i, rfl⟩ | ⟨i, rfl⟩ := ho
  · simp [admitReason, hc]
  · simp [admitReason, hc]

/-- So an immediate at a destination place is refused there. -/
theorem evalData_immediate_dst {s : State} (hs : s.ctx.place = .dst) {o : VecOpnd}
    (ho : (∃ i, o = .immediate32 i) ∨ ∃ i, o = .immediate64 i) :
    ∃ r, evalData o s = .refused (.illFormed r .dst s.pc) := by
  obtain ⟨r, hr⟩ := vecReason_of_admitReason (l := s.launch) (admitReason_immediate_dst hs ho)
  exact ⟨r, by rw [evalData_of_vecReason hr, hs, placePos]⟩

/-! ### The obligations -/

/-- Settles O4: an accepted tag leads to the decoder of its class alone, and none leads from a reserved one. -/
theorem operandClassCodes : Obligations.OperandClassCodes := by
  unfold Obligations.OperandClassCodes
  refine ⟨fun T t rest left o h => decodeVecAt_classCode h, fun t rest ht =>
    ⟨fun T => decodeVecAt_reserved T none rest ht, fun T i s h => ?_, fun l k c w => ?_⟩⟩
  · obtain ⟨m, rfl | rfl⟩ := decode_reserved ht h
    · exact ⟨_, (exec_reserved m s).1⟩
    · exact ⟨_, (exec_reserved m s).2⟩
  · obtain ⟨r, hr⟩ := decodeVecAt_reserved l.types (some c.place) rest ht
    exact ⟨_, entryRefusal_of_decodeVecAt_error hr k w⟩

/-- Settles O18: the decoder reads each field at its bits, and the combine code decides what combine does. -/
theorem predWordLayout : Obligations.PredWordLayout := by
  unfold Obligations.PredWordLayout
  refine fun x => ⟨fun hx => exists_error_of_ne_ok fun w h => ?_, fun h12 h3 => ?_⟩
  · obtain ⟨h12, hcomb, -, -⟩ := (decodePredWord_toNat_eq_ok x w).1 h
    obtain hx | hx := hx
    · exact absurd (h12.symm.trans hx) (by decide)
    · exact encodeCombine_ne_three w.comb (hcomb ▸ hx)
  · obtain ⟨k, hk⟩ := exists_encodeCombine_eq (Nat.mod_lt _ (by decide)) h3
    have hw : decodePredWord x.toNat = .ok ⟨x.getLsbD 15, k, BitVec.ofNat 12 x.toNat⟩ :=
      (decodePredWord_toNat_eq_ok x _).2 ⟨h12, hk.symm, rfl, BitVec.toNat_ofNat _ _⟩
    refine ⟨_, hw, rfl, BitVec.toNat_ofNat _ _, isNone_of_decodePredWord hw, fun s e m n _ => ?_⟩
    rw [pmaskBit, combineBit_eq_ite, hk]

/-- Settles O5, row by row of the table. -/
theorem regionCodeTable : Obligations.RegionCodeTable := by
  unfold Obligations.RegionCodeTable
  refine ⟨rfl, rfl, fun k h2 h7 => ?_, fun k h8 h15 => ?_⟩
  · interval_cases k <;> rfl
  · interval_cases k <;> rfl

/-- Settles O34: an immediate is admitted at no destination, and an HCOPY checks its destination first. -/
theorem immediateNeverDestination : Obligations.ImmediateNeverDestination := by
  unfold Obligations.ImmediateNeverDestination
  refine ⟨fun s hs => ⟨fun o => ?_, fun o => ?_⟩, fun s e m w dst src hdst => ?_⟩
  · exact evalData_immediate_dst hs (.inl ⟨o, rfl⟩)
  · exact evalData_immediate_dst hs (.inr ⟨o, rfl⟩)
  · obtain ⟨r, hr⟩ := vecReason_of_admitReason (l := s.launch) 
      (admitReason_immediate_dst (hcopySupply_place e m .dst) hdst)
    exact ⟨r, execHcopy_of_vecReason_dst hr w src⟩

end Sys2Proof.Machine
end

section
/-!
SUPPORT. The obligations about regions (40_regions.md): a region parameter that its place uses and that holds no legal
value is refused (R80, R81, R86).
-/

namespace Sys2Proof

/-! ### The checks of one parameter -/

theorem countIn_eq_true (c : BitVec 4) (legal : List Nat) :
    countIn c legal = true ↔ ∃ n ∈ legal, countOf c = .elems n := by
  rw [countIn]
  split
  · next n hn => simp [hn]
  · next hc => simpa using fun n _ => hc n

theorem vertLegal_eq_true (c : BitVec 4) :
    vertLegal c = true ↔ ∃ n ∈ [0, 1, 2, 4, 8, 16, 32], countOf c = .elems n := countIn_eq_true c _

theorem widthLegal_eq_true (c : BitVec 4) :
    widthLegal c = true ↔ ∃ n ∈ [1, 2, 4, 8, 16], countOf c = .elems n := countIn_eq_true c _

theorem horzLegal_eq_true (c : BitVec 4) :
    horzLegal c = true ↔ ∃ n ∈ [0, 1, 2, 4], countOf c = .elems n := countIn_eq_true c _

theorem vertNull_eq_true (r : Region) : vertNull r = true ↔ countOf r.vert = .null := beq_iff_eq

theorem countVal_of_countOf {c : BitVec 4} {n : Nat} (h : countOf c = .elems n) : countVal c = n := by
  rw [countVal, h]

/-- A destination's stride is a legal one other than 0 (R81). -/
theorem horzLegal_countVal_ne_zero (c : BitVec 4) :
    horzLegal c = true ∧ countVal c ≠ 0 ↔ ∃ n ∈ [1, 2, 4], countOf c = .elems n := by
  rw [horzLegal_eq_true]
  constructor
  · rintro ⟨⟨n, hn, hc⟩, h0⟩
    rw [countVal_of_countOf hc] at h0
    exact ⟨n, (List.mem_cons.1 hn).resolve_left h0, hc⟩
  · rintro ⟨n, hn, hc⟩
    refine ⟨⟨n, List.mem_cons_of_mem 0 hn, hc⟩, ?_⟩
    rw [countVal_of_countOf hc]
    rintro rfl
    exact absurd hn (by decide)

/-- A source's width is a legal one that the execution size reaches (R80). -/
theorem widthLegal_countVal_le (c : BitVec 4) (e : Nat) :
    widthLegal c = true ∧ countVal c ≤ e ↔ ∃ n ∈ [1, 2, 4, 8, 16], countOf c = .elems n ∧ n ≤ e := by
  rw [widthLegal_eq_true]
  constructor
  · rintro ⟨⟨n, hn, hc⟩, he⟩
    exact ⟨n, hn, hc, countVal_of_countOf hc ▸ he⟩
  · rintro ⟨n, hn, hc, he⟩
    exact ⟨⟨n, hn, hc⟩, (countVal_of_countOf hc).symm ▸ he⟩

/-! ### The checks of a place -/

theorem regionCodeReason_dst_eq_none (multi : Bool) (r : Region) :
    regionCodeReason .dst multi r = none ↔
      (horzLegal r.horz = true ∧ countVal r.horz ≠ 0) ∧ ¬ (multi = true ∧ vertNull r = true) := by
  simp [regionCodeReason, ite_eq_iff, and_comm, and_assoc]

theorem regionCodeReason_src_eq_none (multi : Bool) (r : Region) :
    regionCodeReason .src multi r = none ↔
      (vertLegal r.vert = true ∨ multi = true ∧ vertNull r = true) ∧ widthLegal r.width = true ∧
        horzLegal r.horz = true := by
  simp [regionCodeReason, ite_eq_iff, or_iff_not_imp_left]

end Sys2Proof

namespace Sys2Proof.Machine
open Sys2Proof.Claims

@[simp] theorem widthReason_src_eq_none (e : Nat) (r : Region) :
    widthReason .src e r = none ↔ countVal r.width ≤ e := by
  simp [widthReason]

theorem widthReason_of_ne_src {p : Place} (hp : p ≠ .src) (e : Nat) (r : Region) : widthReason p e r = none := by
  simp [widthReason, hp]

/-- The checks on a region are the restrictions on the parameters its place uses (R80, R81, R86, R116). -/
theorem regionReason_eq_none (p : Place) (multi : Bool) (e : Nat) (r : Region) :
    regionReason p multi e r = none ↔ RegionLegal p (multi = true) e r := by
  rw [regionReason, Option.or_eq_none_iff]
  cases p with
  | dst =>
    rw [regionCodeReason_dst_eq_none, horzLegal_countVal_ne_zero, vertNull_eq_true]
    simp [widthReason_of_ne_src, RegionLegal]
  | src =>
    rw [regionCodeReason_src_eq_none, widthReason_src_eq_none, vertLegal_eq_true, vertNull_eq_true,
      horzLegal_eq_true, RegionLegal, ← widthLegal_countVal_le]
    constructor
    · rintro ⟨⟨hvert, hwidth, hhorz⟩, he⟩
      exact ⟨hvert, ⟨hwidth, he⟩, hhorz⟩
    · rintro ⟨hvert, ⟨hwidth, he⟩, hhorz⟩
      exact ⟨⟨hvert, hwidth, hhorz⟩, he⟩
  | scalar => simp [regionCodeReason, widthReason_of_ne_src, RegionLegal]

/-! ### An accepted operand has a legal region -/

theorem genReason_eq_none_width {l : Launch} {c : Supply} {o : GenOpnd} (h : genReason l c o = none) :
    widthReason c.place c.exec.toNat o.region = none := by
  rw [genReason] at h
  split at h
  · cases h
  · split at h
    · cases h
    · exact (Option.or_eq_none_iff.1 h).1

theorem indReason_eq_none_width {l : Launch} {c : Supply} {o : IndOpnd} (h : indReason l c o = none) :
    widthReason c.place c.exec.toNat o.region = none := by
  rw [indReason] at h
  split at h
  · cases h
  · exact h

/-- The region checks are spread over the first and the last of an operand's checks. -/
theorem vecReason_eq_none {l : Launch} {c : Supply} {o : VecOpnd} :
    vecReason l c o = none ↔
      o.useReason c.place = none ∧ o.fieldReason = none ∧ modReason c.place c.user o.mods = none ∧
        admitReason c o = none ∧ classReason l c o = none := by
  simp only [vecReason, Option.or_eq_none_iff]

theorem regionLegal_of_vecReason_general {l : Launch} {c : Supply} {o : GenOpnd}
    (h : vecReason l c (.general o) = none) : RegionLegal c.place False c.exec.toNat o.region := by
  obtain ⟨huse, -, -, -, hclass⟩ := vecReason_eq_none.1 h
  have hr : regionReason c.place false c.exec.toNat o.region = none :=
    Option.or_eq_none_iff.2 ⟨huse, genReason_eq_none_width hclass⟩
  simpa using (regionReason_eq_none ..).1 hr

theorem regionLegal_of_vecReason_indirect {l : Launch} {c : Supply} {o : IndOpnd}
    (h : vecReason l c (.indirect o) = none) : RegionLegal c.place True c.exec.toNat o.region := by
  obtain ⟨huse, -, -, -, hclass⟩ := vecReason_eq_none.1 h
  have hr : regionReason c.place true c.exec.toNat o.region = none :=
    Option.or_eq_none_iff.2 ⟨huse, indReason_eq_none_width hclass⟩
  simpa using (regionReason_eq_none ..).1 hr

/-! ### An operand with a static failure is refused -/

theorem evalData_refused_of_vecReason_ne_none {o : VecOpnd} {s : State}
    (h : vecReason s.launch s.ctx.toSupply o ≠ none) :
    ∃ r, evalData o s = .refused (.illFormed r (placePos s.ctx.place) s.pc) := by
  obtain ⟨r, hr⟩ := Option.ne_none_iff_exists'.1 h
  exact ⟨r, evalData_of_vecReason hr⟩

theorem execHcopy_refused_of_hcopyRefusal_ne_none {e : ExecSize} {m : MaskControl} {w : PredWord} {dst src : VecOpnd}
    {s : State} (h : hcopyRefusal s.launch e m w dst src ≠ none) :
    ∃ r p, execHcopy e m w dst src s = .refused (.illFormed r p s.pc) := by
  obtain ⟨⟨p, r⟩, hpr⟩ := Option.ne_none_iff_exists'.1 h
  exact ⟨r, p, by rw [execHcopy, hpr, refuseIf_some]⟩

theorem vecReason_eq_none_of_hcopyRefusal {l : Launch} {e : ExecSize} {m : MaskControl} {w : PredWord}
    {dst src : VecOpnd} (h : hcopyRefusal l e m w dst src = none) :
    vecReason l (hcopySupply e m .dst) dst = none ∧ vecReason l (hcopySupply e m .src) src = none := by
  simp only [hcopyRefusal, Option.or_eq_none_iff, vecOwnRefusal, Option.map_eq_none_iff] at h
  obtain ⟨hdst, hsrc, -⟩ := h
  exact ⟨hdst, hsrc⟩

/-! ### The obligation -/

/-- Settles O13: an operand that passes its static checks has a legal region, and a static failure refuses. -/
theorem regionRestrictionsRefused : Obligations.RegionRestrictionsRefused := by
  unfold Obligations.RegionRestrictionsRefused
  refine ⟨fun s o hreg => ?_, fun s o hreg => ?_, fun s e m w dst src hreg => ?_⟩
  · exact evalData_refused_of_vecReason_ne_none (mt regionLegal_of_vecReason_general hreg)
  · exact evalData_refused_of_vecReason_ne_none (mt regionLegal_of_vecReason_indirect hreg)
  · refine execHcopy_refused_of_hcopyRefusal_ne_none fun hok => ?_
    obtain ⟨hdst, hsrc⟩ := vecReason_eq_none_of_hcopyRefusal hok
    obtain ⟨o, rfl, hreg⟩ | ⟨o, rfl, hreg⟩ | ⟨o, rfl, hreg⟩ | ⟨o, rfl, hreg⟩ := hreg
    · exact hreg (regionLegal_of_vecReason_general hdst)
    · exact hreg (regionLegal_of_vecReason_indirect hdst)
    · exact hreg (regionLegal_of_vecReason_general hsrc)
    · exact hreg (regionLegal_of_vecReason_indirect hsrc)

end Sys2Proof.Machine
end

section
/-!
SUPPORT. The obligation about the channel enable (41_predication.md): combine before inverse (R91), nothing at or above
the execution size and no influence of other predicate bits (R96), combine over the predicate bits alone (R98).
-/

namespace Sys2Proof.Machine

/-! ### What each part of the channel enable reads -/

/-- Combine looks at the predicate bits of the `e` channels only (R96). -/
theorem combineBit_congr {e : Nat} {p q : Nat → Bool} (h : ∀ k, k < e → p k = q k) (c : Combine) {n : Nat}
    (hn : n < e) : combineBit c e p n = combineBit c e q n := by
  have hiff (k : Nat) (hk : k < e) : p k = true ↔ q k = true := by rw [h k hk]
  cases c with
  | seq => exact h n hn
  | any => rw [Bool.eq_iff_iff]; simpa [combineBit] using exists_congr fun k => and_congr_right (hiff k)
  | all => rw [Bool.eq_iff_iff]; simpa [combineBit] using forall₂_congr hiff

/-- The base is EM's alone (R94). -/
theorem baseBit_of_em_eq {s t : State} (h : t.em = s.em) (m : MaskControl) (n : Nat) :
    baseBit t m n = baseBit s m n := by
  rw [baseBit, baseBit, h]

theorem predOff_of_launch_eq {s t : State} (h : t.launch = s.launch) (m : MaskControl) : predOff t m = predOff s m := by
  rw [predOff, predOff, h]

theorem pmaskBit_congr {s t : State} {e : Nat} {m : MaskControl} {w : PredWord}
    (h : ∀ k, k < e → predRead t m w.pid k = predRead s m w.pid k) {n : Nat} (hn : n < e) :
    pmaskBit t e m w n = pmaskBit s e m w n := by
  rw [pmaskBit, pmaskBit, combineBit_congr h w.comb hn]

/-- A channel's bit is decided by EM and the predicate bits of the `e` channels (R94, R96). -/
theorem chEnBit_congr {s t : State} {e : Nat} {m : MaskControl} {w : PredWord} (hem : t.em = s.em)
    (h : ∀ k, k < e → predRead t m w.pid k = predRead s m w.pid k) (n : Nat) :
    chEnBit t e m w n = chEnBit s e m w n := by
  by_cases hn : n < e
  · rw [chEnBit, chEnBit, baseBit_of_em_eq hem, pmaskBit_congr h hn]
  · simp [chEnBit, hn]

/-! ### The bits of ChEn -/

/-- No execution size is beyond the 32 bits of ChEn, so that each channel has its own bit (R2, R94). -/
theorem getLsbD_evalChEn (s : State) (e : ExecSize) (m : MaskControl) (w : PredWord) (n : Nat) :
    (evalChEn s e.toNat m w).getLsbD n = chEnBit s e.toNat m w n := by
  rw [evalChEn, getLsbD_maskOf]
  by_cases hn : n < 32
  · simp [hn]
  · have he : ¬ n < e.toNat := fun h => hn (h.trans_le e.toNat_le)
    simp [hn, he, chEnBit]

/-- A predicated channel's bit: its base and the combined predicate bits, inverted after that (R91, R94). -/
theorem getLsbD_evalChEn_of_predicated (s : State) {e : ExecSize} (m : MaskControl) {w : PredWord} {n : Nat}
    (hw : w.isNone = false) (hn : n < e.toNat) :
    (evalChEn s e.toNat m w).getLsbD n =
      (baseBit s m n && (combineBit w.comb e.toNat (predRead s m w.pid) n ^^ w.inv)) := by
  simp [getLsbD_evalChEn, chEnBit, pmaskBit, hw, hn]

/-! ### The obligation -/

/-- Settles O17: the bits of ChEn one by one, from what combine does to the predicate bits of the `e` channels. -/
theorem combineBeforeInverse : Obligations.CombineBeforeInverse := by
  unfold Obligations.CombineBeforeInverse
  refine fun s e m w => ⟨fun n hn => ?_, fun t hem hlaunch hbits => ?_, fun hw n hn => ?_⟩
  · simp [getLsbD_evalChEn, chEnBit, hn]
  · have hread : ∀ k, k < e.toNat → predRead t m w.pid k = predRead s m w.pid k := fun k hk => by
      rw [predRead, predRead, predOff_of_launch_eq hlaunch, hbits k hk]
    rw [evalChEn, evalChEn, funext (chEnBit_congr hem hread)]
  · rw [getLsbD_evalChEn_of_predicated s m hw hn, combineBit_eq_ite]
    refine ⟨fun hc => ?_, fun hc => ?_, fun hc => ?_⟩
    · simp [hc, encodeCombine]
    · simp [hc, encodeCombine]
    · simp [hc, encodeCombine]

end Sys2Proof.Machine
end

section
/-!
SUPPORT. The obligation about raw operands (43_raw_operands.md): bytes past the end of the variable raise U5 (R122).
-/

namespace Sys2Proof.Machine
open Sys2Proof.Claims

/-! ### A channel enable that is ready raises nothing -/

theorem predOff_of_predOffset {s : State} {m : MaskControl} {off : Nat} (h : predOffset s.launch m = some off) :
    predOff s m = off := by
  rw [predOff, h, Option.getD_some]

theorem predBoundFault_eq_none {s : State} {pos : Pos} {pid : BitVec 12} {off n : Nat} :
    predBoundFault s pos pid off n = none ↔ ∃ d, s.launch.predDecl pid = some d ∧ off + n < d.n := by
  rw [predBoundFault]
  split
  · next d hd => simp [hd]
  · next hd => simp [hd]

theorem predValueFault_eq_none {s : State} {pos : Pos} {pid : BitVec 12} {off n : Nat} :
    predValueFault s pos pid off n = none ↔ s.predBit pid (off + n) ≠ none := by
  rw [predValueFault]
  split
  · next b hb => simp [hb]
  · next hb => simp [hb]

/-- An instruction without predication reads no predicate bit; a predicated one whose `e` bits all exist and hold a
value reads them without a fault (R90, R94). -/
theorem chEnFault_of_predReady {s : State} {e : Nat} {m : MaskControl} {w : PredWord} (h : PredReady s e m w) :
    chEnFault s e m w = none := by
  obtain ⟨-, hnone | ⟨off, d, hoff, -, hd, hlen, hbits⟩⟩ := h
  · rw [chEnFault, if_pos hnone]
  · have hbound : firstFault e (predBoundFault s .pred w.pid off) = none :=
      (firstFault_eq_none ..).2 fun n hn => predBoundFault_eq_none.2 ⟨d, hd, by omega⟩
    have hvalue : firstFault e (predValueFault s .pred w.pid off) = none :=
      (firstFault_eq_none ..).2 fun n hn => predValueFault_eq_none.2 (hbits n hn)
    rw [chEnFault, predOff_of_predOffset hoff, hbound, hvalue, Option.or_none, ite_self]

theorem ctxFault_of_ready {s : State} (h : Ready s) : s.ctxFault = none := chEnFault_of_predReady h

/-! ### The bound of a raw operand -/

/-- Bytes past the end of the declared variable raise U5, at the place of the operand (R122). -/
theorem rawFault_of_out_of_bounds {s : State} {o : RawOpnd} {d : VarDecl} (hd : s.launch.varDecl o.id = some d)
    (hout : ¬ o.offset.toNat + s.ctx.rawLen ≤ d.size s.launch.sizes) :
    rawFault s o = some (.u5 ⟨s.pc, placePos s.ctx.place, 0⟩) := by
  simp only [rawFault, hd, if_neg hout]

/-- The bound is checked before a byte is read or written, so that its fault ends a source and a destination alike. -/
theorem evalRaw_eq_fault_of_rawFault {s : State} {o : RawOpnd} {f : Fault}
    (hok : rawRefusal s.launch s.ctx o = none) (hctx : s.ctxFault = none) (hf : rawFault s o = some f) :
    evalRaw o s = .fault f := by
  rw [evalRaw, hok, hctx, hf, refuseIf_none, faultIf_none, faultIf_some]

/-! ### The obligation -/

/-- Settles O43: nothing is refused and the channel enable is ready, so that the check of the bound decides. -/
theorem rawOutOfBoundsFaults : Obligations.RawOutOfBoundsFaults := by
  unfold Obligations.RawOutOfBoundsFaults
  intro s o d hok hready hd hout
  have hfault : rawFault s o = some (.u5 ⟨s.pc, placePos s.ctx.place, 0⟩) := rawFault_of_out_of_bounds hd hout
  exact ⟨0, evalRaw_eq_fault_of_rawFault hok (ctxFault_of_ready hready) hfault⟩

end Sys2Proof.Machine
end

section
/-!
SUPPORT. The obligations about the codec (30_encoding.md R44 to R67): reading back what the encoder writes, recovering
the bytes the decoder accepts, and the spec's own words.
-/

namespace Sys2Proof
open Sys2Proof.Claims

/-! ### Single fields -/

/-- A stream that begins with a number's bytes, enough of them to hold it. -/
theorem takeLE_bytesOf_of_lt {n k : Nat} (h : n < 256 ^ k) (rest : List Byte) :
    takeLE k (bytesOf n k ++ rest) = .ok (n, rest) := by
  rw [takeLE_bytesOf, Nat.mod_eq_of_lt h]

theorem takeLE_bytesOf_toNat {w k : Nat} (h : w ≤ 8 * k) (x : BitVec w) (rest : List Byte) :
    takeLE k (bytesOf x.toNat k ++ rest) = .ok (x.toNat, rest) := by
  refine takeLE_bytesOf_of_lt (x.isLt.trans_le ?_) rest
  rw [show 256 = 2 ^ 8 from rfl, ← Nat.pow_mul]
  exact Nat.pow_le_pow_right (by decide) h

/-- The same at the end of a stream. -/
theorem takeLE_bytesOf_toNat_end {w k : Nat} (h : w ≤ 8 * k) (x : BitVec w) :
    takeLE k (bytesOf x.toNat k) = .ok (x.toNat, []) := by
  simpa using takeLE_bytesOf_toNat h x []

theorem bytesOf_mod (n k : Nat) : bytesOf (n % 256 ^ k) k = bytesOf n k := by
  have h := (takeLE_eq_ok k _ [] _).1 (takeLE_bytesOf n k [])
  simpa using h.1.symm

/-- A field as wide as its bytes keeps the number read from them. -/
theorem bytesOf_toNat_ofNat {w k : Nat} (h : w = 8 * k) (n : Nat) :
    bytesOf (BitVec.ofNat w n).toNat k = bytesOf n k := by
  rw [BitVec.toNat_ofNat, h, Nat.pow_mul, bytesOf_mod]

/-- The number read fits the field it is read into, so that the field keeps it whole. -/
theorem toNat_ofNat_of_lt {w n : Nat} (h : n < 2 ^ w) : (BitVec.ofNat w n).toNat = n := by
  rw [BitVec.toNat_ofNat, Nat.mod_eq_of_lt h]

theorem toNat_fieldOf (w lo n : Nat) : (fieldOf w lo n).toNat = n / 2 ^ lo % 2 ^ w := BitVec.toNat_ofNat ..

theorem fieldOf_toNat (w : Nat) (x : BitVec w) : fieldOf w 0 x.toNat = x := by
  simp [fieldOf]

/-- Only the encoding of a region is read as that region (R49). -/
theorem decodeRegion_eq_ok {n : Nat} {r : Region} : decodeRegion n = .ok r ↔ n = encodeRegion r := by
  refine ⟨fun h => ?_, fun h => h ▸ decodeRegion_encodeRegion r⟩
  simp only [decodeRegion, bind_eq_ok, rejectIf_eq_ok, bne_eq_false_iff_eq, Except.ok.injEq] at h
  obtain ⟨-, hn, rfl⟩ := h
  simp only [encodeRegion, toNat_fieldOf]
  omega

theorem decodePredWord_eq_ok_iff_encode {n : Nat} (hn : n < 2 ^ 16) {w : PredWord} :
    decodePredWord n = .ok w ↔ n = encodePredWord w := by
  refine ⟨fun h => ?_, fun h => h ▸ decodePredWord_encodePredWord w⟩
  obtain ⟨h12, hcomb, hinv, hpid⟩ := (decodePredWord_eq_ok n w).1 h
  rw [decodeCombine_eq_ok] at hcomb
  rw [encodePredWord, hinv, hpid, toNat_fieldOf, ← hcomb]
  simp only [bne_iff_ne]
  split <;> omega

theorem decodeClass_eq_ok {n : Nat} {c : StateClass} : decodeClass n = .ok c ↔ n % 4 = encodeClass c := by
  rw [decodeClass]
  split
  · next h => rw [h]; cases c <;> decide
  · next h => rw [h]; cases c <;> decide
  · next h0 h1 =>
    have hc : n % 4 ≠ encodeClass c := by
      cases c
      · exact h0
      · exact h1
    simp [hc]

/-! ### The tag -/

/-- The decoder that a tag's class code names. -/
def decodeInfo (T : TypeTable) (use : Option Place) (cls : Nat) (mods : BitVec 3) (info : List Byte) :
    Except Reason (VecOpnd × List Byte) :=
  match cls with
  | 0 => decodeGen use mods info
  | 1 => decodeAddr use mods info
  | 2 => decodePred mods info
  | 3 => decodeInd T use mods info
  | 5 => decodeImm T mods info
  | 6 => decodeState mods info
  | _ => .error .reservedClass

theorem decodeVecAt_cons (T : TypeTable) (use : Option Place) (t : Byte) (info : List Byte) :
    decodeVecAt T use (t :: info) =
      rejectIf (t.toNat / 64 != 0) .tagReserved >>= fun _ =>
        decodeInfo T use (t.toNat % 8) (fieldOf 3 3 t.toNat) info := by
  rw [decodeVecAt, takeLE_one_cons, ok_bind]
  rfl

theorem encodeTag_lt {cls : Nat} (h : cls < 8) (m : BitVec 3) : encodeTag cls m < 64 := by
  have := m.isLt
  rw [encodeTag]
  omega

theorem bytesOf_one (n : Nat) : bytesOf n 1 = [BitVec.ofNat 8 n] := rfl

/-- The tag's class code and modifier are read from their bits (R46). -/
theorem decodeVecAt_encodeTag (T : TypeTable) (use : Option Place) {cls : Nat} (h : cls < 8) (m : BitVec 3)
    (info : List Byte) :
    decodeVecAt T use (bytesOf (encodeTag cls m) 1 ++ info) = decodeInfo T use cls m info := by
  have hm := m.isLt
  have htag : (BitVec.ofNat 8 (encodeTag cls m)).toNat = cls + 8 * m.toNat :=
    toNat_ofNat_of_lt ((encodeTag_lt h m).trans (by decide))
  have hcls : (cls + 8 * m.toNat) % 8 = cls := by omega
  have hmods : fieldOf 3 3 (cls + 8 * m.toNat) = m :=
    BitVec.eq_of_toNat_eq (by rw [toNat_fieldOf]; omega)
  have hres : (cls + 8 * m.toNat) / 64 = 0 := by omega
  rw [bytesOf_one, List.singleton_append, decodeVecAt_cons, htag, hcls, hmods, hres]
  rfl

/-- And a tag that is accepted is the encoding of its class code and modifier. -/
theorem decodeVecAt_eq_ok {T : TypeTable} {use : Option Place} {bs : List Byte} {x : VecOpnd × List Byte}
    (h : decodeVecAt T use bs = .ok x) :
    ∃ cls m info, bs = bytesOf (encodeTag cls m) 1 ++ info ∧ decodeInfo T use cls m info = .ok x := by
  cases bs with
  | nil => cases h
  | cons t info =>
    simp only [decodeVecAt_cons, bind_eq_ok, rejectIf_eq_ok, bne_eq_false_iff_eq] at h
    obtain ⟨-, ht, hinfo⟩ := h
    refine ⟨_, _, info, ?_, hinfo⟩
    have htag : encodeTag (t.toNat % 8) (fieldOf 3 3 t.toNat) = t.toNat := by
      rw [encodeTag, toNat_fieldOf]
      omega
    rw [htag, bytesOf_one, BitVec.ofNat_toNat, BitVec.setWidth_eq, List.singleton_append]

/-! ### Reading back what the encoder writes -/

/-- An operand with no failing field reads back from its encoding, whatever follows it. -/
theorem decodeVec_encodeVec {T : TypeTable} {o : VecOpnd} (hwf : o.fieldReason = none) (hcode : OpndCoded T o)
    (rest : List Byte) : decodeVec T (encodeVec T o ++ rest) = .ok (o, rest) := by
  have hreg (r : Region) (rest : List Byte) :
      takeLE 2 (bytesOf (encodeRegion r) 2 ++ rest) = .ok (encodeRegion r, rest) :=
    takeLE_bytesOf_of_lt ((encodeRegion_lt r).trans (by decide)) rest
  have hty (t : Ty) (rest : List Byte) :
      takeLE 1 (bytesOf (T.codeOf t).toNat 1 ++ rest) = .ok ((T.codeOf t).toNat, rest) :=
    takeLE_bytesOf_toNat (by decide) _ rest
  have hres (t : Ty) : (T.codeOf t).toNat / 16 = 0 := by
    have := (T.codeOf t).isLt
    omega
  cases o with
  | general o =>
    simp [encodeVec, decodeVec, decodeVecAt_encodeTag, decodeInfo, decodeGen, takeLE_bytesOf_toNat, hreg,
      decodeRegion_encodeRegion, checkUse]
  | address o =>
    simp [encodeVec, decodeVec, decodeVecAt_encodeTag, decodeInfo, decodeAddr, takeLE_bytesOf_toNat, checkUse]
  | predicate o =>
    have hval := takeLE_bytesOf_of_lt (k := 2) (encodePredWord_lt o.val) rest
    simp only [VecOpnd.fieldReason, ite_eq_right_iff, reduceCtorEq, imp_false] at hwf
    simp [encodeVec, decodeVec, decodeVecAt_encodeTag, decodeInfo, decodePred, hval, decodePredWord_encodePredWord,
      hwf]
  | indirect o =>
    simp only [VecOpnd.fieldReason, ite_eq_iff, reduceCtorEq, and_false, false_or, Bool.not_eq_true, and_true,
      Bool.not_eq_false'] at hwf
    simp [encodeVec, decodeVec, decodeVecAt_encodeTag, decodeInfo, decodeInd, takeLE_bytesOf_toNat, hreg, hty, hres,
      decodeRegion_encodeRegion, checkUse, fieldOf_toNat, T.typeOf_codeOf _ hcode, hwf]
  | immediate32 o =>
    simp only [VecOpnd.fieldReason, ite_eq_iff, reduceCtorEq, and_false, false_or, and_true] at hwf
    simp [encodeVec, decodeVec, decodeVecAt_encodeTag, decodeInfo, decodeImm, decodeConst, takeLE_bytesOf_toNat, hty,
      hres, fieldOf_toNat, T.typeOf_codeOf _ hcode, hwf]
  | immediate64 o =>
    have hlong : o.ty.isLong = true := by simpa [VecOpnd.fieldReason] using hwf
    have hbool : (o.ty == .bool) = false := by
      cases ht : o.ty <;> simp_all [Ty.isLong]
    simp [encodeVec, decodeVec, decodeVecAt_encodeTag, decodeInfo, decodeImm, decodeConst, takeLE_bytesOf_toNat, hty,
      hres, fieldOf_toNat, T.typeOf_codeOf _ hcode, hlong, hbool]
  | state o =>
    have hcls : takeLE 1 (bytesOf (encodeClass o.cls) 1 ++ (bytesOf o.id.toNat 2 ++ (bytesOf o.offset.toNat 1 ++ rest)))
        = .ok (encodeClass o.cls, bytesOf o.id.toNat 2 ++ (bytesOf o.offset.toNat 1 ++ rest)) :=
      takeLE_bytesOf_of_lt (by cases o.cls <;> decide) _
    have hclass : decodeClass (encodeClass o.cls) = .ok o.cls := by cases o.cls <;> rfl
    have hz : encodeClass o.cls / 4 = 0 := by cases o.cls <;> rfl
    simp [encodeVec, decodeVec, decodeVecAt_encodeTag, decodeInfo, decodeState, takeLE_bytesOf_toNat, hcls, hclass, hz]

/-! ### Recovering the bytes that the decoder accepts -/

theorem decodeGen_recovers {T : TypeTable} {m : BitVec 3} {info rest : List Byte} {o : VecOpnd}
    (h : decodeGen none m info = .ok (o, rest)) :
    bytesOf (encodeTag 0 m) 1 ++ info = encodeVec T o ++ rest ∧ o.fieldReason = none := by
  simp only [decodeGen, bind_eq_ok, Prod.exists, takeLE_eq_ok, decodeRegion_eq_ok, Except.ok.injEq, Prod.mk.injEq] at h
  obtain ⟨id, _, ⟨rfl, -⟩, row, _, ⟨rfl, -⟩, col, _, ⟨rfl, -⟩, _, _, ⟨rfl, -⟩, r, rfl, -, -, rfl, rfl⟩ := h
  simp [encodeVec, VecOpnd.fieldReason, bytesOf_toNat_ofNat, -BitVec.toNat_ofNat]

theorem decodeAddr_recovers {T : TypeTable} {m : BitVec 3} {info rest : List Byte} {o : VecOpnd}
    (h : decodeAddr none m info = .ok (o, rest)) :
    bytesOf (encodeTag 1 m) 1 ++ info = encodeVec T o ++ rest ∧ o.fieldReason = none := by
  simp only [decodeAddr, bind_eq_ok, Prod.exists, takeLE_eq_ok, rejectIf_eq_ok, bne_eq_false_iff_eq, Except.ok.injEq,
    Prod.mk.injEq] at h
  obtain ⟨id, _, ⟨rfl, -⟩, off, _, ⟨rfl, -⟩, width, _, ⟨rfl, -⟩, -, -, -, rfl, rfl, rfl⟩ := h
  simp [encodeVec, VecOpnd.fieldReason, bytesOf_toNat_ofNat, -BitVec.toNat_ofNat]

theorem decodePred_recovers {T : TypeTable} {m : BitVec 3} {info rest : List Byte} {o : VecOpnd}
    (h : decodePred m info = .ok (o, rest)) :
    bytesOf (encodeTag 2 m) 1 ++ info = encodeVec T o ++ rest ∧ o.fieldReason = none := by
  simp only [decodePred, bind_eq_ok, Prod.exists, takeLE_eq_ok, rejectIf_eq_ok, bne_eq_false_iff_eq, Except.ok.injEq,
    Prod.mk.injEq] at h
  obtain ⟨val, _, ⟨rfl, hval⟩, w, hw, -, rfl, -, hctl, rfl, rfl⟩ := h
  obtain rfl := (decodePredWord_eq_ok_iff_encode hval).1 hw
  simpa [encodeVec, VecOpnd.fieldReason] using hctl

theorem decodeInd_recovers {T : TypeTable} (hT : Function.Injective T.typeOf) {m : BitVec 3} {info rest : List Byte}
    {o : VecOpnd} (h : decodeInd T none m info = .ok (o, rest)) :
    bytesOf (encodeTag 3 m) 1 ++ info = encodeVec T o ++ rest ∧ o.fieldReason = none := by
  simp only [decodeInd, bind_eq_ok, Prod.exists, takeLE_eq_ok, decodeRegion_eq_ok, rejectIf_eq_ok,
    bne_eq_false_iff_eq, Except.ok.injEq, Prod.mk.injEq, Bool.not_eq_false'] at h
  obtain ⟨id, _, ⟨rfl, -⟩, k, _, ⟨rfl, -⟩, off, _, ⟨rfl, -⟩, props, _, ⟨rfl, -⟩, _, _, ⟨rfl, -⟩, r, rfl, -, -, -,
    hrange, -, hprops, -, hdata, rfl, rfl⟩ := h
  have hcode : (fieldOf 4 0 props).toNat = props := by rw [toNat_fieldOf]; omega
  simp [encodeVec, VecOpnd.fieldReason, T.codeOf_typeOf hT, hcode, hrange, hdata, bytesOf_toNat_ofNat,
    -BitVec.toNat_ofNat]

/-- The type of an immediate decides its length, as its own checks do (R60). -/
theorem decodeConst_recovers {T : TypeTable} {ty : Ty} {bs rest : List Byte} {o : VecOpnd} (hty : (ty == .bool) = false)
    (h : decodeConst ty bs = .ok (o, rest)) :
    bytesOf (encodeTag 5 0) 1 ++ (bytesOf (T.codeOf ty).toNat 1 ++ bs) = encodeVec T o ++ rest ∧
      o.fieldReason = none := by
  simp only [decodeConst, bind_eq_ok, Prod.exists, takeLE_eq_ok] at h
  obtain ⟨low, _, ⟨rfl, -⟩, h⟩ := h
  split at h
  · next hlong =>
    simp only [bind_eq_ok, Prod.exists, takeLE_eq_ok, Except.ok.injEq, Prod.mk.injEq] at h
    obtain ⟨high, _, ⟨rfl, -⟩, rfl, rfl⟩ := h
    simp [encodeVec, VecOpnd.fieldReason, hlong, bytesOf_toNat_ofNat, -BitVec.toNat_ofNat]
  · next hlong =>
    simp only [Except.ok.injEq, Prod.mk.injEq] at h
    obtain ⟨rfl, rfl⟩ := h
    simp [encodeVec, VecOpnd.fieldReason, hlong, hty, bytesOf_toNat_ofNat, -BitVec.toNat_ofNat]

theorem decodeImm_recovers {T : TypeTable} (hT : Function.Injective T.typeOf) {m : BitVec 3} {info rest : List Byte}
    {o : VecOpnd} (h : decodeImm T m info = .ok (o, rest)) :
    bytesOf (encodeTag 5 m) 1 ++ info = encodeVec T o ++ rest ∧ o.fieldReason = none := by
  simp only [decodeImm, bind_eq_ok, Prod.exists, takeLE_eq_ok, rejectIf_eq_ok, bne_eq_false_iff_eq, Except.ok.injEq,
    Prod.mk.injEq] at h
  obtain ⟨tb, bs, ⟨rfl, -⟩, _, _, hconst, -, htb, -, hbool, -, rfl, rfl, rfl⟩ := h
  have hcode : (fieldOf 4 0 tb).toNat = tb := by rw [toNat_fieldOf]; omega
  simpa [T.codeOf_typeOf hT, hcode] using decodeConst_recovers (T := T) hbool hconst

theorem decodeState_recovers {T : TypeTable} {m : BitVec 3} {info rest : List Byte} {o : VecOpnd}
    (h : decodeState m info = .ok (o, rest)) :
    bytesOf (encodeTag 6 m) 1 ++ info = encodeVec T o ++ rest ∧ o.fieldReason = none := by
  simp only [decodeState, bind_eq_ok, Prod.exists, takeLE_eq_ok, decodeClass_eq_ok, rejectIf_eq_ok,
    bne_eq_false_iff_eq, Except.ok.injEq, Prod.mk.injEq] at h
  obtain ⟨c, _, ⟨rfl, -⟩, id, _, ⟨rfl, -⟩, off, _, ⟨rfl, -⟩, cls, hcls, -, hc, -, rfl, rfl, rfl⟩ := h
  obtain rfl : c = encodeClass cls := by omega
  simp [encodeVec, VecOpnd.fieldReason, bytesOf_toNat_ofNat, -BitVec.toNat_ofNat]

/-- The bytes that the decoder accepts are the encoding of a well-formed operand, then the rest. -/
theorem decodeVec_recovers {T : TypeTable} (hT : Function.Injective T.typeOf) {bs rest : List Byte} {o : VecOpnd}
    (h : decodeVec T bs = .ok (o, rest)) : bs = encodeVec T o ++ rest ∧ o.fieldReason = none := by
  obtain ⟨cls, m, info, rfl, hinfo⟩ := decodeVecAt_eq_ok h
  unfold decodeInfo at hinfo
  split at hinfo
  · exact decodeGen_recovers hinfo
  · exact decodeAddr_recovers hinfo
  · exact decodePred_recovers hinfo
  · exact decodeInd_recovers hT hinfo
  · exact decodeImm_recovers hT hinfo
  · exact decodeState_recovers hinfo
  · cases hinfo

/-- The length of each class (R45). -/
theorem length_encodeVec (T : TypeTable) (o : VecOpnd) : (encodeVec T o).length = operandBytes o := by
  cases o <;> simp [encodeVec, operandBytes]

theorem wellFormed_toInstr (o : VecOpnd) : WellFormed o.toInstr = true ↔ o.fieldReason = none := by
  cases o <;> simp [WellFormed, VecOpnd.toInstr, Instr.fieldReason]

/-! ### Whole operations -/

/-- Only the reserved class codes give a reserved tag. -/
theorem reservedTag_encodeTag {cls : Nat} (h : cls < 8) (h4 : cls ≠ 4) (h7 : cls ≠ 7) (m : BitVec 3)
    (info : List Byte) : reservedTag (bytesOf (encodeTag cls m) 1 ++ info) = none := by
  have hm := m.isLt
  have htag : (BitVec.ofNat 8 (encodeTag cls m)).toNat = cls + 8 * m.toNat :=
    toNat_ofNat_of_lt ((encodeTag_lt h m).trans (by decide))
  have hcls : (cls + 8 * m.toNat) % 8 = cls := by omega
  simp [bytesOf_one, reservedTag, htag, hcls]

theorem reservedTag_encodeVec (T : TypeTable) (o : VecOpnd) : reservedTag (encodeVec T o) = none := by
  cases o <;> exact reservedTag_encodeTag (by decide) (by decide) (by decide) _ _

theorem decode_vector_encodeVec {T : TypeTable} {o : VecOpnd} (hwf : o.fieldReason = none) (hcode : OpndCoded T o) :
    decode T (.vector (encodeVec T o)) = .ok o.toInstr := by
  have hvec := decodeVec_encodeVec hwf hcode []
  rw [List.append_nil] at hvec
  rw [decode, reservedTag_encodeVec, hvec, ok_bind]

/-! ### The obligations -/

/-- Settles O1: each structure reads back field by field, behind a tag that names its class. -/
theorem encodeDecodeRoundTrip : Obligations.EncodeDecodeRoundTrip := by
  unfold Obligations.EncodeDecodeRoundTrip
  intro T i hwf hcode
  have hfield : i.fieldReason = none := by simpa [WellFormed] using hwf
  cases i with
  | opndGeneral o => exact decode_vector_encodeVec (o := .general o) hfield trivial
  | opndAddress o => exact decode_vector_encodeVec (o := .address o) hfield trivial
  | opndPredicate o => exact decode_vector_encodeVec (o := .predicate o) hfield trivial
  | opndIndirect o => exact decode_vector_encodeVec (o := .indirect o) hfield hcode
  | opndImmediate32 o => exact decode_vector_encodeVec (o := .immediate32 o) hfield hcode
  | opndImmediate64 o => exact decode_vector_encodeVec (o := .immediate64 o) hfield hcode
  | opndState o => exact decode_vector_encodeVec (o := .state o) hfield trivial
  | opndReserved100 m => cases hfield
  | opndReserved111 m => cases hfield
  | rawOperand o => simp [encode, encodeRaw, decode, decodeRaw, takeLE_bytesOf_toNat, takeLE_bytesOf_toNat_end]
  | predControl w =>
    have hw := takeLE_bytesOf_of_lt (k := 2) (encodePredWord_lt w) []
    rw [List.append_nil] at hw
    simp [encode, decode, hw, decodePredWord_encodePredWord]
  | hcopy e m w dst src =>
    obtain ⟨hdstCode, hsrcCode⟩ := hcode
    simp only [Instr.fieldReason, ite_eq_iff, reduceCtorEq, and_false, false_or, Option.or_eq_none_iff] at hfield
    obtain ⟨-, -, hdst, hsrc⟩ := hfield
    have hdst := decodeVec_encodeVec hdst hdstCode []
    have hsrc := decodeVec_encodeVec hsrc hsrcCode []
    rw [List.append_nil] at hdst hsrc
    have hw : (BitVec.ofNat 16 (encodePredWord w)).toNat = encodePredWord w := toNat_ofNat_of_lt (encodePredWord_lt w)
    simp [encode, decode, decodeExec, hdst, hsrc, hw, decodePredWord_encodePredWord, -BitVec.toNat_ofNat]

/-- Settles O2: each structure's decoder recovers the bytes of the class that its tag names. -/
theorem decodedBytesRecovered : Obligations.DecodedBytesRecovered := by
  unfold Obligations.DecodedBytesRecovered
  intro T bs o rest hT h
  obtain ⟨rfl, hwf⟩ := decodeVec_recovers hT h
  exact ⟨rfl, by rw [List.length_append, length_encodeVec], (wellFormed_toInstr o).2 hwf⟩

/-- Settles O3: only the words of an indirect operand and of the immediates ask the table, for the codes 2 and 13. -/
theorem specWordsDecode : Obligations.SpecWordsDecode := by
  unfold Obligations.SpecWordsDecode
  intro T huw hq
  have hind : decodeVec T [0x03, 0x01, 0x00, 0x00, 0xE0, 0xFF, 0x02, 0x55, 0x02] =
      rejectIf (!(T.typeOf 2).isData) .indirectType >>= fun _ =>
        .ok (.indirect ⟨0, 1, 0, BitVec.ofInt 16 (-32), T.typeOf 2, ⟨5, 5, 2⟩⟩, []) := rfl
  have himm (n : Byte) (bs : List Byte) (t : Ty) (ht : T.typeOf (fieldOf 4 0 n.toNat) = t) :
      decodeVec T (0x05 :: n :: bs) = decodeConst t bs >>= fun x =>
        rejectIf (n.toNat / 16 != 0) .immTypeReserved >>= fun _ => rejectIf (t == .bool) .immBool >>= fun _ =>
          .ok x := by
    subst ht
    rfl
  refine ⟨rfl, rfl, rfl, ?_, ?_, ?_, rfl, rfl, rfl⟩
  · rw [decode, hind, huw]
    rfl
  · rw [decode, himm 0x02 _ _ huw]
    rfl
  · rw [decode, himm 0x0D _ _ hq]
    rfl

end Sys2Proof
end

section
/-!
SUPPORT. The obligations about which operands are accepted: each static check said once as the rule it stands for, and
an operand accepted exactly when all its rules hold (40_regions.md, 41_predication.md, 42_vector_operands.md,
43_raw_operands.md, 44_named_instructions.md R136).
-/

namespace Sys2Proof.Machine
open Sys2Proof.Claims

/-- A check that fails under a condition, and one after it. -/
theorem ite_some_eq_none_iff {α : Type} {c : Prop} [Decidable c] {r : α} {k : Option α} :
    (if c then some r else k) = none ↔ ¬ c ∧ k = none := by
  split
  · next h => simp [h]
  · next h => simp [h]

/-- A check that passes under a condition. -/
theorem ite_none_eq_none_iff {α : Type} {c : Prop} [Decidable c] {r : α} :
    (if c then none else some r) = none ↔ c := by
  split
  · next h => simp [h]
  · next h => simp [h]

/-! ### The predication (R90, R93) -/

theorem maskReason_eq_none {e : Nat} {m : MaskControl} : maskReason e m = none ↔ MaskFits e m := by
  rw [maskReason, MaskFits]
  split
  · next off hoff => simp [hoff]
  · next hoff => simp [hoff]

theorem predReason_eq_none {l : Launch} {e : Nat} {m : MaskControl} {pid : BitVec 12} :
    predReason l e m pid = none ↔
      ∃ off d, predOffset l m = some off ∧ e + off ≤ 32 ∧ l.predDecl pid = some d ∧
        (d.known = true → off + e ≤ d.n) := by
  rw [predReason]
  cases hoff : predOffset l m with
  | none => simp
  | some off =>
    cases hd : l.predDecl pid with
    | none => simp [ite_some_eq_none_iff]
    | some d => simp [ite_some_eq_none_iff]

/-- The checks of a predication control word are the rules of the predication. -/
theorem predControlReason_eq_none {l : Launch} {e : Nat} {m : MaskControl} {w : PredWord} :
    predControlReason l e m w = none ↔ PredAccepted l e m w := by
  rw [predControlReason, Option.or_eq_none_iff, maskReason_eq_none, PredAccepted, ← predReason_eq_none]
  cases w.isNone <;> simp

theorem predControlRefusal_eq_none {l : Launch} {e : Nat} {m : MaskControl} {w : PredWord} :
    predControlRefusal l e m w = none ↔ PredAccepted l e m w := by
  rw [predControlRefusal, Option.map_eq_none_iff, predControlReason_eq_none]

theorem ctxRefusal_eq_none {l : Launch} {c : Ctx} :
    ctxRefusal l c = none ↔ PredAccepted l c.exec.toNat c.mask c.pred := predControlRefusal_eq_none

/-- What is ready to be evaluated has been accepted. -/
theorem predAccepted_of_predReady {s : State} {e : Nat} {m : MaskControl} {w : PredWord} (h : PredReady s e m w) :
    PredAccepted s.launch e m w := by
  obtain ⟨hfits, hnone | ⟨off, d, hoff, hle, hd, hlen, -⟩⟩ := h
  · exact ⟨hfits, .inl hnone⟩
  · exact ⟨hfits, .inr ⟨off, d, hoff, hle, hd, fun _ => hlen⟩⟩

/-- An operand row is accepted when its operand is, and the predication it stands under. -/
theorem vecRefusal_eq_none {l : Launch} {c : Ctx} {o : VecOpnd} :
    vecRefusal l c o = none ↔ vecReason l c.toSupply o = none ∧ PredAccepted l c.exec.toNat c.mask c.pred := by
  rw [vecRefusal, Option.or_eq_none_iff, ctxRefusal_eq_none, vecOwnRefusal, Option.map_eq_none_iff]

theorem rawRefusal_eq_none {l : Launch} {c : Ctx} {o : RawOpnd} :
    rawRefusal l c o = none ↔ rawReason l c.toSupply o = none ∧ PredAccepted l c.exec.toNat c.mask c.pred := by
  rw [rawRefusal, Option.or_eq_none_iff, ctxRefusal_eq_none, rawOwnRefusal, Option.map_eq_none_iff]

/-! ### Modifiers and admission (R99 to R103, R116) -/

theorem takesNot_eq_true (u : User) : takesNot u = true ↔ u ∈ [User.andOp, .notOp, .orOp, .xorOp] := by
  cases u <;> decide

theorem takesArith_eq_true (u : User) : takesArith u = true ↔ u ∈ [User.arithmetic, .shift, .move] := by
  cases u <;> decide

theorem takesAddress_eq_true (u : User) : takesAddress u = true ↔ u ∈ [User.addrAdd, .specialAddress] := by
  cases u <;> decide

theorem takesPredicate_eq_true (u : User) :
    takesPredicate u = true ↔ u ∈ [User.setp, .comparison, .logic, .andOp, .notOp, .orOp, .xorOp] := by
  cases u <;> decide

theorem takesState_eq_true (u : User) : takesState u = true ↔ u ∈ [User.addrAdd, .movs] := by
  cases u <;> decide

theorem onEU_eq_false (u : User) : u.onEU = false ↔ u ∈ [User.memory, .scatter, .block, .sample] := by
  cases u <;> decide

theorem modReason_eq_none {p : Place} {u : User} {m : BitVec 3} : modReason p u m = none ↔ ModAdmitted p u m := by
  rw [modReason, ModAdmitted]
  by_cases hm : m = 0
  · simp [hm]
  by_cases hu : u = .hcopy
  · simp [hu]
  simp only [hm, hu, if_false, false_or, ne_eq, not_false_eq_true, true_and]
  cases hg : Config.modCode (p == .dst) m with
  | none => simp
  | some g =>
    cases g with
    | bitNot => simpa [ite_none_eq_none_iff] using takesNot_eq_true u
    | arithmetic => simpa [ite_none_eq_none_iff] using takesArith_eq_true u

/-- A class without a modifier admits its code 0 everywhere. -/
theorem modReason_zero (p : Place) (u : User) : modReason p u 0 = none := rfl

theorem admitReason_general_eq_none {c : Supply} {o : GenOpnd} :
    admitReason c (.general o) = none ↔ (c.place = .dst → c.user.onEU = true) := by
  simp [admitReason]

theorem admitReason_indirect_eq_none {c : Supply} {o : IndOpnd} :
    admitReason c (.indirect o) = none ↔ (c.place = .dst → c.user.onEU = true) := by
  simp [admitReason]

theorem admitReason_address_eq_none {c : Supply} {o : AddrOpnd} :
    admitReason c (.address o) = none ↔ c.place ≠ .scalar ∧ c.user ∈ [User.addrAdd, .specialAddress] := by
  rw [← takesAddress_eq_true]
  cases hp : c.place <;> simp [admitReason, hp]

theorem admitReason_predicate_eq_none {c : Supply} {o : PredOpnd} :
    admitReason c (.predicate o) = none ↔
      c.place ≠ .scalar ∧ c.user ∈ [User.setp, .comparison, .logic, .andOp, .notOp, .orOp, .xorOp] := by
  rw [← takesPredicate_eq_true]
  cases hp : c.place <;> simp [admitReason, hp]

theorem admitReason_state_eq_none {c : Supply} {o : StateOpnd} :
    admitReason c (.state o) = none ↔ c.place = .src ∧ c.user ∈ [User.addrAdd, .movs] := by
  rw [← takesState_eq_true]
  cases hp : c.place <;> simp [admitReason, hp]

theorem admitReason_immediate_eq_none {c : Supply} {o : VecOpnd}
    (ho : (∃ i, o = .immediate32 i) ∨ ∃ i, o = .immediate64 i) : admitReason c o = none ↔ c.place ≠ .dst := by
  obtain ⟨i, rfl⟩ | ⟨i, rfl⟩ := ho
  · cases hp : c.place <;> simp [admitReason, hp]
  · cases hp : c.place <;> simp [admitReason, hp]

/-! ### What the declarations decide, class by class -/

theorem grfAdjacent_eq_true {b b' : Nat} :
    grfAdjacent b b' = true ↔ b / 32 ≤ b' / 32 + 1 ∧ b' / 32 ≤ b / 32 + 1 := by
  rw [grfAdjacent, Bool.and_eq_true, decide_eq_true_eq, decide_eq_true_eq]
  rfl

/-- Restriction 6: no two channels' elements are more than one GRF register apart (R83). -/
theorem genSpanOk_eq_true {z : TypeSizes} {d : VarDecl} {p : Place} {o : GenOpnd} {e : Nat} :
    genSpanOk z d p o e = true ↔
      (32 ≤ d.n * d.ty.size z → ∀ i j, i < e → j < e →
        genElem z d.ty p o i * d.ty.size z / 32 ≤ genElem z d.ty p o j * d.ty.size z / 32 + 1) := by
  simp only [genSpanOk, Bool.or_eq_true, decide_eq_true_eq, List.all_eq_true, List.mem_range, grfAdjacent_eq_true,
    or_iff_not_imp_left, not_lt]
  constructor
  · intro h hsize i j hi hj
    exact (h hsize i hi j hj).1
  · intro h hsize i hi j hj
    exact ⟨h hsize i j hi hj, h hsize j i hj hi⟩

theorem genReason_eq_none {l : Launch} {c : Supply} {o : GenOpnd} :
    genReason l c o = none ↔
      ∃ d, l.varDecl o.id = some d ∧ d.ty.isData = true ∧ widthReason c.place c.exec.toNat o.region = none ∧
        o.col.toNat < elemsPerRow l.sizes d.ty ∧ genSpanOk l.sizes d c.place o c.exec.toNat = true := by
  rw [genReason]
  cases hd : l.varDecl o.id with
  | none => simp
  | some d => simp [ite_some_eq_none_iff]

theorem indReason_eq_none {l : Launch} {c : Supply} {o : IndOpnd} :
    indReason l c o = none ↔
      (∃ d, l.addrDecl o.id = some d) ∧ widthReason c.place c.exec.toNat o.region = none := by
  rw [indReason]
  cases hd : l.addrDecl o.id with
  | none => simp
  | some d => simp

theorem addrReason_eq_none {l : Launch} {c : Supply} {o : AddrOpnd} :
    addrReason l c o = none ↔
      ∃ d, l.addrDecl o.id = some d ∧
        (d.known = true → o.offset.toNat + (if c.place = .dst then c.exec.toNat else o.width.toNat) ≤ d.n) := by
  rw [addrReason]
  cases hd : l.addrDecl o.id with
  | none => simp
  | some d => simp

theorem stateReason_eq_stateUse {l : Launch} {c : Supply} {o : StateOpnd} :
    stateReason l c o = .stateUse ↔
      ∃ d, l.stateDecl o.cls o.id = some d ∧ (d.known = true → o.offset.toNat + c.exec.toNat ≤ d.n) := by
  rw [stateReason]
  cases hd : l.stateDecl o.cls o.id with
  | none => simp
  | some d => simp

theorem rawReason_eq_none {l : Launch} {c : Supply} {o : RawOpnd} :
    rawReason l c o = none ↔
      c.user ∈ [User.memory, .scatter, .block, .sample] ∧ c.place ≠ .scalar ∧
        ∃ d, l.varDecl o.id = some d ∧ d.ty.isData = true ∧
          (Config.grfSize ≤ d.size l.sizes ∧ o.offset.toNat % Config.grfSize = 0 ∨
           d.size l.sizes < Config.grfSize ∧ o.offset.toNat = 0 ∧ d.baseAlign l.sizes = Config.grfSize) := by
  rw [rawReason, ← onEU_eq_false]
  cases hd : l.varDecl o.id with
  | none => simp [ite_some_eq_none_iff]
  | some d =>
    by_cases hsize : Config.grfSize ≤ d.size l.sizes
    · simp [ite_some_eq_none_iff, hsize, hsize.not_gt]
    · simp [ite_some_eq_none_iff, hsize, not_le.1 hsize]

/-! ### Own fields -/

theorem Ty.isData_iff (t : Ty) : t.isData = true ↔ t ≠ .v ∧ t ≠ .uv ∧ t ≠ .vf ∧ t ≠ .bool := by
  cases t <;> decide

theorem fieldReason_indirect_eq_none {o : IndOpnd} :
    (VecOpnd.indirect o).fieldReason = none ↔
      (-512 ≤ o.offset.toInt ∧ o.offset.toInt ≤ 511) ∧ o.ty.isData = true := by
  simp [VecOpnd.fieldReason, ite_eq_iff, offsetInRange]

theorem fieldReason_predicate_eq_none {o : PredOpnd} :
    (VecOpnd.predicate o).fieldReason = none ↔ o.val.inv = false ∧ o.val.comb = .seq := by
  simp [VecOpnd.fieldReason]

theorem useReason_address_eq_none {p : Place} {o : AddrOpnd} :
    (VecOpnd.address o).useReason p = none ↔ p = .dst ∨ o.width.toNat ∈ [1, 2, 4, 8, 16] := by
  simp only [VecOpnd.useReason, ite_eq_left_iff, reduceCtorEq, imp_false, not_not]

/-! ### HCOPY's operands -/

theorem hcopyDst_eq_true (o : VecOpnd) :
    o.hcopyDst = true ↔ (∃ g, o = .general g) ∨ ∃ i, o = .indirect i := by
  cases o <;> simp [VecOpnd.hcopyDst]

theorem hcopySrc_eq_true (o : VecOpnd) :
    o.hcopySrc = true ↔
      (∃ g, o = .general g) ∨ (∃ i, o = .indirect i) ∨ (∃ i, o = .immediate32 i) ∨ ∃ i, o = .immediate64 i := by
  cases o <;> simp [VecOpnd.hcopySrc]

/-- The only vector operands that are accepted but no source of data are those of address and predicate variables. -/
theorem hcopySrc_of_vecReason {l : Launch} {c : Supply} {o : VecOpnd} (haddr : takesAddress c.user = false)
    (hpred : takesPredicate c.user = false) (h : vecReason l c o = none) : o.hcopySrc = true := by
  obtain ⟨-, -, -, hadmit, hclass⟩ := vecReason_eq_none.1 h
  cases o with
  | general | indirect | immediate32 | immediate64 => rfl
  | address o =>
    have htakes := (takesAddress_eq_true _).2 (admitReason_address_eq_none.1 hadmit).2
    exact absurd (haddr.symm.trans htakes) (by decide)
  | predicate o =>
    have htakes := (takesPredicate_eq_true _).2 (admitReason_predicate_eq_none.1 hadmit).2
    exact absurd (hpred.symm.trans htakes) (by decide)
  | state o => cases hclass

/-- A source of data that is accepted as a destination is none of the immediates (R62). -/
theorem hcopyDst_of_vecReason {l : Launch} {c : Supply} {o : VecOpnd} (hp : c.place = .dst) (ho : o.hcopySrc = true)
    (h : vecReason l c o = none) : o.hcopyDst = true := by
  obtain ⟨-, -, -, hadmit, -⟩ := vecReason_eq_none.1 h
  rw [hcopyDst_eq_true]
  obtain ho | ho | ho := (hcopySrc_eq_true o).1 ho
  · exact .inl ho
  · exact .inr ho
  · exact absurd hp ((admitReason_immediate_eq_none ho).1 hadmit)

theorem hcopyRefusal_eq_none {l : Launch} {e : ExecSize} {m : MaskControl} {w : PredWord} {dst src : VecOpnd} :
    hcopyRefusal l e m w dst src = none ↔
      vecReason l (hcopySupply e m .dst) dst = none ∧ vecReason l (hcopySupply e m .src) src = none ∧
        PredAccepted l e.toNat m w ∧ dataTy l dst = dataTy l src := by
  simp only [hcopyRefusal, Option.or_eq_none_iff, vecOwnRefusal, Option.map_eq_none_iff, predControlRefusal_eq_none,
    ite_eq_left_iff, reduceCtorEq, imp_false, not_not]

/-- Under HCOPY's fields an operand row makes the checks that HCOPY makes of it. -/
theorem vecRefusal_hcopyCtx_eq_none {l : Launch} {e : ExecSize} {m : MaskControl} {w : PredWord} {p : Place}
    {o : VecOpnd} :
    vecRefusal l (hcopyCtx e m w p) o = none ↔ vecReason l (hcopySupply e m p) o = none ∧ PredAccepted l e.toNat m w :=
  vecRefusal_eq_none

/-! ### The obligations -/

/-- Settles O10: the region's checks are two, one of the codes and one of the declared variable. -/
theorem generalAcceptedIff : Obligations.GeneralAcceptedIff := by
  unfold Obligations.GeneralAcceptedIff
  intro l c o
  have hreg : (VecOpnd.general o).useReason c.place = none ∧ widthReason c.place c.exec.toNat o.region = none ↔
      RegionLegal c.place False c.exec.toNat o.region := by
    have h := regionReason_eq_none c.place false c.exec.toNat o.region
    rwa [regionReason, Option.or_eq_none_iff, Bool.false_eq_true] at h
  rw [vecRefusal_eq_none, vecReason_eq_none, modReason_eq_none, admitReason_general_eq_none]
  simp only [classReason, genReason_eq_none, genSpanOk_eq_true, ← hreg, VecOpnd.mods]
  constructor
  · rintro ⟨⟨huse, -, hmod, hadmit, d, hd, hdata, hwidth, hspan⟩, hpred⟩
    exact ⟨hadmit, hmod, hpred, d, hd, hdata, ⟨huse, hwidth⟩, hspan⟩
  · rintro ⟨hadmit, hmod, hpred, d, hd, hdata, ⟨huse, hwidth⟩, hspan⟩
    exact ⟨⟨huse, rfl, hmod, hadmit, d, hd, hdata, hwidth, hspan⟩, hpred⟩

/-- Settles O11, as for a general operand. -/
theorem indirectAcceptedIff : Obligations.IndirectAcceptedIff := by
  unfold Obligations.IndirectAcceptedIff
  intro l c o
  have hreg : (VecOpnd.indirect o).useReason c.place = none ∧ widthReason c.place c.exec.toNat o.region = none ↔
      RegionLegal c.place True c.exec.toNat o.region := by
    have h := regionReason_eq_none c.place true c.exec.toNat o.region
    rwa [regionReason, Option.or_eq_none_iff, eq_self] at h
  rw [vecRefusal_eq_none, vecReason_eq_none, modReason_eq_none, admitReason_indirect_eq_none,
    fieldReason_indirect_eq_none, Ty.isData_iff]
  simp only [classReason, indReason_eq_none, ← hreg, VecOpnd.mods]
  constructor
  · rintro ⟨⟨huse, ⟨hoff, hty⟩, hmod, hadmit, hd, hwidth⟩, hpred⟩
    exact ⟨hoff, hty, hadmit, hmod, hpred, hd, huse, hwidth⟩
  · rintro ⟨hoff, hty, hadmit, hmod, hpred, hd, huse, hwidth⟩
    exact ⟨⟨huse, ⟨hoff, hty⟩, hmod, hadmit, hd, hwidth⟩, hpred⟩

/-- The first clause of O12. -/
theorem vecRefusal_address_eq_none {l : Launch} {c : Ctx} {o : AddrOpnd} :
    vecRefusal l c (.address o) = none ↔
      c.user ∈ [User.addrAdd, .specialAddress] ∧ PredAccepted l c.exec.toNat c.mask c.pred ∧
      ∃ d, l.addrDecl o.id = some d ∧
        (c.place = .dst ∧ (d.known = true → o.offset.toNat + c.exec.toNat ≤ d.n) ∨
         c.place = .src ∧ o.width.toNat ∈ [1, 2, 4, 8, 16] ∧
           (d.known = true → o.offset.toNat + o.width.toNat ≤ d.n)) := by
  rw [vecRefusal_eq_none, vecReason_eq_none, admitReason_address_eq_none, useReason_address_eq_none]
  simp only [VecOpnd.fieldReason, VecOpnd.mods, modReason_zero, classReason, addrReason_eq_none, true_and]
  cases hp : c.place with
  | dst => simp [and_left_comm, and_comm]
  | src => simp [and_left_comm, and_comm]
  | scalar => simp

theorem vecRefusal_predicate_eq_none {l : Launch} {c : Ctx} {o : PredOpnd} :
    vecRefusal l c (.predicate o) = none ↔
      o.val.inv = false ∧ o.val.comb = .seq ∧ c.place ≠ .scalar ∧
      c.user ∈ [User.setp, .comparison, .logic, .andOp, .notOp, .orOp, .xorOp] ∧
      PredAccepted l c.exec.toNat c.mask c.pred ∧
      ∃ off d, predOffset l c.mask = some off ∧ c.exec.toNat + off ≤ 32 ∧ l.predDecl o.val.pid = some d ∧
        (d.known = true → off + c.exec.toNat ≤ d.n) := by
  rw [vecRefusal_eq_none, vecReason_eq_none, admitReason_predicate_eq_none, fieldReason_predicate_eq_none]
  simp only [VecOpnd.useReason, VecOpnd.mods, modReason_zero, classReason, predReason_eq_none, true_and]
  constructor
  · rintro ⟨⟨⟨hinv, hcomb⟩, ⟨hp, hu⟩, hd⟩, hpred⟩
    exact ⟨hinv, hcomb, hp, hu, hpred, hd⟩
  · rintro ⟨hinv, hcomb, hp, hu, hpred, hd⟩
    exact ⟨⟨⟨hinv, hcomb⟩, ⟨hp, hu⟩, hd⟩, hpred⟩

/-- A State operand is refused for its use alone when every other check passes (R114). -/
theorem vecRefusal_state_eq_stateUse {l : Launch} {c : Ctx} {o : StateOpnd} :
    vecRefusal l c (.state o) = some (.src, .stateUse) ↔
      c.place = .src ∧ c.user ∈ [User.addrAdd, .movs] ∧
      ∃ d, l.stateDecl o.cls o.id = some d ∧ (d.known = true → o.offset.toNat + c.exec.toNat ≤ d.n) := by
  rw [← stateReason_eq_stateUse, ← and_assoc, ← admitReason_state_eq_none]
  have hclass : vecReason l c.toSupply (.state o) =
      (admitReason c.toSupply (.state o)).or (some (stateReason l c.toSupply o)) := rfl
  rw [vecRefusal, vecOwnRefusal, hclass]
  cases hadmit : admitReason c.toSupply (.state o) with
  | none =>
    have hp := (admitReason_state_eq_none.1 hadmit).1
    simp [hp, placePos]
  | some r =>
    have hr : r ≠ .stateUse := by
      rintro rfl
      cases hp : c.place <;> simp [admitReason, hp] at hadmit
    simp [hr]

/-- Settles O12, class by class. -/
theorem specialOperandsAcceptedIff : Obligations.SpecialOperandsAcceptedIff := by
  unfold Obligations.SpecialOperandsAcceptedIff
  refine fun l c => ⟨fun o => vecRefusal_address_eq_none, fun o => vecRefusal_predicate_eq_none,
    fun o => ⟨vecRefusal_state_ne_none l c o, vecRefusal_state_eq_stateUse⟩, fun o => ?_⟩
  rw [rawRefusal_eq_none, rawReason_eq_none]
  constructor
  · rintro ⟨⟨hu, hp, hd⟩, hpred⟩
    exact ⟨hu, hp, hpred, hd⟩
  · rintro ⟨hu, hp, hpred, hd⟩
    exact ⟨⟨hu, hp, hd⟩, hpred⟩

/-- Settles O45: the harness admits no other classes (R136), and its operands' checks are those of their rows. -/
theorem hcopyAcceptedIff : Obligations.HcopyAcceptedIff := by
  unfold Obligations.HcopyAcceptedIff
  intro l e m w dst src
  rw [hcopyRefusal_eq_none, vecRefusal_hcopyCtx_eq_none, vecRefusal_hcopyCtx_eq_none, ← hcopyDst_eq_true,
    ← hcopySrc_eq_true]
  constructor
  · rintro ⟨hdst, hsrc, hpred, hty⟩
    have hdata : dst.hcopySrc = true := hcopySrc_of_vecReason rfl rfl hdst
    exact ⟨hcopyDst_of_vecReason rfl hdata hdst, hcopySrc_of_vecReason rfl rfl hsrc, ⟨hdst, hpred⟩, ⟨hsrc, hpred⟩,
      hpred, hty⟩
  · rintro ⟨-, -, ⟨hdst, -⟩, ⟨hsrc, -⟩, hpred, hty⟩
    exact ⟨hdst, hsrc, hpred, hty⟩

end Sys2Proof.Machine
end

section
/-!
SUPPORT. The obligations about the shape of every row: the static checks, then the channel enable, then the row's own
checks (60_exceptions.md R140, R142; 41_predication.md R93, R94).
-/

namespace Sys2Proof.Machine
open Sys2Proof.Claims

/-! ### One shape for all rows -/

theorem faultIf_eq_refused (f : Option Fault) (r : Refusal) (k : Result) :
    faultIf f k = .refused r ↔ f = none ∧ k = .refused r := by
  cases f <;> simp [faultIf]

theorem evalData_shape (o : VecOpnd) (s : State) :
    ∃ k : Result, (∀ r, k ≠ .refused r) ∧
      evalData o s = refuseIf (vecRefusal s.launch s.ctx o) s (faultIf s.ctxFault k) := by
  refine ⟨_, fun r => ?_, rfl⟩
  split <;> simp [faultIf_eq_refused]

/-- Every row makes its static checks, evaluates its channel enable where it has one, and is not refused after that. -/
theorem exec_shape (i : Instr) (s : State) :
    ∃ k : Result, (∀ r, k ≠ .refused r) ∧
      exec i s = refuseIf (staticRefusal s.launch s.ctx i) s
        (faultIf (chEnFault s (predicationOf s i).1 (predicationOf s i).2.1 (predicationOf s i).2.2) k) := by
  cases i with
  | opndGeneral o => exact evalData_shape (.general o) s
  | opndIndirect o => exact evalData_shape (.indirect o) s
  | opndImmediate32 o => exact evalData_shape (.immediate32 o) s
  | opndImmediate64 o => exact evalData_shape (.immediate64 o) s
  | opndReserved100 m => exact ⟨.next s, by simp, rfl⟩
  | opndReserved111 m => exact ⟨.next s, by simp, rfl⟩
  | opndAddress o =>
    refine ⟨_, fun r => ?_, rfl⟩
    split <;> simp [faultIf_eq_refused]
  | opndPredicate o =>
    refine ⟨_, fun r => ?_, rfl⟩
    split <;> simp [faultIf_eq_refused]
  | opndState o =>
    refine ⟨_, fun r => ?_, rfl⟩
    simp [faultIf_eq_refused]
  | rawOperand o =>
    refine ⟨_, fun r => ?_, rfl⟩
    split <;> simp [faultIf_eq_refused]
  | predControl w => exact ⟨_, by simp, rfl⟩
  | hcopy e m w dst src =>
    refine ⟨_, fun r => ?_, rfl⟩
    simp [faultIf_eq_refused]

theorem exec_of_staticRefusal {i : Instr} {s : State} {p : Pos} {r : Reason}
    (h : staticRefusal s.launch s.ctx i = some (p, r)) : exec i s = .refused (.illFormed r p s.pc) := by
  obtain ⟨k, -, hexec⟩ := exec_shape i s
  rw [hexec, h, refuseIf_some]

theorem exec_refused_of_staticRefusal_ne_none {i : Instr} {s : State} (h : staticRefusal s.launch s.ctx i ≠ none) :
    ∃ r p, exec i s = .refused (.illFormed r p s.pc) := by
  obtain ⟨⟨p, r⟩, hpr⟩ := Option.ne_none_iff_exists'.1 h
  exact ⟨r, p, exec_of_staticRefusal hpr⟩

theorem exec_ne_refused {i : Instr} {s : State} (h : staticRefusal s.launch s.ctx i = none) (r : Refusal) :
    exec i s ≠ .refused r := by
  obtain ⟨k, hk, hexec⟩ := exec_shape i s
  rw [hexec, h, refuseIf_none, ne_eq, faultIf_eq_refused]
  exact fun hr => hk r hr.2

/-- What the evaluation of its channel enable raises ends every accepted row. -/
theorem exec_of_chEnFault {i : Instr} {s : State} {e : Nat} {m : MaskControl} {w : PredWord} {f : Fault}
    (hok : staticRefusal s.launch s.ctx i = none) (hp : predicationOf s i = (e, m, w))
    (hf : chEnFault s e m w = some f) : exec i s = .fault f := by
  obtain ⟨k, -, hexec⟩ := exec_shape i s
  rw [hexec, hok, hp, hf, refuseIf_none, faultIf_some]

/-- A row whose predication the rules forbid fails a static check. -/
theorem predAccepted_of_staticRefusal {i : Instr} {s : State} (h : staticRefusal s.launch s.ctx i = none) :
    PredAccepted s.launch (predicationOf s i).1 (predicationOf s i).2.1 (predicationOf s i).2.2 := by
  cases i with
  | opndGeneral | opndAddress | opndPredicate | opndIndirect | opndImmediate32 | opndImmediate64 | opndState =>
    exact (vecRefusal_eq_none.1 h).2
  | opndReserved100 | opndReserved111 => cases h
  | rawOperand => exact (rawRefusal_eq_none.1 h).2
  | predControl => exact predControlRefusal_eq_none.1 h
  | hcopy =>
    obtain ⟨-, -, hpred, -⟩ := hcopyRefusal_eq_none.1 h
    exact hpred

/-! ### What the channel enable raises -/

theorem predBoundFault_eq_some {s : State} {pos : Pos} {pid : BitVec 12} {off n : Nat} {d : ElemDecl}
    (hd : s.launch.predDecl pid = some d) (h : d.n ≤ off + n) :
    predBoundFault s pos pid off n = some (.u7 ⟨s.pc, pos, n⟩) := by
  simp only [predBoundFault, hd, if_pos h]

theorem predValueFault_eq_some {s : State} {pos : Pos} {pid : BitVec 12} {off n : Nat}
    (h : s.predBit pid (off + n) = none) : predValueFault s pos pid off n = some (.u9 ⟨s.pc, pos, n⟩) := by
  simp only [predValueFault, h]

theorem chEnFault_of_isNone_eq_false {s : State} {e : Nat} {m : MaskControl} {w : PredWord} (h : w.isNone = false) :
    chEnFault s e m w =
      (firstFault e (predBoundFault s .pred w.pid (predOff s m))).or
        (firstFault e (predValueFault s .pred w.pid (predOff s m))) := by
  rw [chEnFault, h]
  rfl

theorem chEnFault_of_bitMissing {s : State} {e n : Nat} {m : MaskControl} {w : PredWord} (h : BitMissing s e m w n) :
    chEnFault s e m w = some (.u9 ⟨s.pc, .pred, n⟩) := by
  obtain ⟨hw, off, d, hoff, hd, hlen, hn, hbefore, hmissing⟩ := h
  have hbound : firstFault e (predBoundFault s .pred w.pid off) = none :=
    (firstFault_eq_none ..).2 fun k hk => predBoundFault_eq_none.2 ⟨d, hd, by omega⟩
  have hvalue : firstFault e (predValueFault s .pred w.pid off) = some (.u9 ⟨s.pc, .pred, n⟩) :=
    (firstFault_eq_some ..).2
      ⟨n, hn, predValueFault_eq_some hmissing, fun k hk => predValueFault_eq_none.2 (hbefore k hk)⟩
  rw [chEnFault_of_isNone_eq_false hw, predOff_of_predOffset hoff, hbound, hvalue, Option.none_or]

theorem chEnFault_of_bitBeyond {s : State} {e n : Nat} {m : MaskControl} {w : PredWord} (h : BitBeyond s e m w n) :
    chEnFault s e m w = some (.u7 ⟨s.pc, .pred, n⟩) := by
  obtain ⟨hw, off, d, hoff, hd, hn, hbeyond, hbefore⟩ := h
  have hbound : firstFault e (predBoundFault s .pred w.pid off) = some (.u7 ⟨s.pc, .pred, n⟩) :=
    (firstFault_eq_some ..).2
      ⟨n, hn, predBoundFault_eq_some hd hbeyond, fun k hk => predBoundFault_eq_none.2 ⟨d, hd, hbefore k hk⟩⟩
  rw [chEnFault_of_isNone_eq_false hw, predOff_of_predOffset hoff, hbound, Option.some_or]

/-! ### The bits of the channel enable as the pseudo-code computes them -/

theorem baseBit_eq_ite (s : State) (m : MaskControl) (n : Nat) :
    baseBit s m n = if m == .noMask then true else s.em.getLsbD (n + predOff s m) := by
  cases m <;> rfl

/-- Below the execution size the pseudo-code's assignments come to one formula, whatever the combine. -/
theorem evaluateChEn_of_lt {e off n : Nat} {noMask : Bool} {em pred : Nat → Bool} {w : PredWord} (hn : n < e) :
    evaluateChEn e noMask off em w pred n =
      ((if noMask then true else em (n + off)) &&
        (w.isNone || (combineBit w.comb e (fun k => pred (k + off)) n ^^ w.inv))) := by
  have hge : ¬ e ≤ n := by omega
  have hall : (∀ k, k < e → k < e ∧ pred (k + off) = true) ↔ ∀ k, k < e → pred (k + off) = true :=
    forall₂_congr fun k hk => and_iff_right hk
  rw [combineBit_eq_ite, evaluateChEn]
  cases w.isNone with
  | true => simp [hn, hge]
  | false =>
    cases w.inv with
    | true => cases w.comb <;> simp [encodeCombine, hn, hge, hall]
    | false => cases w.comb <;> simp [encodeCombine, hn, hge, hall]

/-! ### The obligations -/

/-- Settles O14: every row makes its static checks first. -/
theorem staticFailureRefuses : Obligations.StaticFailureRefuses := by
  unfold Obligations.StaticFailureRefuses
  exact fun i s p r h => exec_of_staticRefusal h

/-- Settles O15: bit by bit, for each combine. -/
theorem channelEnableIsThePseudocode : Obligations.ChannelEnableIsThePseudocode := by
  unfold Obligations.ChannelEnableIsThePseudocode
  intro s e m w n
  have hread : predRead s m w.pid = fun k => (s.predBit w.pid (k + predOff s m)).getD false := by
    funext k
    rw [predRead, Nat.add_comm]
  rw [getLsbD_evalChEn, chEnBit, pmaskBit, baseBit_eq_ite, hread]
  by_cases hn : n < e.toNat
  · rw [evaluateChEn_of_lt hn]
    simp [hn]
  · have hge : e.toNat ≤ n := by omega
    simp [evaluateChEn, hn, hge]

/-- Settles O16: the offsets by computation, the refusals because an accepted row's predication keeps the rules. -/
theorem maskControlOffsets : Obligations.MaskControlOffsets := by
  unfold Obligations.MaskControlOffsets
  refine ⟨by decide, fun s w hm hw hoff => ?_, fun i s hm hw hoff => ?_, fun i s hfits => ?_⟩
  · refine exec_of_staticRefusal ?_
    have hmask : maskOffset s.ctx.mask = none := by rw [hm]; rfl
    simp [staticRefusal, predControlRefusal, predControlReason, maskReason, predReason, predOffset, hmask, hw, hoff]
  · refine exec_refused_of_staticRefusal_ne_none fun hok => ?_
    obtain ⟨-, hnone | ⟨off, d, hoff', -⟩⟩ := predAccepted_of_staticRefusal hok
    · exact absurd (hw.symm.trans hnone) (by decide)
    · simp [predOffset, hm, maskOffset, hoff] at hoff'
  · exact exec_refused_of_staticRefusal_ne_none fun hok => hfits (predAccepted_of_staticRefusal hok).1

/-- Settles O19: a word that is ready is accepted and raises nothing. -/
theorem predControlCompletes : Obligations.PredControlCompletes := by
  unfold Obligations.PredControlCompletes
  intro s w h
  have hok := predControlRefusal_eq_none.2 (predAccepted_of_predReady h)
  exact (evalPredControl_eq_next ..).2 ⟨hok, chEnFault_of_predReady h, rfl⟩

/-- Settles O20: the missing bit is what the channel enable raises. -/
theorem unwrittenPredicateBitFaults : Obligations.UnwrittenPredicateBitFaults := by
  unfold Obligations.UnwrittenPredicateBitFaults
  exact fun i s e n m w hok hp hmissing => exec_of_chEnFault hok hp (chEnFault_of_bitMissing hmissing)

end Sys2Proof.Machine
end

section
/-!
SUPPORT. The obligations about programs (44_named_instructions.md R137, 60_exceptions.md R140): an operation passes the
checks of the whole program exactly when it decodes to an instruction that passes its static checks.
-/

namespace Sys2Proof

/-! ### Decoding an operand at its place -/

@[simp] theorem checkUse_none (o : VecOpnd) : checkUse none o = .ok () := rfl

theorem checkUse_some_eq_ok {p : Place} {o : VecOpnd} {u : Unit} :
    checkUse (some p) o = .ok u ↔ o.useReason p = none := by
  cases h : o.useReason p <;> simp [checkUse, h]

theorem decodeGen_use_eq_ok {p : Place} {m : BitVec 3} {info rest : List Byte} {o : VecOpnd} :
    decodeGen (some p) m info = .ok (o, rest) ↔ decodeGen none m info = .ok (o, rest) ∧ o.useReason p = none := by
  simp only [decodeGen, bind_eq_ok, checkUse_none, checkUse_some_eq_ok, Except.ok.injEq, Prod.mk.injEq]
  constructor
  · rintro ⟨id, hid, row, hrow, col, hcol, reg, hreg, r, hr, u, huse, rfl, rfl⟩
    exact ⟨⟨id, hid, row, hrow, col, hcol, reg, hreg, r, hr, u, trivial, rfl, rfl⟩, huse⟩
  · rintro ⟨⟨id, hid, row, hrow, col, hcol, reg, hreg, r, hr, u, -, rfl, rfl⟩, huse⟩
    exact ⟨id, hid, row, hrow, col, hcol, reg, hreg, r, hr, u, huse, rfl, rfl⟩

theorem decodeAddr_use_eq_ok {p : Place} {m : BitVec 3} {info rest : List Byte} {o : VecOpnd} :
    decodeAddr (some p) m info = .ok (o, rest) ↔ decodeAddr none m info = .ok (o, rest) ∧ o.useReason p = none := by
  simp only [decodeAddr, bind_eq_ok, checkUse_none, checkUse_some_eq_ok, Except.ok.injEq, Prod.mk.injEq]
  constructor
  · rintro ⟨id, hid, off, hoff, width, hwidth, u, huse, u', hm, rfl, rfl⟩
    exact ⟨⟨id, hid, off, hoff, width, hwidth, u, trivial, u', hm, rfl, rfl⟩, huse⟩
  · rintro ⟨⟨id, hid, off, hoff, width, hwidth, u, -, u', hm, rfl, rfl⟩, huse⟩
    exact ⟨id, hid, off, hoff, width, hwidth, u, huse, u', hm, rfl, rfl⟩

theorem decodeInd_use_eq_ok {T : TypeTable} {p : Place} {m : BitVec 3} {info rest : List Byte} {o : VecOpnd} :
    decodeInd T (some p) m info = .ok (o, rest) ↔
      decodeInd T none m info = .ok (o, rest) ∧ o.useReason p = none := by
  simp only [decodeInd, bind_eq_ok, checkUse_none, checkUse_some_eq_ok, Except.ok.injEq, Prod.mk.injEq]
  constructor
  · rintro ⟨id, hid, k, hk, off, hoff, props, hprops, reg, hreg, r, hr, u, huse, u1, h1, u2, h2, u3, h3, rfl, rfl⟩
    exact ⟨⟨id, hid, k, hk, off, hoff, props, hprops, reg, hreg, r, hr, u, trivial, u1, h1, u2, h2, u3, h3, rfl, rfl⟩,
      huse⟩
  · rintro ⟨⟨id, hid, k, hk, off, hoff, props, hprops, reg, hreg, r, hr, u, -, u1, h1, u2, h2, u3, h3, rfl, rfl⟩,
      huse⟩
    exact ⟨id, hid, k, hk, off, hoff, props, hprops, reg, hreg, r, hr, u, huse, u1, h1, u2, h2, u3, h3, rfl, rfl⟩

/-- Only general, address and indirect operands have fields that a place uses (R51, R53). -/
theorem useReason_of_classCode {o : VecOpnd} (h : o.classCode ∈ [2, 5, 6]) (p : Place) : o.useReason p = none := by
  cases o with
  | general | address | indirect => simp [VecOpnd.classCode] at h
  | predicate | immediate32 | immediate64 | state => rfl

/-- Told its place, the decoder makes the check of the fields that the place uses, and no other. -/
theorem decodeVecAt_some_eq_ok {T : TypeTable} {p : Place} {bs rest : List Byte} {o : VecOpnd} :
    decodeVecAt T (some p) bs = .ok (o, rest) ↔ decodeVec T bs = .ok (o, rest) ∧ o.useReason p = none := by
  cases bs with
  | nil => exact ⟨nofun, nofun⟩
  | cons t info =>
    rw [decodeVec, decodeVecAt_cons, decodeVecAt_cons, bind_eq_ok, bind_eq_ok, exists_and_right, exists_and_right,
      and_assoc]
    refine and_congr_right fun _ => ?_
    have hother {x : Except Reason (VecOpnd × List Byte)} (hx : x = .ok (o, rest) → o.classCode ∈ [2, 5, 6]) :
        x = .ok (o, rest) ↔ x = .ok (o, rest) ∧ o.useReason p = none :=
      iff_self_and.2 fun h => useReason_of_classCode (hx h) p
    match t.toNat % 8 with
    | 0 => exact decodeGen_use_eq_ok
    | 1 => exact decodeAddr_use_eq_ok
    | 2 => exact hother fun h => by simp [decodePred_classCode h]
    | 3 => exact decodeInd_use_eq_ok
    | 4 => exact hother nofun
    | 5 => exact hother fun h => by simp [decodeImm_classCode h]
    | 6 => exact hother fun h => by simp [decodeState_classCode h]
    | _ + 7 => exact hother nofun

/-! ### Reserved tags -/

/-- A tag of reserved class is read as the row of that class, and as no operand (R47). -/
theorem reservedTag_eq_some {bs : List Byte} {i : Instr} (h : reservedTag bs = some i) :
    (∃ m, i = .opndReserved100 m ∨ i = .opndReserved111 m) ∧ ∀ T x, decodeVec T bs ≠ .ok x := by
  cases bs with
  | nil => cases h
  | cons t rest =>
    have hne (ht : t.toNat % 8 = 4 ∨ t.toNat % 8 = 7) (T : TypeTable) (x : VecOpnd × List Byte) :
        decodeVec T (t :: rest) ≠ .ok x := by
      obtain ⟨r, hr⟩ := decodeVecAt_reserved T none rest ht
      simp [decodeVec, hr]
    rw [reservedTag] at h
    split at h
    · cases h
    · split at h
      · next ht => exact ⟨⟨_, .inl (Option.some.inj h).symm⟩, hne (.inl ht)⟩
      · next ht => exact ⟨⟨_, .inr (Option.some.inj h).symm⟩, hne (.inr ht)⟩
      · cases h

theorem reservedTag_of_decodeVec {T : TypeTable} {bs : List Byte} {x : VecOpnd × List Byte}
    (h : decodeVec T bs = .ok x) : reservedTag bs = none :=
  Option.eq_none_iff_forall_ne_some.2 fun _ hi => (reservedTag_eq_some hi).2 T x h

end Sys2Proof

namespace Sys2Proof.Machine
open Sys2Proof.Claims

/-! ### The checks of an encoded operation are those of the instruction it decodes to -/

/-- The decoder at a place and the static checks together: what the static checks alone find in what is decoded. -/
theorem opndRefusal_eq_none {l : Launch} {c : Supply} {bs : List Byte} :
    opndRefusal l c bs = none ↔ ∃ o rest, decodeVec l.types bs = .ok (o, rest) ∧ vecReason l c o = none := by
  have huse {o : VecOpnd} (h : vecReason l c o = none) : o.useReason c.place = none := (vecReason_eq_none.1 h).1
  rw [opndRefusal]
  cases hdec : decodeVecAt l.types (some c.place) bs with
  | error r =>
    refine iff_of_false (by simp) ?_
    rintro ⟨o, rest, hvec, hok⟩
    rw [decodeVecAt_some_eq_ok.2 ⟨hvec, huse hok⟩] at hdec
    cases hdec
  | ok x =>
    obtain ⟨o, rest⟩ := x
    have hvec := (decodeVecAt_some_eq_ok.1 hdec).1
    simp [hvec, vecOwnRefusal]

theorem predHalfRefusal_eq_none {l : Launch} {c : Supply} {n : Nat} :
    predHalfRefusal l c n = none ↔
      ∃ w, decodePredWord n = .ok w ∧ PredAccepted l c.exec.toNat c.mask w := by
  rw [predHalfRefusal]
  cases decodePredWord n with
  | error r => simp
  | ok w => simp [ctxRefusal_eq_none]

theorem codedTy_of_decodeVec {l : Launch} {bs rest : List Byte} {o : VecOpnd}
    (h : decodeVec l.types bs = .ok (o, rest)) : codedTy l bs = dataTy l o := by
  rw [codedTy, h]

theorem staticRefusal_toInstr (l : Launch) (c : Ctx) (o : VecOpnd) :
    staticRefusal l c o.toInstr = vecRefusal l c o := by
  cases o <;> rfl

/-- The operation of an entry decodes to an instruction that passes its static checks under what the entry supplies. -/
def EntryAccepted (l : Launch) (en : Entry) : Prop :=
  ∃ i w, decode l.types en.code = .ok i ∧ entryPredWord en = .ok w ∧
    staticRefusal l { en.supply with pred := w } i = none

theorem entryAccepted_vector {l : Launch} {c : Supply} {p : Half} {bs : List Byte} :
    EntryAccepted l ⟨c, p, .vector bs⟩ ↔ codeRefusal l c p (.vector bs) = none := by
  rw [codeRefusal, Option.or_eq_none_iff, opndRefusal_eq_none, predHalfRefusal_eq_none]
  constructor
  · rintro ⟨i, w, hdec, hw, hok⟩
    simp only [decode] at hdec
    split at hdec
    · next i' hi =>
      cases hdec
      obtain ⟨⟨m, rfl | rfl⟩, -⟩ := reservedTag_eq_some hi
      · cases hok
      · cases hok
    · obtain ⟨⟨o, rest⟩, hvec, hi⟩ := (bind_eq_ok ..).1 hdec
      cases hi
      rw [staticRefusal_toInstr, vecRefusal_eq_none] at hok
      exact ⟨⟨o, rest, hvec, hok.1⟩, w, hw, hok.2⟩
  · rintro ⟨⟨o, rest, hvec, hok⟩, w, hw, hpred⟩
    refine ⟨o.toInstr, w, ?_, hw, ?_⟩
    · rw [decode, reservedTag_of_decodeVec hvec, hvec, ok_bind]
    · rw [staticRefusal_toInstr, vecRefusal_eq_none]
      exact ⟨hok, hpred⟩

theorem entryAccepted_raw {l : Launch} {c : Supply} {p : Half} {bs : List Byte} :
    EntryAccepted l ⟨c, p, .raw bs⟩ ↔ codeRefusal l c p (.raw bs) = none := by
  simp only [EntryAccepted, codeRefusal, decode]
  cases hraw : decodeRaw bs with
  | error r => simp
  | ok x =>
    simp only [Option.or_eq_none_iff, predHalfRefusal_eq_none, ok_bind, rawOwnRefusal, Option.map_eq_none_iff]
    constructor
    · rintro ⟨i, w, hi, hw, hok⟩
      cases hi
      obtain ⟨hraw, hpred⟩ := rawRefusal_eq_none.1 hok
      exact ⟨hraw, w, hw, hpred⟩
    · rintro ⟨hraw, w, hw, hpred⟩
      exact ⟨_, w, rfl, hw, rawRefusal_eq_none.2 ⟨hraw, hpred⟩⟩

theorem entryAccepted_pred {l : Launch} {c : Supply} {p : Half} {bs : List Byte} :
    EntryAccepted l ⟨c, p, .pred bs⟩ ↔ codeRefusal l c p (.pred bs) = none := by
  simp only [EntryAccepted, codeRefusal, decode]
  cases htake : takeLE 2 bs with
  | error r => simp
  | ok x =>
    cases hw : decodePredWord x.1 with
    | error r => simp [hw, predHalfRefusal_eq_none]
    | ok w => simp [hw, predHalfRefusal_eq_none, entryPredWord, staticRefusal, predControlRefusal_eq_none]

theorem entryAccepted_hcopy {l : Launch} {c : Supply} {p p' : Half} {n : Nat} {m : MaskControl} {d s : List Byte} :
    EntryAccepted l ⟨c, p, .hcopy n m p' d s⟩ ↔ codeRefusal l c p (.hcopy n m p' d s) = none := by
  simp only [EntryAccepted, codeRefusal, decode]
  cases he : decodeExec n with
  | error r => simp
  | ok e =>
    simp only [Option.or_eq_none_iff, opndRefusal_eq_none, predHalfRefusal_eq_none, ok_bind, bind_eq_ok,
      ite_none_eq_none_iff]
    constructor
    · rintro ⟨i, w, ⟨⟨dst, drest⟩, hdst, ⟨src, srest⟩, hsrc, w', hw', hi⟩, -, hok⟩
      cases hi
      obtain ⟨hdok, hsok, hpred, hty⟩ := hcopyRefusal_eq_none.1 hok
      exact ⟨⟨dst, drest, hdst, hdok⟩, ⟨src, srest, hsrc, hsok⟩, ⟨w', hw', hpred⟩,
        by rw [codedTy_of_decodeVec hdst, codedTy_of_decodeVec hsrc, hty]⟩
    · rintro ⟨⟨dst, drest, hdst, hdok⟩, ⟨src, srest, hsrc, hsok⟩, ⟨w, hw, hpred⟩, hty⟩
      rw [codedTy_of_decodeVec hdst, codedTy_of_decodeVec hsrc] at hty
      exact ⟨_, _, ⟨(dst, drest), hdst, (src, srest), hsrc, w, hw, rfl⟩, rfl,
        hcopyRefusal_eq_none.2 ⟨hdok, hsok, hpred, hty⟩⟩

/-- The check of one operation finds exactly what decoding it and its static checks find (R140). -/
theorem entryRefusal_eq_none {l : Launch} {k : Nat} {en : Entry} : entryRefusal l k en = none ↔ EntryAccepted l en := by
  obtain ⟨c, p, code⟩ := en
  rw [entryRefusal, Option.map_eq_none_iff]
  cases code with
  | vector bs => exact entryAccepted_vector.symm
  | raw bs => exact entryAccepted_raw.symm
  | pred bs => exact entryAccepted_pred.symm
  | hcopy n m p' d s => exact entryAccepted_hcopy.symm
  | real name => simp [codeRefusal, EntryAccepted, decode]

theorem programRefusal_eq_none {l : Launch} {k : Nat} {p : List Entry} :
    programRefusal l k p = none ↔ ∀ en ∈ p, EntryAccepted l en := by
  induction p generalizing k with
  | nil => simp [programRefusal]
  | cons en rest ih => rw [programRefusal, Option.or_eq_none_iff, entryRefusal_eq_none, ih, List.forall_mem_cons]

theorem decodeEntry_eq_ok {T : TypeTable} {en : Entry} {c : Ctx} {i : Instr} :
    decodeEntry T en = .ok (c, i) ↔
      decode T en.code = .ok i ∧ ∃ w, entryPredWord en = .ok w ∧ c = { en.supply with pred := w } := by
  simp only [decodeEntry, bind_eq_ok, Except.ok.injEq, Prod.mk.injEq]
  constructor
  · rintro ⟨_, hi, w, hw, rfl, rfl⟩
    exact ⟨hi, w, hw, rfl⟩
  · rintro ⟨hi, w, hw, rfl⟩
    exact ⟨i, hi, w, hw, rfl, rfl⟩

/-! ### What a step does -/

/-- A step of an accepted program either stands at its end or runs an accepted instruction. -/
theorem step_cases {s : State} (hp : programRefusal s.launch 0 s.program = none) (hpc : s.pc ≤ s.program.length) :
    s.pc = s.program.length ∧ step s = .next s ∨
    s.pc < s.program.length ∧ ∃ c i, staticRefusal s.launch c i = none ∧ step s = exec i (s.enter c) := by
  have hstep : step s = runNext s := by rw [step, stepState, hp]
  obtain hlt | heq := hpc.lt_or_eq
  · obtain ⟨i, w, hdec, hw, hok⟩ := programRefusal_eq_none.1 hp _ (List.getElem_mem hlt)
    have hentry := decodeEntry_eq_ok.2 ⟨hdec, w, hw, rfl⟩
    refine .inr ⟨hlt, _, i, hok, ?_⟩
    rw [hstep, runNext, List.getElem?_eq_getElem hlt]
    simp only [hentry]
  · refine .inl ⟨heq, ?_⟩
    rw [hstep, runNext, List.getElem?_eq_none heq.ge]
    exact if_pos heq

/-- What answers a next state is an accepted program with its pc inside it or at its end. -/
theorem accepted_of_step_eq_next {s t : State} (h : step s = .next t) :
    programRefusal s.launch 0 s.program = none ∧ s.pc ≤ s.program.length := by
  rw [step, stepState] at h
  split at h
  · cases h
  · next hp =>
    refine ⟨hp, ?_⟩
    by_contra hpc
    rw [runNext, List.getElem?_eq_none (by omega)] at h
    simp [show s.pc ≠ s.program.length by omega] at h

/-! ### The obligations -/

/-- Settles O52: an accepted operation's predication word decodes, and the step enters what the entry supplies. -/
theorem stepRunsDecodedOperation : Obligations.StepRunsDecodedOperation := by
  unfold Obligations.StepRunsDecodedOperation
  intro s en i hp hen hdec
  obtain ⟨-, w, -, hw, -⟩ := programRefusal_eq_none.1 hp en (List.mem_of_getElem? hen)
  have hentry := decodeEntry_eq_ok.2 ⟨hdec, w, hw, rfl⟩
  refine ⟨w, hw, ?_⟩
  rw [step, stepState, hp]
  simp only [runNext, hen, hentry]
  rfl

/-- Settles O53: the check of the whole program is that of each operation; a real instruction does not decode. -/
theorem illFormedProgramRefused : Obligations.IllFormedProgramRefused := by
  unfold Obligations.IllFormedProgramRefused
  refine ⟨fun s k en r hen hr => ?_, fun l k en name hcode => ⟨.opcode, ?_⟩⟩
  · have hp : programRefusal s.launch 0 s.program ≠ none := fun hp => by
      rw [entryRefusal_eq_none.2 (programRefusal_eq_none.1 hp en (List.mem_of_getElem? hen))] at hr
      cases hr
    obtain ⟨r', hr'⟩ := Option.ne_none_iff_exists'.1 hp
    exact ⟨r', by rw [step, stepState, hr']⟩
  · rw [entryRefusal, hcode]
    rfl

/-- Settles O54: the check of a program asks no more than the static checks, and no row is refused after them. -/
theorem acceptedProgramNeverRefused : Obligations.AcceptedProgramNeverRefused := by
  unfold Obligations.AcceptedProgramNeverRefused
  refine ⟨fun l p k h => ⟨fun en hen n => entryRefusal_eq_none.2 (h en hen), programRefusal_eq_none.2 h⟩,
    fun s r hp hpc => ?_⟩
  obtain ⟨-, hstep⟩ | ⟨-, c, i, hok, hstep⟩ := step_cases hp hpc
  · simp [hstep]
  · rw [hstep]
    exact exec_ne_refused hok r

/-- Settles O55: at the end of the program nothing is left to run. -/
theorem runEndsAtProgramLength : Obligations.RunEndsAtProgramLength := by
  unfold Obligations.RunEndsAtProgramLength
  intro s hp hpc
  obtain ⟨-, hstep⟩ | ⟨hlt, -⟩ := step_cases hp hpc.le
  · exact hstep
  · omega

end Sys2Proof.Machine
end

section
/-!
SUPPORT. The obligations about where an operand accesses and what is checked there (20_memory.md R33, R34; 40_regions.md
R71 to R85).
-/

namespace Sys2Proof.Machine
open Sys2Proof.Claims

/-! ### Regions -/

/-- One row of the loop nest, in the channels' numbering: row `k` is channels `k * W` to `k * W + W - 1`. -/
theorem map_srcIndex_row {R C E V W H k : Nat} (hW : 0 < W) :
    (List.range W).map (fun j => srcIndex R C E V W H (W * k + j)) =
      (List.range W).map fun j => (R * E + C) + k * V + j * H := by
  refine List.map_congr_left fun j hj => ?_
  have hj : j < W := List.mem_range.1 hj
  rw [srcIndex, Nat.mul_add_div hW, Nat.mul_add_mod, Nat.div_eq_of_lt hj, Nat.mod_eq_of_lt hj, Nat.add_zero]

/-- Settles O6: row by row, by induction on the number of rows. -/
theorem sourceRegionIsThePseudocode : Obligations.SourceRegionIsThePseudocode := by
  unfold Obligations.SourceRegionIsThePseudocode
  rintro R C E V W H e hW ⟨k, rfl⟩
  rw [Nat.mul_div_cancel_left k hW]
  induction k with
  | zero => rfl
  | succ k ih =>
    rw [List.range_succ, List.flatMap_append, ih, List.flatMap_singleton, Nat.mul_succ, List.range_add,
      List.map_append, List.map_map]
    exact congrArg _ (map_srcIndex_row hW).symm

/-- The legal widths are powers of two, as the execution sizes are (00_scope.md R4, R10). -/
theorem width_dvd_exec (e : ExecSize) : ∀ n ∈ [1, 2, 4, 8, 16], n ≤ e.toNat → 0 < n ∧ n ∣ e.toNat := by
  cases e <;> decide

/-- Settles O7: a legal width that the execution size reaches divides it. -/
theorem execSizeOverWidthExact : Obligations.ExecSizeOverWidthExact := by
  unfold Obligations.ExecSizeOverWidthExact
  intro ind e r h
  obtain ⟨-, ⟨n, hn, hcount, hle⟩, -⟩ := (regionReason_eq_none ..).1 h
  obtain ⟨hpos, hdvd⟩ := width_dvd_exec e n hn hle
  rw [countVal_of_countOf hcount]
  exact ⟨hpos, hdvd, Nat.div_pos hle hpos⟩

/-- The elements of one row fill its 32 bytes (00_scope.md R10). -/
theorem elemsPerRow_mul_size (z : TypeSizes) (t : Ty) : elemsPerRow z t * t.size z = 32 :=
  Nat.div_mul_cancel (t.size_dvd z)

theorem genLoc_of_varDecl {l : Launch} {o : GenOpnd} {d : VarDecl} (hd : l.varDecl o.id = some d)
    (p : Place) (c : Nat) :
    genLoc l p o c = some ⟨o.id, ((genElem l.sizes d.ty p o c * d.ty.size l.sizes : Nat) : Int)⟩ := by
  rw [genLoc, hd]

/-- The first element of a scalar's region, in bytes. -/
theorem genElem_scalar_mul_size (z : TypeSizes) (t : Ty) (o : GenOpnd) (c : Nat) :
    genElem z t .scalar o c * t.size z = o.row.toNat * 32 + o.col.toNat * t.size z := by
  rw [genElem, Nat.add_mul, Nat.mul_assoc, elemsPerRow_mul_size]

/-- Settles O8: a row's elements fill its 32 bytes. -/
theorem elementLayout : Obligations.ElementLayout := by
  unfold Obligations.ElementLayout
  intro l o d c hd
  rw [genLoc_of_varDecl hd, genElem_scalar_mul_size]

/-! ### Bytes of an element -/

theorem readNat_succ_eq_some {m : Memory} {v : Word} {b n x : Nat} (h : readNat m v b (n + 1) = some x) :
    ∃ lo hi, byteOf? m v b = some lo ∧ readNat m v (b + 1) n = some hi ∧ x = lo.toNat + 256 * hi := by
  rw [readNat] at h
  split at h
  · next lo hi hlo hhi => exact ⟨lo, hi, hlo, hhi, (Option.some.inj h).symm⟩
  · cases h

/-- Each byte of a number read is a digit of it in base 256 (R34). -/
theorem byteOf?_of_readNat {m : Memory} {v : Word} {b n x : Nat} (h : readNat m v b n = some x) {i : Nat} (hi : i < n) :
    byteOf? m v (b + i) = some (BitVec.ofNat 8 (x / 256 ^ i)) := by
  induction n generalizing b x i with
  | zero => omega
  | succ n ih =>
    obtain ⟨lo, hi', hlo, hread, rfl⟩ := readNat_succ_eq_some h
    have hlt := lo.isLt
    cases i with
    | zero =>
      rw [Nat.add_zero, hlo, Nat.pow_zero, Nat.div_one]
      exact congrArg some (BitVec.eq_of_toNat_eq (by rw [BitVec.toNat_ofNat]; omega))
    | succ i =>
      have hdiv : (lo.toNat + 256 * hi') / 256 = hi' := by omega
      rw [show b + (i + 1) = b + 1 + i by omega, ih hread (by omega), Nat.pow_succ', ← Nat.div_div_eq_div_mul, hdiv]

/-- Settles O9: at most 8 bytes are read, so the pattern holds the number read. -/
theorem elementBytesLittleEndian : Obligations.ElementBytesLittleEndian := by
  unfold Obligations.ElementBytesLittleEndian
  intro m v size b x hsize h
  obtain ⟨n, hn, rfl⟩ := Option.map_eq_some_iff.1 h
  have hlt : n < 256 ^ size := readNat_lt m v b size n hn
  have hnat : (BitVec.ofNat 64 n).toNat = n :=
    toNat_ofNat_of_lt (hlt.trans_le (Nat.pow_le_pow_right (n := 256) (by decide) hsize))
  rw [hnat]
  exact ⟨hlt, fun i hi => byteOf?_of_readNat hn hi⟩

/-! ### What is checked at one channel -/

/-- A check that a condition lets go on. -/
theorem ite_else_some_eq_none_iff {α : Type} {c : Prop} [Decidable c] {r : α} {k : Option α} :
    (if c then k else some r) = none ↔ c ∧ k = none := by
  split
  · next h => simp [h]
  · next h => simp [h]

theorem genFault_of_varDecl {s : State} {o : GenOpnd} {d : VarDecl} (hd : s.launch.varDecl o.id = some d) (p : Place)
    (c : Nat) :
    genFault s p o c = if genElem s.launch.sizes d.ty p o c < d.n then none else some (.u1 ⟨s.pc, placePos p, c⟩) := by
  rw [genFault, hd]

theorem genFault_eq_none {s : State} {p : Place} {o : GenOpnd} {c : Nat} :
    genFault s p o c = none ↔
      ∃ d, s.launch.varDecl o.id = some d ∧ genElem s.launch.sizes d.ty p o c < d.n := by
  rw [genFault]
  cases s.launch.varDecl o.id with
  | none => simp
  | some d => simp

theorem storage_eq_some {l : Launch} {v : Word} {d : VarDecl} :
    l.storage v = some d ↔ l.varDecl v = some d ∧ d.ty.isData = true := by
  rw [Launch.storage, Option.filter_eq_some_iff]

theorem storage_eq_none {l : Launch} {v : Word} :
    l.storage v = none ↔ ∀ d, l.varDecl v = some d → d.ty.isData = false := by
  simp [Launch.storage, Option.filter_eq_none_iff]

theorem indLoc_eq_some {s : State} {p : Place} {o : IndOpnd} {c : Nat} {x : Loc} :
    indLoc s p o c = some x ↔
      ∃ q, indBase s p o c = some q ∧ x = ⟨q.v, q.b + o.offset.toInt + (indStep s.launch.sizes p o c : Int)⟩ := by
  rw [indLoc, Option.map_eq_some_iff]
  exact exists_congr fun q => and_congr_right fun _ => eq_comm

/-- The address element of a channel's row exists and holds a value (R79 (a)). -/
theorem indBase_eq_some {s : State} {p : Place} {o : IndOpnd} {c : Nat} {q : Ptr} :
    indBase s p o c = some q ↔
      ∃ d, s.launch.addrDecl o.id = some d ∧ o.addrOffset.toNat + indRow p o c < d.n ∧
        s.addrElem o.id (o.addrOffset.toNat + indRow p o c) = some q := by
  rw [indBase]
  cases s.launch.addrDecl o.id with
  | none => simp
  | some d => simp

theorem indFault_of_indLoc_none {s : State} {p : Place} {o : IndOpnd} {c : Nat} (h : indLoc s p o c = none) :
    indFault s p o c = some (.u2 ⟨s.pc, placePos p, c⟩) := by
  rw [indFault, h]

theorem indFault_of_storage_none {s : State} {p : Place} {o : IndOpnd} {c : Nat} {x : Loc}
    (hx : indLoc s p o c = some x) (h : s.launch.storage x.v = none) :
    indFault s p o c = some (.u2 ⟨s.pc, placePos p, c⟩) := by
  simp only [indFault, hx, h]

/-- The checks of a location inside a declared variable, in their order (R79, R83, R142). -/
theorem indFault_of_storage {s : State} {p : Place} {o : IndOpnd} {c : Nat} {x : Loc} {d : VarDecl}
    (hx : indLoc s p o c = some x) (hd : s.launch.storage x.v = some d) :
    indFault s p o c =
      if inBounds s.launch.sizes d x (o.ty.size s.launch.sizes) then
        if alignedTo s.launch.sizes d x (o.ty.size s.launch.sizes) then
          if indSpanBad s p o d x c then some (.u4 ⟨s.pc, placePos p, c⟩) else none
        else some (.u3 ⟨s.pc, placePos p, c⟩)
      else some (.u2 ⟨s.pc, placePos p, c⟩) := by
  simp only [indFault, hx, hd]
  cases inBounds s.launch.sizes d x (o.ty.size s.launch.sizes) with
  | false => rfl
  | true => cases alignedTo s.launch.sizes d x (o.ty.size s.launch.sizes) <;> rfl

theorem inBounds_eq_true {z : TypeSizes} {d : VarDecl} {x : Loc} {size : Nat} :
    inBounds z d x size = true ↔ 0 ≤ x.b ∧ x.b + size ≤ ((d.n * d.ty.size z : Nat) : Int) := by
  rw [inBounds, Bool.and_eq_true, decide_eq_true_eq, decide_eq_true_eq]
  rfl

theorem alignedTo_eq_true {z : TypeSizes} {d : VarDecl} {x : Loc} {size : Nat} :
    alignedTo z d x size = true ↔ (size : Int) ∣ x.b ∧ size ∣ d.baseAlign z := by
  rw [alignedTo, Bool.and_eq_true, decide_eq_true_eq, decide_eq_true_eq, Int.dvd_iff_emod_eq_zero,
    Nat.dvd_iff_mod_eq_zero]

theorem grfAdjacent_eq_false {b b' : Nat} :
    grfAdjacent b b' = false ↔ b / 32 + 1 < b' / 32 ∨ b' / 32 + 1 < b / 32 := by
  rw [← Bool.not_eq_true, grfAdjacent_eq_true]
  omega

/-- An earlier channel of the row lies more than one GRF register away (R83, R85). -/
theorem indSpanBad_eq_true {s : State} {p : Place} {o : IndOpnd} {d : VarDecl} {x : Loc} {c : Nat} :
    indSpanBad s p o d x c = true ↔
      32 ≤ d.n * d.ty.size s.launch.sizes ∧ ∃ k y, k < c ∧ indRow p o k = indRow p o c ∧ indLoc s p o k = some y ∧
        (y.b.toNat / 32 + 1 < x.b.toNat / 32 ∨ x.b.toNat / 32 + 1 < y.b.toNat / 32) := by
  rw [indSpanBad, Bool.and_eq_true, decide_eq_true_eq, List.any_eq_true]
  refine and_congr Iff.rfl (exists_congr fun k => ?_)
  rw [List.mem_range, Bool.and_eq_true, beq_iff_eq]
  cases hy : indLoc s p o k with
  | none => simp
  | some y => simp [grfAdjacent_eq_false]

/-- What the checks of an indirect operand at a channel leave standing when none fails. -/
theorem indFault_eq_none {s : State} {p : Place} {o : IndOpnd} {c : Nat} :
    indFault s p o c = none ↔
      ∃ x d, indLoc s p o c = some x ∧ s.launch.storage x.v = some d ∧
        inBounds s.launch.sizes d x (o.ty.size s.launch.sizes) = true ∧
        alignedTo s.launch.sizes d x (o.ty.size s.launch.sizes) = true ∧ indSpanBad s p o d x c = false := by
  cases hx : indLoc s p o c with
  | none => simp [indFault_of_indLoc_none hx]
  | some x =>
    cases hd : s.launch.storage x.v with
    | none => simp [indFault_of_storage_none hx hd, hd]
    | some d =>
      rw [indFault_of_storage hx hd]
      simp [hd, ite_else_some_eq_none_iff]

/-- Only a source with a Null vertical stride has a row for each `Width` channels (R77, R86, R116). -/
theorem indRow_eq_ite (p : Place) (o : IndOpnd) (c : Nat) :
    indRow p o c = if p = .src ∧ countOf o.region.vert = .null then c / countVal o.region.width else 0 := by
  cases p with
  | dst => rfl
  | src =>
    by_cases hnull : countOf o.region.vert = .null
    · simp [indRow, indMulti, (vertNull_eq_true _).2 hnull, hnull]
    · simp [indRow, indMulti, mt (vertNull_eq_true _).1 hnull, hnull]
  | scalar => rfl

/-- Channels of one row of an indirect operand point into one variable. -/
theorem indLoc_same_row {s : State} {p : Place} {o : IndOpnd} {i j : Nat} {x y : Loc}
    (hrow : indRow p o i = indRow p o j)
    (hx : indLoc s p o i = some x) (hy : indLoc s p o j = some y) : x.v = y.v := by
  obtain ⟨q, hq, rfl⟩ := indLoc_eq_some.1 hx
  obtain ⟨q', hq', rfl⟩ := indLoc_eq_some.1 hy
  have hbase : indBase s p o i = indBase s p o j := by simp only [indBase, hrow]
  rw [hq, hq'] at hbase
  exact congrArg Ptr.v (Option.some.inj hbase)

/-! ### The obligations about indirect operands -/

/-- Settles O28: the chain of checks, one clause each. -/
theorem indirectChecks : Obligations.IndirectChecks := by
  unfold Obligations.IndirectChecks
  intro s p o c
  refine ⟨indRow_eq_ite p o c, fun hbase => ?_, fun d q hd hlt hq => ?_, fun d z => rfl,
    fun x hx => ⟨fun hdecl => ?_, ?_⟩⟩
  · refine indFault_of_indLoc_none (Option.map_eq_none_iff.2 (Option.eq_none_iff_forall_ne_some.2 fun q hq => ?_))
    obtain ⟨d, hd, hlt, helem⟩ := indBase_eq_some.1 hq
    obtain hout | hnone := hbase
    · exact absurd (hout d hd) (by omega)
    · simp [hnone] at helem
  · exact ⟨_, indLoc_eq_some.2 ⟨q, indBase_eq_some.2 ⟨d, hd, hlt, hq⟩, rfl⟩, rfl⟩
  · exact indFault_of_storage_none hx (storage_eq_none.2 hdecl)
  · rintro d _ _ hd hdata rfl rfl
    rw [indFault_of_storage hx (storage_eq_some.2 ⟨hd, hdata⟩), ← inBounds_eq_true, ← alignedTo_eq_true,
      ← indSpanBad_eq_true]
    refine ⟨fun hin => if_neg hin, fun hin => ⟨fun halign => ?_, fun halign => ⟨fun hspan => ?_, fun hspan => ?_⟩⟩⟩
    · rw [if_pos hin, if_neg halign]
    · rw [if_pos hin, if_pos halign, if_pos hspan]
    · rw [if_pos hin, if_pos halign, if_neg hspan]

/-- The check of the later of two channels of a row compares it with the earlier one. -/
theorem grf_adjacent_of_lt {s : State} {p : Place} {o : IndOpnd} {i j : Nat} {x y : Loc} {d : VarDecl}
    (hj : indFault s p o j = none) (hij : i < j) (hrow : indRow p o i = indRow p o j) (hx : indLoc s p o i = some x)
    (hy : indLoc s p o j = some y) (hd : s.launch.varDecl y.v = some d) (hsize : 32 ≤ d.n * d.ty.size s.launch.sizes) :
    x.b.toNat / 32 ≤ y.b.toNat / 32 + 1 ∧ y.b.toNat / 32 ≤ x.b.toNat / 32 + 1 := by
  obtain ⟨y', d', hy', hd', -, -, hspan⟩ := indFault_eq_none.1 hj
  obtain rfl : y = y' := Option.some.inj (hy.symm.trans hy')
  obtain rfl : d = d' := Option.some.inj (hd.symm.trans (storage_eq_some.1 hd').1)
  rw [← Bool.not_eq_true, indSpanBad_eq_true] at hspan
  by_contra hfar
  exact hspan ⟨hsize, i, x, hij, hrow, hx, by omega⟩

/-- Settles O30: the later of two channels was checked against the earlier one. -/
theorem indirectSpanHolds : Obligations.IndirectSpanHolds := by
  unfold Obligations.IndirectSpanHolds
  intro s p o e i j x y d hok hi hj hrow hx hy hd hsize
  have hv : x.v = y.v := indLoc_same_row hrow hx hy
  refine ⟨hv, ?_⟩
  obtain hij | rfl | hji := Nat.lt_trichotomy i j
  · exact (grf_adjacent_of_lt (hok j hj) hij hrow hx hy (hv ▸ hd) hsize).1
  · obtain rfl : x = y := Option.some.inj (hx.symm.trans hy)
    omega
  · exact (grf_adjacent_of_lt (hok i hi) hji hrow.symm hy hx hd hsize).2

end Sys2Proof.Machine
end

section
/-!
SUPPORT. The obligations about data operands as sources (42_vector_operands.md R104, R110 to R116; 40_regions.md R71 to
R79): what completes, what it delivers to the lanes, and which check ends a row that does not complete.
-/

namespace Sys2Proof.Machine
open Sys2Proof.Claims

/-! ### Rows and channels -/

/-- The rows of General, Indirect and Immediate operands are evaluated alike. -/
theorem exec_toInstr_of_hcopySrc {o : VecOpnd} (ho : o.hcopySrc = true) (s : State) :
    exec o.toInstr s = evalData o s := by
  cases o with
  | general | indirect | immediate32 | immediate64 => rfl
  | address | predicate | state => cases ho

theorem chEnBit_lt {s : State} {e : Nat} {m : MaskControl} {w : PredWord} {c : Nat} (h : chEnBit s e m w c = true) :
    c < e := by
  rw [chEnBit, Bool.and_eq_true, Bool.and_eq_true, decide_eq_true_eq] at h
  exact h.1.1

theorem enabled_lt {s : State} {c : Nat} (h : s.enabled c = true) : c < chans s := chEnBit_lt h

theorem chans_le (s : State) : chans s ≤ 32 := s.ctx.exec.toNat_le

theorem firstFault_of_first {e : Nat} {check : Nat → Option Fault} {c : Nat} {f : Fault} (hc : c < e)
    (hf : check c = some f) (hbefore : ∀ k, k < c → check k = none) : firstFault e check = some f :=
  (firstFault_eq_some ..).2 ⟨c, hc, hf, hbefore⟩

theorem dataValueFault_eq_none {s : State} {p : Place} {o : VecOpnd} {en : Nat → Bool} {c : Nat} :
    dataValueFault s p o en c = none ↔ (en c = true → dataValue s p o c ≠ none) := by
  rw [dataValueFault]
  cases en c with
  | false => simp
  | true => cases dataValue s p o c <;> simp

theorem dataValueFault_eq_some {s : State} {p : Place} {o : VecOpnd} {en : Nat → Bool} {c : Nat} (hen : en c = true)
    (h : dataValue s p o c = none) : dataValueFault s p o en c = some (.u9 ⟨s.pc, placePos p, c⟩) := by
  rw [dataValueFault, if_pos hen, h]

theorem placePos_of_ne_dst {p : Place} (h : p ≠ .dst) : placePos p = .src := by
  cases p with
  | dst => exact absurd rfl h
  | src | scalar => rfl

/-! ### A data source that completes -/

/-- Where a data source's element holds no value, or its channel is given none, the lane keeps what it held. -/
theorem lanesHold_afterDataSource {o : VecOpnd} {s : State} {y : Nat → Option Pattern}
    (hy : ∀ c, c < chans s → dataValue s s.ctx.place o c = y c) (hval : ∀ c, s.enabled c = true → y c ≠ none) :
    LanesHold s (afterDataSource o s) fun c =>
      (y c).map (modify s.launch.sizes o.mods false (dataTy s.launch o)) := by
  refine ⟨length_laneFill .., fun c hc => ?_⟩
  refine (getD_laneFill _ _ _ _ c hc).trans ?_
  rw [State.delivers, sourceValue]
  by_cases hlt : c < chans s
  · rw [hy c hlt]
    cases hyc : y c with
    | some v => cases s.ctx.user.onEU <;> simp [hlt, hyc]
    | none =>
      have hdis : s.enabled c = false := Bool.eq_false_iff.2 fun hen => hval c hen hyc
      simp [hdis, hyc]
  · have hdis : s.enabled c = false := Bool.eq_false_iff.2 fun hen => hlt (enabled_lt hen)
    simp [hdis, hlt]

/-- A data source that passes its checks and whose enabled channels have values delivers them. -/
theorem evalData_source_completes {o : VecOpnd} {s : State} {y : Nat → Option Pattern} (hp : s.ctx.place ≠ .dst)
    (hok : vecRefusal s.launch s.ctx o = none) (hready : Ready s)
    (hfault : ∀ c, c < chans s → dataFault s s.ctx.place o c = none)
    (hy : ∀ c, c < chans s → dataValue s s.ctx.place o c = y c) (hval : ∀ c, s.enabled c = true → y c ≠ none) :
    ∃ t, evalData o s = .next t ∧ OnlyLanes s t ∧
      LanesHold s t fun c => (y c).map (modify s.launch.sizes o.mods false (dataTy s.launch o)) := by
  refine ⟨afterDataSource o s, ?_, rfl, lanesHold_afterDataSource hy hval⟩
  refine (evalData_eq_next ..).2 ⟨hok, ctxFault_of_ready hready, hfault, .inr ⟨hp, fun c hc => ?_, rfl⟩⟩
  exact dataValueFault_eq_none.2 fun hen => hy c hc ▸ hval c hen

/-! ### General sources -/

theorem dataTy_general {l : Launch} {o : GenOpnd} {d : VarDecl} (hd : l.varDecl o.id = some d) :
    dataTy l (.general o) = some d.ty := by
  rw [dataTy, hd, Option.map_some]

theorem dataSize_general {l : Launch} {o : GenOpnd} {d : VarDecl} (hd : l.varDecl o.id = some d) :
    dataSize l (.general o) = d.ty.size l.sizes := by
  rw [dataSize, dataTy_general hd]

theorem dataValue_general {s : State} {o : GenOpnd} {d : VarDecl} (hd : s.launch.varDecl o.id = some d) (p : Place)
    (c : Nat) :
    dataValue s p (.general o) c =
      elemRead s.gv o.id (d.ty.size s.launch.sizes)
        (genElem s.launch.sizes d.ty p o c * d.ty.size s.launch.sizes) := by
  simp only [dataValue, dataLoc, genLoc_of_varDecl hd, dataSize_general hd, Int.toNat_natCast]

theorem dataFault_general_eq_none {s : State} {o : GenOpnd} {d : VarDecl} (hd : s.launch.varDecl o.id = some d)
    {p : Place} {c : Nat} (h : genElem s.launch.sizes d.ty p o c < d.n) : dataFault s p (.general o) c = none :=
  genFault_eq_none.2 ⟨d, hd, h⟩

/-- Settles O21: the closed form of the region is the model's element index. -/
theorem generalSourceDelivers : Obligations.GeneralSourceDelivers := by
  unfold Obligations.GeneralSourceDelivers
  intro s o d hp hok hready hd hbound hval
  have hne : s.ctx.place ≠ .dst := by simp [hp]
  have h := evalData_source_completes hne hok hready
    (fun c hc => dataFault_general_eq_none hd (hp ▸ hbound c hc)) (fun c _ => hp ▸ dataValue_general hd .src c) hval
  rwa [dataTy_general hd] at h

/-! ### Indirect sources -/

theorem dataSize_indirect (l : Launch) (o : IndOpnd) : dataSize l (.indirect o) = o.ty.size l.sizes := rfl

/-- A channel that passes its checks accesses `AN(k + row) + offset + step`. -/
theorem indLoc_of_addrElem {s : State} {p : Place} {o : IndOpnd} {c : Nat} {q : Ptr} (h : indFault s p o c = none)
    (hq : s.addrElem o.id (o.addrOffset.toNat + indRow p o c) = some q) :
    indLoc s p o c = some ⟨q.v, q.b + o.offset.toInt + (indStep s.launch.sizes p o c : Int)⟩ := by
  obtain ⟨x, -, hx, -⟩ := indFault_eq_none.1 h
  obtain ⟨q', hbase, rfl⟩ := indLoc_eq_some.1 hx
  obtain ⟨-, -, -, hq'⟩ := indBase_eq_some.1 hbase
  obtain rfl : q = q' := Option.some.inj (hq.symm.trans hq')
  exact hx

theorem dataValue_indirect {s : State} {p : Place} {o : IndOpnd} {c : Nat} {q : Ptr} (h : indFault s p o c = none)
    (hq : s.addrElem o.id (o.addrOffset.toNat + indRow p o c) = some q) :
    dataValue s p (.indirect o) c =
      elemRead s.gv q.v (o.ty.size s.launch.sizes)
        (q.b + o.offset.toInt + (indStep s.launch.sizes p o c : Int)).toNat := by
  simp only [dataValue, dataLoc, indLoc_of_addrElem h hq, dataSize_indirect]

theorem indRow_of_not_multi {p : Place} {o : IndOpnd} (h : ¬ (p = .src ∧ countOf o.region.vert = .null)) (c : Nat) :
    indRow p o c = 0 := by
  rw [indRow_eq_ite, if_neg h]

theorem indStep_of_not_null {o : IndOpnd} (h : countOf o.region.vert ≠ .null) (z : TypeSizes) (c : Nat) :
    indStep z .src o c = ((c / countVal o.region.width) * countVal o.region.vert
      + (c % countVal o.region.width) * countVal o.region.horz) * o.ty.size z := by
  rw [indStep, if_neg (mt (vertNull_eq_true _).1 h)]

theorem indStep_of_null {o : IndOpnd} (h : countOf o.region.vert = .null) (z : TypeSizes) (c : Nat) :
    indStep z .src o c = (c % countVal o.region.width) * countVal o.region.horz * o.ty.size z := by
  rw [indStep, if_pos ((vertNull_eq_true _).2 h)]

/-- Settles O22: the region has no part in a scalar's element. -/
theorem scalarOperandsDeliver : Obligations.ScalarOperandsDeliver := by
  unfold Obligations.ScalarOperandsDeliver
  intro s x hp hready
  have hne : s.ctx.place ≠ .dst := by simp [hp]
  refine ⟨fun o d hok hd hbound hread => ?_, fun o q hok hq hfault hread => ?_⟩
  · have h := evalData_source_completes (y := fun _ => some x) hne hok hready
      (fun c _ => dataFault_general_eq_none hd (hp ▸ hbound))
      (fun c _ => by rw [hp, dataValue_general hd, genElem_scalar_mul_size, hread]) (fun _ _ => nofun)
    rwa [dataTy_general hd] at h
  · refine evalData_source_completes (y := fun _ => some x) hne hok hready (fun c hc => hp ▸ hfault c hc)
      (fun c hc => ?_) (fun _ _ => nofun)
    rw [hp, dataValue_indirect (hfault c hc) hq]
    simpa [indStep] using hread

/-- Settles O25: a single-address operand has one row. -/
theorem indirectSingleSourceDelivers : Obligations.IndirectSingleSourceDelivers := by
  unfold Obligations.IndirectSingleSourceDelivers
  intro s o q y hp hsingle hok hready hq hfault hy hval
  have hne : s.ctx.place ≠ .dst := by simp [hp]
  refine evalData_source_completes hne hok hready (fun c hc => hp ▸ hfault c hc) (fun c hc => ?_) hval
  have hrow : indRow .src o c = 0 := indRow_of_not_multi (fun h => hsingle h.2) c
  rw [hp, hy, dataValue_indirect (hfault c hc) (by rwa [hrow]), indStep_of_not_null hsingle, Nat.cast_mul]

/-- The channels of an accepted source make whole rows (R80). -/
theorem div_width_lt {l : Launch} {c : Ctx} {o : IndOpnd} (hp : c.place = .src)
    (hok : vecRefusal l c (.indirect o) = none) {n : Nat} (hn : n < c.exec.toNat) :
    n / countVal o.region.width < c.exec.toNat / countVal o.region.width := by
  have hlegal := regionLegal_of_vecReason_indirect (vecRefusal_eq_none.1 hok).1
  simp only [hp, RegionLegal] at hlegal
  obtain ⟨-, ⟨w, hw, hcount, hle⟩, -⟩ := hlegal
  obtain ⟨hpos, hdvd⟩ := width_dvd_exec c.exec w hw hle
  rw [countVal_of_countOf hcount]
  exact Nat.div_lt_div_of_lt_of_dvd hdvd hn

/-- Settles O26: row `i` takes its own address element. -/
theorem indirectMultiSourceDelivers : Obligations.IndirectMultiSourceDelivers := by
  unfold Obligations.IndirectMultiSourceDelivers
  intro s o q y hp hmulti hok hready hfault hq hy hval
  have hne : s.ctx.place ≠ .dst := by simp [hp]
  refine evalData_source_completes hne hok hready (fun c hc => hp ▸ hfault c hc) (fun c hc => ?_) hval
  have hrow : indRow .src o c = c / countVal o.region.width := by rw [indRow_eq_ite, if_pos ⟨rfl, hmulti⟩]
  have helem := hq _ (div_width_lt hp hok hc)
  rw [hp, hy c hc, dataValue_indirect (hfault c hc) (by rwa [hrow]), indStep_of_null hmulti]

/-! ### Immediates -/

/-- An immediate raises no fault, and its type is admitted at every place that stores nothing. -/
theorem vecRefusal_immediate32 {l : Launch} {c : Ctx} {o : Imm32} (hp : c.place ≠ .dst) (hbool : o.ty ≠ .bool)
    (hlong : o.ty.isLong = false) (hpred : PredAccepted l c.exec.toNat c.mask c.pred)
    (himm : immReason c.toSupply o.ty = none) : vecRefusal l c (.immediate32 o) = none :=
  vecRefusal_eq_none.2 ⟨vecReason_eq_none.2 ⟨rfl, by simp [VecOpnd.fieldReason, hbool, hlong], rfl,
    (admitReason_immediate_eq_none (.inl ⟨o, rfl⟩)).2 hp, himm⟩, hpred⟩

theorem vecRefusal_immediate64 {l : Launch} {c : Ctx} {o : Imm64} (hp : c.place ≠ .dst) (hlong : o.ty.isLong = true)
    (hpred : PredAccepted l c.exec.toNat c.mask c.pred) : vecRefusal l c (.immediate64 o) = none := by
  have hpacked : o.ty.isPacked = false := by cases h : o.ty <;> simp_all [Ty.isLong, Ty.isPacked]
  exact vecRefusal_eq_none.2 ⟨vecReason_eq_none.2 ⟨rfl, by simp [VecOpnd.fieldReason, hlong], rfl,
    (admitReason_immediate_eq_none (.inr ⟨o, rfl⟩)).2 hp, by simp [classReason, immReason, hpacked]⟩, hpred⟩

/-- A class without a modifier delivers its values as they are. -/
theorem modify_zero (z : TypeSizes) (onDst : Bool) (t : Option Ty) (v : Pattern) : modify z 0 onDst t v = v := rfl

theorem evalData_immediate_completes {o : VecOpnd} {s : State} {y : Nat → Pattern} (hp : s.ctx.place ≠ .dst)
    (hok : vecRefusal s.launch s.ctx o = none) (hready : Ready s) (hmods : o.mods = 0)
    (hfault : ∀ c, dataFault s s.ctx.place o c = none) (hy : ∀ c, dataValue s s.ctx.place o c = some (y c)) :
    ∃ t, evalData o s = .next t ∧ OnlyLanes s t ∧ LanesHold s t fun c => some (y c) := by
  have h := evalData_source_completes hp hok hready (fun c _ => hfault c) (fun c _ => hy c) (fun _ _ => nofun)
  rwa [hmods] at h

/-- The two halves of a 64-bit immediate (R61). -/
theorem imm64Value_eq (o : Imm64) : imm64Value o = BitVec.ofNat 64 (o.high.toNat * 2 ^ 32 + o.low.toNat) := by
  have hlow := o.low.isLt
  have hhigh := o.high.isLt
  apply BitVec.eq_of_toNat_eq
  rw [imm64Value, BitVec.toNat_append, ← Nat.shiftLeft_add_eq_or_of_lt hlow, Nat.shiftLeft_eq,
    toNat_ofNat_of_lt (by omega)]

/-- Settles O31: one value in every channel, and no check at run time. -/
theorem immediateReplicates : Obligations.ImmediateReplicates := by
  unfold Obligations.ImmediateReplicates
  intro s hp hready
  refine ⟨fun o hbool hlong hpacked => ?_, fun o hlong => ?_⟩
  · have himm : immReason s.ctx.toSupply o.ty = none := by simp [immReason, hpacked]
    refine evalData_immediate_completes (o := .immediate32 o) hp
      (vecRefusal_immediate32 hp hbool hlong (predAccepted_of_predReady hready) himm) hready rfl (fun _ => rfl)
      (fun c => ?_)
    have hlow : o.low.toNat % 2 ^ 64 = o.low.toNat := Nat.mod_eq_of_lt (o.low.isLt.trans (by decide))
    rw [dataValue, imm32Value, hpacked, truncTo, BitVec.toNat_setWidth, hlow]
    rfl
  · refine evalData_immediate_completes (o := .immediate64 o) hp
      (vecRefusal_immediate64 hp hlong (predAccepted_of_predReady hready)) hready rfl (fun _ => rfl) (fun c => ?_)
    rw [dataValue, imm64Value_eq]

/-! ### Packed immediates -/

theorem isPacked_cases {t : Ty} (h : t.isPacked = true) : t = .v ∨ t = .uv ∨ t = .vf := by
  cases t <;> simp_all [Ty.isPacked]

/-- A 4-bit field extended with its sign to 16 bits (R112). -/
theorem truncTo_packedV (z : TypeSizes) (low : Word) (c : Nat) :
    truncTo z .w (packedV low c) =
      BitVec.ofNat 64 (if 8 ≤ low.toNat / 2 ^ (4 * c) % 16 then low.toNat / 2 ^ (4 * c) % 16 + 65520
        else low.toNat / 2 ^ (4 * c) % 16) := by
  have hfield : (fieldOf 4 (4 * c) low.toNat).toNat = low.toNat / 2 ^ (4 * c) % 16 := toNat_fieldOf ..
  have hlt : low.toNat / 2 ^ (4 * c) % 16 < 16 := Nat.mod_lt _ (by decide)
  rw [truncTo, packedV, BitVec.toNat_setWidth, BitVec.toNat_signExtend, BitVec.toNat_setWidth, BitVec.msb_eq_decide,
    hfield]
  congr 1
  simp only [Ty.size, decide_eq_true_eq]
  split <;> omega

theorem truncTo_packedUV (z : TypeSizes) (low : Word) (c : Nat) :
    truncTo z .uw (packedUV low c) = BitVec.ofNat 64 (low.toNat / 2 ^ (4 * c) % 16) := by
  have hfield : (fieldOf 4 (4 * c) low.toNat).toNat = low.toNat / 2 ^ (4 * c) % 16 := toNat_fieldOf ..
  rw [truncTo, packedUV, BitVec.toNat_setWidth, hfield]
  congr 1
  simp only [Ty.size]
  omega

theorem packedValue_unknown {l : Launch} (h : l.packed = .unknown) (t : Ty) (low : Word) (c : Nat) :
    packedValue l t low c = truncTo l.sizes t.elem (Config.packedElem t low c) := by
  simp [packedValue, h]

/-- Settles O32: element `c` of the immediate, under each layout. -/
theorem packedImmediatesDeliver : Obligations.PackedImmediatesDeliver := by
  unfold Obligations.PackedImmediatesDeliver
  intro s o hp hready hpacked hle
  have hne : s.ctx.place ≠ .dst := by simp [hp]
  have hnot : o.ty ≠ .bool ∧ o.ty.isLong = false := by
    obtain h | h | h := isPacked_cases hpacked <;> simp [h, Ty.isLong]
  have himm : immReason s.ctx.toSupply o.ty = none := by
    simp [immReason, hpacked, hp, hle.not_gt]
  obtain ⟨t, hexec, honly, hlanes⟩ := evalData_immediate_completes (o := .immediate32 o)
    (y := packedValue s.launch o.ty o.low) hne
    (vecRefusal_immediate32 hne hnot.1 hnot.2 (predAccepted_of_predReady hready) himm) hready rfl (fun _ => rfl)
    (fun c => by rw [dataValue, imm32Value, if_pos hpacked])
  refine ⟨t, hexec, honly, fun hlayout hty => ?_, fun hlayout hty => ?_, fun hlayout => ?_⟩
  · obtain hty | hty := hty
    · simpa [hty, packedValue, hlayout, Ty.elem, truncTo_packedV] using hlanes
    · simpa [hty, packedValue, hlayout, Ty.elem, truncTo_packedUV] using hlanes
  · simpa [hty, packedValue, hlayout, Ty.elem, truncTo, packedVF, fieldOf] using hlanes
  · simpa [packedValue_unknown hlayout, truncTo] using hlanes

/-- Settles O33: the check of a packed immediate at each of the two places. -/
theorem packedImmediateRefusals : Obligations.PackedImmediateRefusals := by
  unfold Obligations.PackedImmediateRefusals
  intro s o hpacked
  have hnot : o.ty ≠ .bool ∧ o.ty.isLong = false := by
    obtain h | h | h := isPacked_cases hpacked <;> simp [h, Ty.isLong]
  have hreason (hp : s.ctx.place ≠ .dst) :
      vecReason s.launch s.ctx.toSupply (.immediate32 o) = immReason s.ctx.toSupply o.ty := by
    have hadmit := (admitReason_immediate_eq_none (c := s.ctx.toSupply) (.inl ⟨o, rfl⟩)).2 hp
    simp [vecReason, VecOpnd.useReason, VecOpnd.fieldReason, hnot, VecOpnd.mods, modReason, hadmit, classReason]
  refine ⟨fun hp hlt => ?_, fun hp => ?_⟩
  · refine exec_of_staticRefusal (i := .opndImmediate32 o) ?_
    simp [staticRefusal, vecRefusal, vecOwnRefusal, hreason, hp, immReason, hpacked, hlt, placePos]
  · refine exec_of_staticRefusal (i := .opndImmediate32 o) ?_
    simp [staticRefusal, vecRefusal, vecOwnRefusal, hreason, hp, immReason, hpacked, placePos]

/-! ### The check that ends a data row -/

theorem evalData_of_dataFault {o : VecOpnd} {s : State} {c : Nat} {f : Fault}
    (hok : vecRefusal s.launch s.ctx o = none) (hready : Ready s) (hc : c < chans s)
    (hbefore : ∀ k, k < c → dataFault s s.ctx.place o k = none) (hf : dataFault s s.ctx.place o c = some f) :
    evalData o s = .fault f := by
  rw [evalData, hok, ctxFault_of_ready hready, firstFault_of_first hc hf hbefore, refuseIf_none, faultIf_none,
    faultIf_some]

/-- An operand with a check at run time is general or indirect. -/
theorem hcopySrc_of_dataFault {s : State} {p : Place} {o : VecOpnd} {c : Nat} {f : Fault}
    (h : dataFault s p o c = some f) : o.hcopySrc = true := by
  cases o with
  | general | indirect => rfl
  | address | predicate | immediate32 | immediate64 | state => cases h

/-- Settles O24: the bound is the only check of a general operand at run time. -/
theorem generalOutOfBoundsFaults : Obligations.GeneralOutOfBoundsFaults := by
  unfold Obligations.GeneralOutOfBoundsFaults
  intro s o d c hok hready hd hc hbefore hout
  refine evalData_of_dataFault (o := .general o) hok hready hc
    (fun k hk => dataFault_general_eq_none hd (hbefore k hk)) ?_
  exact (genFault_of_varDecl hd ..).trans (if_neg hout.not_gt)

/-- Settles O29: the first channel with a failing check, and in an HCOPY the destination's before the source's. -/
theorem firstFailureRaised : Obligations.FirstFailureRaised := by
  unfold Obligations.FirstFailureRaised
  refine ⟨fun s o c f hok hready hc hbefore hf => ?_, fun s e m w dst src c f hok hready hc hbefore hf => ?_⟩
  · rw [exec_toInstr_of_hcopySrc (hcopySrc_of_dataFault hf)]
    exact evalData_of_dataFault hok hready hc hbefore hf
  · have hfirst : hcopyFault s dst src c = some f := Option.or_eq_some_iff.2 hf
    have hnone (k : Nat) (hk : k < c) : hcopyFault s dst src k = none := Option.or_eq_none_iff.2 (hbefore k hk)
    change execHcopy e m w dst src s = _
    rw [execHcopy, hok, chEnFault_of_predReady hready, firstFault_of_first hc hfirst hnone, refuseIf_none, faultIf_none,
      faultIf_some]

end Sys2Proof.Machine
end

section
/-!
SUPPORT. The obligations about data operands as destinations and about HCOPY (40_regions.md R73, R76, R81;
41_predication.md R95; 44_named_instructions.md R136): what is stored, and that no two channels store to one byte.
-/

namespace Sys2Proof.Machine
open Sys2Proof.Claims

/-! ### Where a destination's elements lie -/

/-- A location whose check has passed lies inside its declared variable (R74, R79). -/
theorem dataLoc_inBounds {s : State} {p : Place} {o : VecOpnd} {c : Nat} {x : Loc} (hok : dataFault s p o c = none)
    (hx : dataLoc s p o c = some x) :
    ∃ d, s.launch.varDecl x.v = some d ∧ 0 ≤ x.b ∧ x.b.toNat + dataSize s.launch o ≤ d.size s.launch.sizes := by
  cases o with
  | general o =>
    obtain ⟨d, hd, hlt⟩ := genFault_eq_none.1 hok
    obtain rfl := Option.some.inj ((genLoc_of_varDecl hd p c).symm.trans hx)
    refine ⟨d, hd, Int.natCast_nonneg _, ?_⟩
    rw [dataSize_general hd, Int.toNat_natCast, ← Nat.succ_mul, VarDecl.size]
    exact Nat.mul_le_mul_right _ hlt
  | indirect o =>
    obtain ⟨x', d, hx', hd, hin, -⟩ := indFault_eq_none.1 hok
    obtain rfl : x = x' := Option.some.inj (hx.symm.trans hx')
    obtain ⟨h0, hle⟩ := inBounds_eq_true.1 hin
    refine ⟨d, (storage_eq_some.1 hd).1, h0, ?_⟩
    rw [dataSize_indirect, VarDecl.size]
    omega
  | address | predicate | immediate32 | immediate64 | state => cases hx

/-- The stride of a destination (R73, R76). -/
def dstStride : VecOpnd → Nat
  | .general o => countVal o.region.horz
  | .indirect o => countVal o.region.horz
  | _ => 0

/-- An accepted destination has a stride (R81). -/
theorem dstStride_pos {l : Launch} {c : Supply} {o : VecOpnd} (ho : o.hcopyDst = true) (hp : c.place = .dst)
    (hok : vecReason l c o = none) : 0 < dstStride o := by
  have hpos {r : Region} {ind : Prop} (h : RegionLegal .dst ind c.exec.toNat r) : 0 < countVal r.horz := by
    obtain ⟨⟨n, hn, hcount⟩, -⟩ := h
    rw [countVal_of_countOf hcount]
    simp only [List.mem_cons, List.not_mem_nil, or_false] at hn
    omega
  cases o with
  | general o => exact hpos (hp ▸ regionLegal_of_vecReason_general hok)
  | indirect o => exact hpos (hp ▸ regionLegal_of_vecReason_indirect hok)
  | address | predicate | immediate32 | immediate64 | state => cases ho

/-- A destination's elements stand one stride apart (R73, R76). -/
theorem dataLoc_dst {s : State} {o : VecOpnd} {c : Nat} {x : Loc} (hx : dataLoc s .dst o c = some x) :
    ∃ base : Int, ∀ k y, dataLoc s .dst o k = some y →
      y.b = base + (k * (dstStride o * dataSize s.launch o) : Nat) := by
  cases o with
  | general o =>
    cases hd : s.launch.varDecl o.id with
    | none => simp [dataLoc, genLoc, hd] at hx
    | some d =>
      refine ⟨((o.row.toNat * elemsPerRow s.launch.sizes d.ty + o.col.toNat) * d.ty.size s.launch.sizes : Nat),
        fun k y hy => ?_⟩
      obtain rfl := Option.some.inj ((genLoc_of_varDecl hd .dst k).symm.trans hy)
      rw [dataSize_general hd, ← Nat.cast_add, genElem, dstIndex, dstStride, Nat.add_mul _ (k * _), Nat.mul_assoc k]
  | indirect o =>
    obtain ⟨q, hq, -⟩ := indLoc_eq_some.1 hx
    refine ⟨q.b + o.offset.toInt, fun k y hy => ?_⟩
    obtain ⟨q', hq', rfl⟩ := indLoc_eq_some.1 hy
    obtain rfl : q = q' := Option.some.inj (hq.symm.trans hq')
    rw [dataSize_indirect, indStep, dstStride, Nat.mul_assoc]
  | address | predicate | immediate32 | immediate64 | state => cases hx

/-- Elements `i` and `j` strides from one origin do not overlap, where a stride is at least an element. -/
theorem strides_disjoint {i j stride size : Nat} (hsize : size ≤ stride) (hij : i < j) :
    i * stride + size ≤ j * stride := by
  calc i * stride + size ≤ i * stride + stride := Nat.add_le_add_left hsize _
    _ = (i + 1) * stride := (Nat.succ_mul i stride).symm
    _ ≤ j * stride := Nat.mul_le_mul_right _ hij

section Destination

variable {s : State} {o : VecOpnd} {c : Supply} {e : Nat}

/-- Two channels of an accepted destination store to different bytes. -/
theorem dataLoc_dst_disjoint (hp : c.place = .dst) (hok : vecReason s.launch c o = none)
    (hfault : ∀ k, k < e → dataFault s .dst o k = none) {i j : Nat} {x y : Loc} (hi : i < e) (hj : j < e) (hij : i ≠ j)
    (hx : dataLoc s .dst o i = some x) (hy : dataLoc s .dst o j = some y) :
    x.b.toNat + dataSize s.launch o ≤ y.b.toNat ∨ y.b.toNat + dataSize s.launch o ≤ x.b.toNat := by
  have ho : o.hcopyDst = true := by
    cases o with
    | general | indirect => rfl
    | address | predicate | immediate32 | immediate64 | state => cases hx
  have hsize : dataSize s.launch o ≤ dstStride o * dataSize s.launch o :=
    Nat.le_mul_of_pos_left _ (dstStride_pos ho hp hok)
  obtain ⟨-, -, hx0, -⟩ := dataLoc_inBounds (hfault i hi) hx
  obtain ⟨-, -, hy0, -⟩ := dataLoc_inBounds (hfault j hj) hy
  obtain ⟨base, hbase⟩ := dataLoc_dst hx
  have hxb := hbase i x hx
  have hyb := hbase j y hy
  obtain hlt | hgt := Nat.lt_or_gt_of_ne hij
  · have := strides_disjoint hsize hlt
    omega
  · have := strides_disjoint hsize hgt
    omega

/-- The element of an enabled channel of an accepted destination reads back as what the channel stored. -/
theorem elemRead_storeData_enabled (hp : c.place = .dst) (hok : vecReason s.launch c o = none)
    (hfault : ∀ k, k < e → dataFault s .dst o k = none) {en : Nat → Bool} (val : Nat → Pattern) {i : Nat} {x : Loc}
    (hi : i < e) (hen : en i = true) (hx : dataLoc s .dst o i = some x) :
    elemRead (storeData s o e en val) x.v (dataSize s.launch o) x.b.toNat =
      some (BitVec.ofNat 64 ((val i).toNat % 256 ^ dataSize s.launch o)) :=
  elemRead_storeData s o e en val i x hi hen hx fun _ _ hj _ hji hy =>
    .inr (dataLoc_dst_disjoint hp hok hfault hi hj hji.symm hx hy)

theorem elemRead_congr {m m' : Memory} {v : Word} {size b : Nat}
    (h : ∀ i, i < size → byteOf? m' v (b + i) = byteOf? m v (b + i)) : elemRead m' v size b = elemRead m v size b := by
  rw [elemRead, elemRead, readNat_congr m m' v b size h]

/-- The element of a disabled channel keeps what it held (R95). -/
theorem elemRead_storeData_disabled (hp : c.place = .dst) (hok : vecReason s.launch c o = none)
    (hfault : ∀ k, k < e → dataFault s .dst o k = none) {en : Nat → Bool} (val : Nat → Pattern) {i : Nat} {x : Loc}
    (hi : i < e) (hen : en i = false) (hx : dataLoc s .dst o i = some x) :
    elemRead (storeData s o e en val) x.v (dataSize s.launch o) x.b.toNat =
      elemRead s.gv x.v (dataSize s.launch o) x.b.toNat := by
  refine elemRead_congr fun n hn => byteOf?_storeData s o e en val _ _ fun j y hj henj hy => .inr ?_
  have hij : i ≠ j := by
    rintro rfl
    exact absurd (hen.symm.trans henj) (by decide)
  have := dataLoc_dst_disjoint hp hok hfault hi hj hij hx hy
  omega

end Destination

/-! ### A data destination that completes -/

theorem bytesKept_storeData {s t : State} {o : VecOpnd} {e : Nat} {en : Nat → Bool} {val : Nat → Pattern}
    (h : t.gv = storeData s o e en val) : BytesKept s t o e en := fun v b hout => by
  rw [h, byteOf?_storeData s o e en val v b hout]

theorem evalData_dest_completes {o : VecOpnd} {s : State} (hp : s.ctx.place = .dst)
    (hok : vecRefusal s.launch s.ctx o = none) (hready : Ready s)
    (hfault : ∀ c, c < chans s → dataFault s .dst o c = none) : evalData o s = .next (afterDataDest o s) :=
  (evalData_eq_next ..).2 ⟨hok, ctxFault_of_ready hready, hp ▸ hfault, .inl ⟨hp, rfl⟩⟩

/-- Settles O23: the channels' elements do not overlap, so each reads back as its own channel left it. -/
theorem generalDestinationStores : Obligations.GeneralDestinationStores := by
  unfold Obligations.GeneralDestinationStores
  intro s o d hp hok hready hd hbound
  have hfault (c : Nat) (hc : c < chans s) : dataFault s .dst (.general o) c = none :=
    dataFault_general_eq_none hd (hbound c hc)
  have hvec := (vecRefusal_eq_none.1 hok).1
  refine ⟨_, evalData_dest_completes hp hok hready hfault, rfl, bytesKept_storeData rfl, fun c hc => ?_⟩
  have hloc : dataLoc s .dst (.general o) c = some _ := genLoc_of_varDecl hd .dst c
  have hsize := dataSize_general hd
  cases hen : s.enabled c with
  | true =>
    have h := elemRead_storeData_enabled hp hvec hfault (laneOut s (.general o)) hc hen hloc
    rwa [hsize] at h
  | false =>
    have h := elemRead_storeData_disabled hp hvec hfault (laneOut s (.general o)) hc hen hloc
    rwa [hsize] at h

/-- Settles O27, as for a general destination. -/
theorem indirectDestinationStores : Obligations.IndirectDestinationStores := by
  unfold Obligations.IndirectDestinationStores
  intro s o q hp hok hready hq hfault
  have hvec := (vecRefusal_eq_none.1 hok).1
  refine ⟨_, evalData_dest_completes (o := .indirect o) hp hok hready hfault, rfl, bytesKept_storeData rfl,
    fun c hen => ?_⟩
  have hc := enabled_lt hen
  exact elemRead_storeData_enabled (o := .indirect o) hp hvec hfault (laneOut s (.indirect o)) hc hen
    (indLoc_of_addrElem (hfault c hc) hq)

/-! ### HCOPY -/

theorem truncTo_lt (z : TypeSizes) (t : Ty) (v : Pattern) : (truncTo z t v).toNat < 256 ^ t.size z := by
  have hpow : 2 ^ (8 * t.size z) = 256 ^ t.size z := Nat.pow_mul 2 8 _
  rw [truncTo, BitVec.toNat_ofNat, hpow]
  exact (Nat.mod_le _ _).trans_lt (Nat.mod_lt _ (Nat.pow_pos (by decide)))

theorem dataSize_le (l : Launch) (o : VecOpnd) : dataSize l o ≤ 8 := by
  rw [dataSize]
  split
  · exact Ty.size_le _ _
  · exact Nat.zero_le _

/-- The value of an operand that stands for storage is read at its location. -/
theorem dataValue_eq_some {s : State} {p : Place} {o : VecOpnd} {c : Nat} {v : Pattern} (ho : o.hcopyDst = true) :
    dataValue s p o c = some v ↔
      ∃ x, dataLoc s p o c = some x ∧ elemRead s.gv x.v (dataSize s.launch o) x.b.toNat = some v := by
  cases o with
  | general o => cases hx : dataLoc s p (.general o) c <;> simp [dataValue, hx]
  | indirect o => cases hx : dataLoc s p (.indirect o) c <;> simp [dataValue, hx]
  | address | predicate | immediate32 | immediate64 | state => cases ho

theorem elemRead_lt {m : Memory} {v : Word} {size b : Nat} {x : Pattern} (hsize : size ≤ 8)
    (h : elemRead m v size b = some x) : x.toNat < 256 ^ size :=
  (elementBytesLittleEndian m v size b x hsize h).1

/-- The value of a data source fits its element type. -/
theorem dataValue_lt {s : State} {p : Place} {o : VecOpnd} {c : Nat} {v : Pattern} (ho : o.hcopySrc = true)
    (hok : o.fieldReason = none) (h : dataValue s p o c = some v) : v.toNat < 256 ^ dataSize s.launch o := by
  cases o with
  | general | indirect =>
    obtain ⟨x, -, hx⟩ := (dataValue_eq_some rfl).1 h
    exact elemRead_lt (dataSize_le _ _) hx
  | immediate32 o =>
    obtain rfl := Option.some.inj h
    have hsize : dataSize s.launch (.immediate32 o) = o.ty.elem.size s.launch.sizes := rfl
    rw [imm32Value, hsize]
    split
    · exact truncTo_lt ..
    · next hpacked =>
      have helem : o.ty.elem = o.ty := by cases ht : o.ty <;> simp_all [Ty.isPacked, Ty.elem]
      rw [helem]
      exact truncTo_lt ..
  | immediate64 o =>
    have hlong : o.ty.isLong = true := by simpa [VecOpnd.fieldReason] using hok
    have hsize : dataSize s.launch (.immediate64 o) = 8 := by
      cases ht : o.ty <;> simp_all [Ty.isLong, dataSize, dataTy, Ty.elem, Ty.size]
    rw [hsize]
    exact v.isLt
  | address | predicate | state => cases ho

theorem dataSize_eq_of_dataTy_eq {l : Launch} {o o' : VecOpnd} (h : dataTy l o = dataTy l o') :
    dataSize l o = dataSize l o' := by
  rw [dataSize, dataSize, h]

/-- Settles O44: every source value fits the destination's element, whose type is the same. -/
theorem hcopyCopies : Obligations.HcopyCopies := by
  unfold Obligations.HcopyCopies
  intro s e m w dst src x hok hready hfault hval
  obtain ⟨hdst, hsrc, -, hty⟩ := hcopyRefusal_eq_none.1 hok
  have hchen : (fun c => (evalChEn s e.toNat m w).getLsbD c) = chEnBit s e.toNat m w :=
    funext fun c => getLsbD_evalChEn s e m w c
  simp only [getLsbD_evalChEn] at hval hchen ⊢
  refine ⟨afterHcopy e m w dst src s, (execHcopy_eq_next ..).2 ⟨hok, chEnFault_of_predReady hready, hfault,
    fun c _ => dataValueFault_eq_none.2 fun hen => by simp [hval c hen], rfl⟩, rfl, bytesKept_storeData rfl,
    fun c y hen hy => ?_⟩
  have hstored := elemRead_storeData_enabled (hcopySupply_place e m .dst) hdst (fun k hk => (hfault k hk).1)
    (fun c => (dataValue s .src src c).getD 0#64) (chEnBit_lt hen) hen hy
  have hlt : (x c).toNat < 256 ^ dataSize s.launch dst := by
    rw [dataSize_eq_of_dataTy_eq hty]
    obtain ⟨-, hfield, -⟩ := vecReason_eq_none.1 hsrc
    exact dataValue_lt (hcopySrc_of_vecReason rfl rfl hsrc) hfield (hval c hen)
  refine hstored.trans ?_
  rw [hval c hen, Option.getD_some, Nat.mod_eq_of_lt hlt, BitVec.ofNat_toNat, BitVec.setWidth_eq]

end Sys2Proof.Machine
end

section
/-!
SUPPORT. The obligation that HCOPY is the composition of its parts (44_named_instructions.md R136): nothing that an
operand reads differs between the two parts and HCOPY itself.
-/

namespace Sys2Proof.Machine
open Sys2Proof.Claims

/-! ### States that hold the same values -/

/-- Two states under one launch that hold the same values in every variable that an operand reads, and the same EM. -/
structure SameStorage (s t : State) : Prop where
  launch : t.launch = s.launch
  gv : t.gv = s.gv
  av : t.av = s.av
  pv : t.pv = s.pv
  em : t.em = s.em

section SameStorage

variable {s t : State} (h : SameStorage s t)
include h

theorem SameStorage.indLoc (p : Place) (o : IndOpnd) (c : Nat) : indLoc t p o c = indLoc s p o c := by
  simp only [Machine.indLoc, indBase, State.addrElem, h.launch, h.av]

theorem SameStorage.dataLoc (p : Place) (o : VecOpnd) (c : Nat) : dataLoc t p o c = dataLoc s p o c := by
  cases o with
  | general o => simp only [Machine.dataLoc, h.launch]
  | indirect o => exact h.indLoc p o c
  | address | predicate | immediate32 | immediate64 | state => rfl

theorem SameStorage.dataFault_eq_none (p : Place) (o : VecOpnd) (c : Nat) :
    dataFault t p o c = none ↔ dataFault s p o c = none := by
  cases o with
  | general o =>
    have hiff : genFault t p o c = none ↔ genFault s p o c = none := by
      rw [genFault_eq_none, genFault_eq_none, h.launch]
    exact hiff
  | indirect o =>
    have hspan (d : VarDecl) (x : Loc) : indSpanBad t p o d x c = indSpanBad s p o d x c := by
      simp only [indSpanBad, h.launch, h.indLoc]
    have hiff : indFault t p o c = none ↔ indFault s p o c = none := by
      simp only [indFault_eq_none, h.indLoc, h.launch, hspan]
    exact hiff
  | address | predicate | immediate32 | immediate64 | state => exact Iff.rfl

theorem SameStorage.dataValue (p : Place) (o : VecOpnd) (c : Nat) : dataValue t p o c = dataValue s p o c := by
  cases o with
  | general | indirect | address | predicate | state => simp only [Machine.dataValue, h.dataLoc, h.gv, h.launch]
  | immediate32 o => simp only [Machine.dataValue, h.launch]
  | immediate64 => rfl

theorem SameStorage.chEnBit (e : Nat) (m : MaskControl) (w : PredWord) (c : Nat) :
    chEnBit t e m w c = chEnBit s e m w c :=
  chEnBit_congr h.em (fun k _ => by simp only [predRead, predOff, State.predBit, h.launch, h.pv]) c

theorem SameStorage.chEnFault_eq_none (e : Nat) (m : MaskControl) (w : PredWord) :
    chEnFault t e m w = none ↔ chEnFault s e m w = none := by
  have hoff : predOff t m = predOff s m := predOff_of_launch_eq h.launch m
  have hbit (n : Nat) : t.predBit w.pid n = s.predBit w.pid n := by rw [State.predBit, State.predBit, h.pv]
  cases hw : w.isNone with
  | true => simp [chEnFault, hw]
  | false =>
    simp only [chEnFault_of_isNone_eq_false hw, Option.or_eq_none_iff, firstFault_eq_none, predBoundFault_eq_none,
      predValueFault_eq_none, hoff, hbit, h.launch]

end SameStorage

/-- Writes that agree on the enabled channels leave the same. -/
theorem forChannels_congr {σ : Type} {e : Nat} {en : Nat → Bool} {f g : σ → Nat → σ} (x : σ)
    (h : ∀ c, c < e → en c = true → ∀ y, f y c = g y c) : forChannels e en f x = forChannels e en g x := by
  induction e with
  | zero => rfl
  | succ e ih =>
    rw [forChannels_succ, forChannels_succ, ih fun c hc => h c (Nat.lt_succ_of_lt hc)]
    split
    · next hen => exact h e (Nat.lt_succ_self e) hen _
    · rfl

theorem SameStorage.storeData {s t : State} (h : SameStorage s t) (o : VecOpnd) {e : Nat} {en : Nat → Bool}
    {f g : Nat → Pattern} (hval : ∀ c, c < e → en c = true → f c = g c) :
    storeData t o e en f = storeData s o e en g := by
  rw [Machine.storeData, Machine.storeData, h.gv]
  refine forChannels_congr _ fun c hc hen m => ?_
  rw [h.dataLoc, h.launch, hval c hc hen]

/-! ### A part of an HCOPY -/

/-- When the row of one of HCOPY's operands completes, in the terms of the state that HCOPY starts in. -/
theorem evalData_hcopyCtx_eq_next {s a t : State} (h : SameStorage s a) {e : ExecSize} {m : MaskControl} {w : PredWord}
    {p : Place} (hctx : a.ctx = hcopyCtx e m w p) {o : VecOpnd} :
    evalData o a = .next t ↔
      (vecReason s.launch (hcopySupply e m p) o = none ∧ PredAccepted s.launch e.toNat m w) ∧
      chEnFault s e.toNat m w = none ∧ (∀ c, c < e.toNat → dataFault s p o c = none) ∧
      (p = .dst ∧ t = afterDataDest o a ∨
       p ≠ .dst ∧ (∀ c, c < e.toNat → dataValueFault s p o (chEnBit s e.toNat m w) c = none) ∧
        t = afterDataSource o a) := by
  have hfault : a.ctxFault = none ↔ chEnFault s e.toNat m w = none := by
    rw [State.ctxFault, hctx]
    exact h.chEnFault_eq_none ..
  have hen : a.enabled = chEnBit s e.toNat m w := by
    funext c
    rw [State.enabled, hctx]
    exact h.chEnBit ..
  rw [evalData_eq_next, hfault, hen, hctx, h.launch, vecRefusal_hcopyCtx_eq_none]
  simp only [hcopyCtx, hcopySupply_place, h.dataFault_eq_none, dataValueFault_eq_none, h.dataValue]
  rfl

theorem vecRefusal_of_exec_next {o : VecOpnd} {s t : State} (h : exec o.toInstr s = .next t) :
    vecRefusal s.launch s.ctx o = none := by
  rw [← staticRefusal_toInstr]
  by_contra hne
  obtain ⟨r, p, hr⟩ := exec_refused_of_staticRefusal_ne_none hne
  rw [hr] at h
  cases h

/-- Under HCOPY's fields only the rows of data operands complete. -/
theorem exec_hcopyCtx_eq_next {a t : State} {e : ExecSize} {m : MaskControl} {w : PredWord} {p : Place}
    (hctx : a.ctx = hcopyCtx e m w p) {o : VecOpnd} : exec o.toInstr a = .next t ↔ evalData o a = .next t := by
  constructor
  · intro h
    have hok := vecRefusal_of_exec_next h
    rw [hctx, vecRefusal_hcopyCtx_eq_none] at hok
    rwa [exec_toInstr_of_hcopySrc (hcopySrc_of_vecReason rfl rfl hok.1)] at h
  · intro h
    have hok := ((evalData_eq_next ..).1 h).1
    rw [hctx, vecRefusal_hcopyCtx_eq_none] at hok
    rwa [exec_toInstr_of_hcopySrc (hcopySrc_of_vecReason rfl rfl hok.1)]

/-- The harness takes no modifier (R136). -/
theorem mods_of_vecReason_hcopy {l : Launch} {e : ExecSize} {m : MaskControl} {p : Place} {o : VecOpnd}
    (h : vecReason l (hcopySupply e m p) o = none) : o.mods = 0 := by
  obtain ⟨-, -, hmod, -⟩ := vecReason_eq_none.1 h
  obtain hm | ⟨hu, -⟩ := modReason_eq_none.1 hmod
  · exact hm
  · exact absurd rfl hu

/-- What the source part delivers to an enabled channel is the value that HCOPY reads. -/
theorem laneData_afterDataSource {a : State} {o : VecOpnd} (hmods : o.mods = 0) {c : Nat} (hen : a.enabled c = true) :
    (afterDataSource o a).laneData.getD c 0#64 = (dataValue a a.ctx.place o c).getD 0#64 := by
  refine (getD_laneFill _ _ _ _ c ((enabled_lt hen).trans_le (chans_le a))).trans ?_
  rw [State.delivers, hen, sourceValue, hmods]
  rfl

/-- The state in which HCOPY's destination part starts, after its source part. -/
def hcopyBetween (e : ExecSize) (m : MaskControl) (w : PredWord) (src : VecOpnd) (s : State) : State :=
  (afterDataSource src (s.enter (hcopyCtx e m w .src))).enter (hcopyCtx e m w .dst)

theorem sameStorage_hcopyBetween (e : ExecSize) (m : MaskControl) (w : PredWord) (src : VecOpnd) (s : State) :
    SameStorage s (hcopyBetween e m w src s) := ⟨rfl, rfl, rfl, rfl, rfl⟩

/-- The two parts store what HCOPY stores. -/
theorem afterHcopy_eq {e : ExecSize} {m : MaskControl} {w : PredWord} {dst src : VecOpnd} {s : State}
    (hdst : dst.mods = 0) (hsrc : src.mods = 0) :
    afterHcopy e m w dst src s =
      { s with gv := (afterDataDest dst (hcopyBetween e m w src s)).gv, pc := s.pc + 1 } := by
  have hsame := sameStorage_hcopyBetween e m w src s
  have hen : (hcopyBetween e m w src s).enabled = chEnBit s e.toNat m w := funext fun c => hsame.chEnBit ..
  have hgv : (afterDataDest dst (hcopyBetween e m w src s)).gv =
      storeData s dst e.toNat (chEnBit s e.toNat m w) fun c => (dataValue s .src src c).getD 0#64 := by
    change storeData (hcopyBetween e m w src s) dst e.toNat (hcopyBetween e m w src s).enabled _ = _
    rw [hen]
    refine hsame.storeData dst fun c _ hc => ?_
    rw [hdst, modify_zero]
    exact laneData_afterDataSource (a := s.enter (hcopyCtx e m w .src)) hsrc hc
  rw [hgv]
  rfl

/-- Settles O47: the checks of HCOPY are those of its parts, and so is what they store. -/
theorem hcopyIsItsPartsInTurn : Obligations.HcopyIsItsPartsInTurn := by
  unfold Obligations.HcopyIsItsPartsInTurn
  intro s t e m w dst src
  have hsame : SameStorage s (s.enter (hcopyCtx e m w .src)) := ⟨rfl, rfl, rfl, rfl, rfl⟩
  have hsrcPart (s1 : State) : exec src.toInstr (s.enter (hcopyCtx e m w .src)) = .next s1 ↔ _ :=
    (exec_hcopyCtx_eq_next rfl).trans (evalData_hcopyCtx_eq_next hsame rfl)
  have hdstPart (s2 : State) : exec dst.toInstr (hcopyBetween e m w src s) = .next s2 ↔ _ :=
    (exec_hcopyCtx_eq_next rfl).trans (evalData_hcopyCtx_eq_next (sameStorage_hcopyBetween e m w src s) rfl)
  refine (execHcopy_eq_next e m w dst src s t).trans ?_
  rw [hcopyRefusal_eq_none]
  constructor
  · rintro ⟨⟨hdst, hsrc, hpred, hty⟩, hch, hfault, hval, rfl⟩
    refine ⟨hty, _, _, (hsrcPart _).2 ⟨⟨hsrc, hpred⟩, hch, fun c hc => (hfault c hc).2, .inr ⟨nofun, hval, rfl⟩⟩,
      (hdstPart _).2 ⟨⟨hdst, hpred⟩, hch, fun c hc => (hfault c hc).1, .inl ⟨rfl, rfl⟩⟩, ?_⟩
    exact afterHcopy_eq (mods_of_vecReason_hcopy hdst) (mods_of_vecReason_hcopy hsrc)
  · rintro ⟨hty, s1, s2, h1, h2, rfl⟩
    obtain ⟨⟨hsrc, hpred⟩, hch, hsfault, ⟨hp, -⟩ | ⟨-, hval, rfl⟩⟩ := (hsrcPart s1).1 h1
    · cases hp
    obtain ⟨⟨hdst, -⟩, -, hdfault, ⟨-, rfl⟩ | ⟨hp, -⟩⟩ := (hdstPart s2).1 h2
    · exact ⟨⟨hdst, hsrc, hpred, hty⟩, hch, fun c hc => ⟨hdfault c hc, hsfault c hc⟩, hval,
        (afterHcopy_eq (mods_of_vecReason_hcopy hdst) (mods_of_vecReason_hcopy hsrc)).symm⟩
    · exact absurd rfl hp

end Sys2Proof.Machine
end

section
/-!
SUPPORT. The obligations about address, predicate, state and raw operands (42_vector_operands.md R106 to R109, R114;
43_raw_operands.md R119), and about what ends a row on a bound or on an element without a value (60_exceptions.md R138).
-/

namespace Sys2Proof.Machine
open Sys2Proof.Claims

/-! ### What the enabled channels write to a store -/

section Writes

variable {α : Type} {e : Nat} {en : Nat → Bool} {key : Nat → Nat} {val : Nat → α} (m : Store α)

theorem get?_forChannels_set_ne {k : Nat} (h : ∀ c, c < e → en c = true → key c ≠ k) :
    Store.get? (forChannels e en (fun m c => Store.set m (key c) (val c)) m) k = Store.get? m k := by
  refine forChannels_induct (fun m' => Store.get? m' k = Store.get? m k) e en _ m rfl fun m' c hc hen hm' => ?_
  rw [Store.get?_set_ne m' _ (h c hc hen).symm, hm']

theorem get?_forChannels_set_self (hkey : Function.Injective key) {c : Nat} (hc : c < e) (hen : en c = true) :
    Store.get? (forChannels e en (fun m c => Store.set m (key c) (val c)) m) (key c) = some (val c) := by
  induction e with
  | zero => omega
  | succ e ih =>
    rw [forChannels_succ]
    by_cases hce : c = e
    · subst hce
      rw [if_pos hen, Store.get?_set_self]
    · have ih := ih (by omega)
      split
      · rw [Store.get?_set_ne _ _ (hkey.ne hce), ih]
      · exact ih

theorem forChannels_set_wf (h : Store.wf m) :
    Store.wf (forChannels e en (fun m c => Store.set m (key c) (val c)) m) :=
  forChannels_induct (fun m => Store.wf m) e en _ m h fun m _ _ _ hm => Store.set_wf m _ _ hm

end Writes

/-! ### Address operands -/

theorem addrFault_eq_none {s : State} {p : Place} {o : AddrOpnd} {e : Nat} :
    addrFault s p o e = none ↔
      ∃ d, s.launch.addrDecl o.id = some d ∧ o.offset.toNat + (if p = .dst then e else o.width.toNat) ≤ d.n := by
  rw [addrFault]
  cases s.launch.addrDecl o.id with
  | none => simp
  | some d => simp

theorem addrValueFault_eq_none {s : State} {p : Place} {o : AddrOpnd} {c : Nat} :
    addrValueFault s p o c = none ↔ (s.enabled c = true → s.addrElem o.id (addrIndex p o c) ≠ none) := by
  rw [addrValueFault]
  cases s.enabled c with
  | false => simp
  | true => cases s.addrElem o.id (addrIndex p o c) <;> simp

/-- What every enabled channel delivers, the lanes hold; the others keep what they held. -/
theorem getD_laneFill_of_enabled {α : Type} {s : State} {old : List α} {d : α} {f x : Nat → α}
    (h : ∀ c, s.enabled c = true → f c = x c) {c : Nat} (hc : c < 32) :
    (laneFill old d s.enabled f).getD c d = if s.enabled c then x c else old.getD c d := by
  rw [getD_laneFill _ _ _ _ c hc]
  split
  · next hen => exact h c hen
  · rfl

theorem lanePtr_afterAddrSource (o : AddrOpnd) (s : State) :
    (afterAddrSource o s).lanePtr = laneFill s.lanePtr ⟨0#32, 0⟩ s.enabled fun c =>
      (s.addrElem o.id (addrIndex s.ctx.place o c)).getD ⟨0#32, 0⟩ := rfl

/-- Settles O35: the index is cyclic in the width. -/
theorem addressSourceReplicates : Obligations.AddressSourceReplicates := by
  unfold Obligations.AddressSourceReplicates
  intro s o d x hp hok hready hd hle hval
  have hindex (c : Nat) : addrIndex s.ctx.place o c = o.offset.toNat + c % o.width.toNat := by rw [hp]; rfl
  refine ⟨afterAddrSource o s, (evalAddr_eq_next ..).2 ⟨hok, ctxFault_of_ready hready,
    addrFault_eq_none.2 ⟨d, hd, by simpa [hp] using hle⟩, .inr ⟨by simp [hp], fun c _ => ?_, rfl⟩⟩, rfl, fun c hc => ?_⟩
  · exact addrValueFault_eq_none.2 fun hen => by simp [hindex, hval c hen]
  · rw [lanePtr_afterAddrSource]
    refine getD_laneFill_of_enabled (fun c hen => ?_) hc
    rw [hindex, hval c hen, Option.getD_some]

theorem avKey_add_injective (id : Half) (n : Nat) : Function.Injective fun c => avKey id (n + c) :=
  fun _ _ h => Nat.add_left_cancel (avKey_inj.1 h).2

/-- The elements of an address variable after a destination. -/
theorem addrElem_afterAddrDest (o : AddrOpnd) (s : State) (id : Half) (k : Nat) :
    (afterAddrDest o s).addrElem id k =
      if id = o.id ∧ o.offset.toNat ≤ k ∧ s.enabled (k - o.offset.toNat) = true
      then some (s.lanePtr.getD (k - o.offset.toNat) ⟨0#32, 0⟩) else s.addrElem id k := by
  split
  · next h =>
    obtain ⟨rfl, hle, hen⟩ := h
    have hwrite := get?_forChannels_set_self (val := fun c => s.lanePtr.getD c ⟨0#32, 0⟩) s.av
      (avKey_add_injective o.id o.offset.toNat) (enabled_lt hen) hen
    rwa [Nat.add_sub_cancel' hle] at hwrite
  · next h =>
    refine get?_forChannels_set_ne s.av fun c _ hen heq => h ?_
    obtain ⟨hid, rfl⟩ := avKey_inj.1 heq
    exact ⟨hid.symm, Nat.le_add_right .., by rwa [addrIndex, Nat.add_sub_cancel_left]⟩

/-- Settles O36: element `offset + i` is written by channel `i` alone. -/
theorem addressDestinationWrites : Obligations.AddressDestinationWrites := by
  unfold Obligations.AddressDestinationWrites
  intro s o d hp hok hready hd hle
  exact ⟨afterAddrDest o s, (evalAddr_eq_next ..).2 ⟨hok, ctxFault_of_ready hready,
    addrFault_eq_none.2 ⟨d, hd, by simpa [hp] using hle⟩, .inl ⟨hp, rfl⟩⟩, rfl, addrElem_afterAddrDest o s⟩

/-! ### Predicate operands -/

theorem predOpndValueFault_eq_none {s : State} {o : PredOpnd} {c : Nat} :
    predOpndValueFault s o c = none ↔
      (s.enabled c = true → s.predBit o.val.pid (predOff s s.ctx.mask + c) ≠ none) := by
  rw [predOpndValueFault]
  cases s.enabled c with
  | false => simp
  | true => simp [predValueFault_eq_none]

/-- Settles O38: each bit of the lanes is the bit that its channel reads, or what it was. -/
theorem predicateSourceDelivers : Obligations.PredicateSourceDelivers := by
  unfold Obligations.PredicateSourceDelivers
  intro s o off d x hp hok hready hoff hd hle hval
  have hoff' := predOff_of_predOffset hoff
  have hval' (c : Nat) (hen : s.enabled c = true) : s.predBit o.val.pid (off + c) = some (x c) := by
    rw [Nat.add_comm, hval c hen]
  refine ⟨afterPredSource o s, (evalPred_eq_next ..).2 ⟨hok, ctxFault_of_ready hready,
    fun c hc => predBoundFault_eq_none.2 ⟨d, hd, (Nat.add_lt_add_left hc _).trans_le (hoff' ▸ hle)⟩,
    .inr ⟨by simp [hp], fun c _ => ?_, rfl⟩⟩, rfl,
    fun c hc => ?_⟩
  · exact predOpndValueFault_eq_none.2 fun hen => by simp [hoff', hval' c hen]
  · refine (getLsbD_maskOf _ c).trans ?_
    rw [decide_eq_true hc, Bool.true_and]
    split
    · next hen => simp [predRead, hoff', hval' c hen]
    · rfl

theorem pvKey_add_injective (pid : BitVec 12) (n : Nat) : Function.Injective fun c => pvKey pid (n + c) :=
  fun _ _ h => Nat.add_left_cancel (pvKey_inj.1 h).2

/-- The bits of a predicate variable after a destination. -/
theorem predBit_afterPredDest (o : PredOpnd) (s : State) (pid : BitVec 12) (n : Nat) :
    (afterPredDest o s).predBit pid n =
      if pid = o.val.pid ∧ predOff s s.ctx.mask ≤ n ∧ s.enabled (n - predOff s s.ctx.mask) = true
      then some (s.laneBit.getLsbD (n - predOff s s.ctx.mask)) else s.predBit pid n := by
  split
  · next h =>
    obtain ⟨rfl, hle, hen⟩ := h
    have hwrite := get?_forChannels_set_self (val := fun c => s.laneBit.getLsbD c) s.pv
      (pvKey_add_injective o.val.pid (predOff s s.ctx.mask)) (enabled_lt hen) hen
    rwa [Nat.add_sub_cancel' hle] at hwrite
  · next h =>
    refine get?_forChannels_set_ne s.pv fun c _ hen heq => h ?_
    obtain ⟨hpid, rfl⟩ := pvKey_inj.1 heq
    exact ⟨hpid.symm, Nat.le_add_right .., by rwa [Nat.add_sub_cancel_left]⟩

/-- Settles O39: bit `offset + n` is written by channel `n` alone. -/
theorem predicateDestinationWrites : Obligations.PredicateDestinationWrites := by
  unfold Obligations.PredicateDestinationWrites
  intro s o off d hp hok hready hoff hd hle
  obtain rfl := predOff_of_predOffset hoff
  exact ⟨afterPredDest o s, (evalPred_eq_next ..).2 ⟨hok, ctxFault_of_ready hready,
    fun c hc => predBoundFault_eq_none.2 ⟨d, hd, (Nat.add_lt_add_left hc _).trans_le hle⟩,
    .inl ⟨hp, rfl⟩⟩, rfl, predBit_afterPredDest o s⟩

/-! ### State operands -/

theorem stateFault_eq_none {s : State} {o : StateOpnd} {c : Nat} :
    stateFault s o c = none ↔ ∃ d, s.launch.stateDecl o.cls o.id = some d ∧ o.offset.toNat + c < d.n := by
  rw [stateFault]
  cases s.launch.stateDecl o.cls o.id with
  | none => simp
  | some d => simp

theorem stateValueFault_eq_none {s : State} {o : StateOpnd} {c : Nat} :
    stateValueFault s o c = none ↔ (s.enabled c = true → s.stateElem o.cls o.id (o.offset.toNat + c) ≠ none) := by
  rw [stateValueFault]
  cases s.enabled c with
  | false => simp
  | true => cases s.stateElem o.cls o.id (o.offset.toNat + c) <;> simp

theorem laneState_afterStateSource (o : StateOpnd) (s : State) :
    (afterStateSource o s).laneState = laneFill s.laneState ⟨0⟩ s.enabled fun c =>
      (s.stateElem o.cls o.id (o.offset.toNat + c)).getD ⟨0⟩ := rfl

/-- Settles O40: no State operand passes the static checks; behind them it reads the elements that follow its offset. -/
theorem stateOperandRefused : Obligations.StateOperandRefused := by
  unfold Obligations.StateOperandRefused
  refine ⟨fun s o => evalState_refused o s, fun s o d x hready hd hle hval => ?_⟩
  refine ⟨afterStateSource o s, (readState_eq_next ..).2 ⟨ctxFault_of_ready hready,
    fun c hc => stateFault_eq_none.2 ⟨d, hd, (Nat.add_lt_add_left hc _).trans_le hle⟩,
    fun c _ => ?_, rfl⟩, rfl, fun c hc => ?_⟩
  · exact stateValueFault_eq_none.2 fun hen => by simp [hval c hen]
  · rw [laneState_afterStateSource]
    refine getD_laneFill_of_enabled (fun c hen => ?_) hc
    rw [hval c hen, Option.getD_some]

/-! ### Raw operands -/

theorem rawFault_eq_none {s : State} {o : RawOpnd} :
    rawFault s o = none ↔
      ∃ d, s.launch.varDecl o.id = some d ∧ o.offset.toNat + s.ctx.rawLen ≤ d.size s.launch.sizes := by
  rw [rawFault]
  cases s.launch.varDecl o.id with
  | none => simp
  | some d => simp

theorem rawValueFault_eq_none {s : State} {o : RawOpnd} {i : Nat} :
    rawValueFault s o i = none ↔ byteOf? s.gv o.id (o.offset.toNat + i) ≠ none := by
  rw [rawValueFault]
  cases byteOf? s.gv o.id (o.offset.toNat + i) <;> simp

/-- Settles O41: each byte handed over is the one held. -/
theorem rawSourceDelivers : Obligations.RawSourceDelivers := by
  unfold Obligations.RawSourceDelivers
  intro s o d x hp hok hready hd hle hval
  have hbytes : rawBytes s o = (List.range s.ctx.rawLen).map x :=
    List.map_congr_left fun i hi => by rw [hval i (List.mem_range.1 hi), Option.getD_some]
  rw [← hbytes]
  exact (evalRaw_eq_next ..).2 ⟨hok, ctxFault_of_ready hready, rawFault_eq_none.2 ⟨d, hd, hle⟩,
    .inr ⟨by simp [hp], fun i hi => rawValueFault_eq_none.2 (by simp [hval i hi]), rfl⟩⟩

theorem afterRawDest_eq (o : RawOpnd) (s : State) :
    afterRawDest o s = { s with
      gv := writeBytes s.gv o.id o.offset.toNat (sharedReturn s)
      passed := s.ctxChEn
      returns := s.returns + 1
      pc := s.pc + 1 } := by
  simp only [afterRawDest, State.advance, State.setGv, State.setReturns, State.setPassed]

/-- A raw destination changes bytes, the two ports of the shared function and the pc. -/
theorem onlyReturned_afterRawDest (o : RawOpnd) (s : State) : OnlyReturned s (afterRawDest o s) := by
  rw [afterRawDest_eq]
  rfl

/-- The bytes of a general variable after a raw destination: those returned, and the others as they were. -/
theorem byteOf?_afterRawDest (o : RawOpnd) (s : State) (v : Word) (b : Nat) :
    byteOf? (afterRawDest o s).gv v b =
      if v = o.id ∧ o.offset.toNat ≤ b then ((sharedReturn s)[b - o.offset.toNat]?.join).or (byteOf? s.gv v b)
      else byteOf? s.gv v b := by
  rw [afterRawDest_eq]
  exact byteOf?_writeBytes ..

/-- A byte that the shared function does not return is left alone. -/
theorem byteOf?_afterRawDest_kept {o : RawOpnd} {s : State} {v : Word} {b : Nat}
    (h : ∀ i, i < s.ctx.rawLen → Config.sharedByte s.returns s.ctx.user s.ctxChEn s.payload i ≠ none →
      v ≠ o.id ∨ b ≠ o.offset.toNat + i) : byteOf? (afterRawDest o s).gv v b = byteOf? s.gv v b := by
  rw [byteOf?_afterRawDest]
  split
  · next hin =>
    obtain ⟨hv, hle⟩ := hin
    have hnone : (sharedReturn s)[b - o.offset.toNat]?.join = none := by
      by_cases hlt : b - o.offset.toNat < s.ctx.rawLen
      · rw [getElem?_sharedReturn s _ hlt, Option.join_some]
        by_contra hne
        obtain h | h := h _ hlt hne
        · exact h hv
        · omega
      · rw [List.getElem?_eq_none (by simpa using hlt), Option.join_none]
    rw [hnone, Option.none_or]
  · rfl

/-- Settles O42: a byte that is returned is stored at its place, and no other is touched. -/
theorem rawDestinationStores : Obligations.RawDestinationStores := by
  unfold Obligations.RawDestinationStores
  rintro s o d _ hp hok hready hd hle rfl
  refine ⟨afterRawDest o s, (evalRaw_eq_next ..).2 ⟨hok, ctxFault_of_ready hready, rawFault_eq_none.2 ⟨d, hd, hle⟩,
    .inl ⟨hp, rfl⟩⟩, onlyReturned_afterRawDest o s, fun i x hi hx => ?_, fun v b h => byteOf?_afterRawDest_kept h⟩
  have hret := getElem?_sharedReturn s i hi
  rw [State.ctxChEn, hx] at hret
  rw [byteOf?_afterRawDest, if_pos ⟨rfl, Nat.le_add_right ..⟩, Nat.add_sub_cancel_left, hret, Option.join_some,
    Option.some_or]

/-! ### Beyond a variable -/

/-- A static bound that does not hold is not checked statically. -/
theorem known_eq_false {known : Bool} {a b : Nat} (h : known = true → a ≤ b) (hlt : b < a) : known = false :=
  Bool.eq_false_iff.2 fun hk => hlt.not_ge (h hk)

/-- Settles O37: the static checks leave the bound to the run when the count is not known, and the run checks it. -/
theorem specialBoundFaults : Obligations.SpecialBoundFaults := by
  unfold Obligations.SpecialBoundFaults
  refine fun s => ⟨fun o d hok hready hd hlt => ?_, fun o off c d hok hready hoff hd hc hout hbefore => ?_,
    fun o d c hready hd hc hout hbefore => ?_, fun i e n m w hok hp hbeyond => ?_⟩
  · obtain ⟨-, -, -, -, hclass⟩ := vecReason_eq_none.1 (vecRefusal_eq_none.1 hok).1
    obtain ⟨d', hd', hstatic⟩ := addrReason_eq_none.1 hclass
    obtain rfl : d = d' := Option.some.inj (hd.symm.trans hd')
    refine ⟨known_eq_false hstatic hlt, d.n - o.offset.toNat, by omega, fun j hj => by omega, ?_⟩
    have hfault : addrFault s s.ctx.place o s.ctx.exec.toNat = 
        some (.u6 ⟨s.pc, placePos s.ctx.place, d.n - o.offset.toNat⟩) := by
      rw [addrFault, hd]
      exact if_pos hlt
    change evalAddr o s = _
    rw [evalAddr, hok, ctxFault_of_ready hready, hfault, refuseIf_none, faultIf_none, faultIf_some]
  · obtain ⟨-, -, -, -, hclass⟩ := vecReason_eq_none.1 (vecRefusal_eq_none.1 hok).1
    obtain ⟨off', d', hoff', -, hd', hstatic⟩ := predReason_eq_none.1 hclass
    obtain rfl : off = off' := Option.some.inj (hoff.symm.trans hoff')
    obtain rfl : d = d' := Option.some.inj (hd.symm.trans hd')
    refine ⟨known_eq_false hstatic (hout.trans_lt (Nat.add_lt_add_left hc _)), ?_⟩
    change evalPred o s = _
    rw [evalPred, hok, ctxFault_of_ready hready, predOff_of_predOffset hoff,
      firstFault_of_first hc (predBoundFault_eq_some hd hout)
        fun k hk => predBoundFault_eq_none.2 ⟨d, hd, hbefore k hk⟩,
      refuseIf_none, faultIf_none, faultIf_some]
  · have hfault : stateFault s o c = some (.u8 ⟨s.pc, .src, c⟩) := by
      rw [stateFault, hd]
      exact if_neg hout.not_gt
    rw [readState, ctxFault_of_ready hready,
      firstFault_of_first hc hfault fun k hk => stateFault_eq_none.2 ⟨d, hd, hbefore k hk⟩, faultIf_none, faultIf_some]
  · exact exec_of_chEnFault hok hp (chEnFault_of_bitBeyond hbeyond)

/-! ### Elements without a value -/

/-- A check that only enabled channels make fails first at the first enabled channel that fails it. -/
theorem firstFault_of_first_enabled {s : State} {check : Nat → Option Fault} {P : Nat → Prop} {c : Nat} {f : Fault}
    (hcheck : ∀ k, check k = none ↔ (s.enabled k = true → P k)) (hen : s.enabled c = true) (hf : check c = some f)
    (hbefore : ∀ k, k < c → s.enabled k = true → P k) : firstFault (chans s) check = some f :=
  firstFault_of_first (enabled_lt hen) hf fun k hk => (hcheck k).2 (hbefore k hk)

/-- Settles O46: in each row the values are read after every other check. -/
theorem unwrittenSourceFaults : Obligations.UnwrittenSourceFaults := by
  unfold Obligations.UnwrittenSourceFaults
  refine fun s c => ⟨fun o hp hok hready ho hfault hen hc hbefore => ?_,
    fun o d hp hok hready hd hle hen hc hbefore => ?_, fun o off d hp hok hready hoff hd hle hen hc hbefore => ?_,
    fun o d hready hd hle hen hc hbefore => ?_, fun o d hp hok hready hd hle hlt hc hbefore => ?_,
    fun e m w dst src hok hready hfault hen hc hbefore => ?_⟩
  · have hdata : o.hcopySrc = true := (hcopySrc_eq_true o).2 (ho.imp_right .inl)
    have hvalue := firstFault_of_first_enabled (fun k => dataValueFault_eq_none) hen
      (dataValueFault_eq_some (p := s.ctx.place) hen hc) hbefore
    rw [exec_toInstr_of_hcopySrc hdata, evalData, hok, ctxFault_of_ready hready, (firstFault_eq_none ..).2 hfault,
      if_neg hp, hvalue, placePos_of_ne_dst hp, refuseIf_none, faultIf_none, faultIf_none, faultIf_some]
  · have hindex (k : Nat) : addrIndex s.ctx.place o k = o.offset.toNat + k % o.width.toNat := by rw [hp]; rfl
    have hbound : addrFault s s.ctx.place o s.ctx.exec.toNat = none :=
      addrFault_eq_none.2 ⟨d, hd, by simpa [hp] using hle⟩
    have hf : addrValueFault s s.ctx.place o c = some (.u9 ⟨s.pc, .src, c⟩) := by
      rw [addrValueFault, if_pos hen, hindex, hc, hp, placePos]
    have hvalue := firstFault_of_first_enabled (fun k => addrValueFault_eq_none) hen hf
      (by simpa only [hindex] using hbefore)
    change evalAddr o s = _
    rw [evalAddr, hok, ctxFault_of_ready hready, hbound, if_neg (by simp [hp]), hvalue, refuseIf_none, faultIf_none,
      faultIf_none, faultIf_some]
  · have hoff' := predOff_of_predOffset hoff
    have hbound : firstFault s.ctx.exec.toNat
        (predBoundFault s (placePos s.ctx.place) o.val.pid (predOff s s.ctx.mask)) = none :=
      (firstFault_eq_none ..).2 fun k hk =>
        predBoundFault_eq_none.2 ⟨d, hd, (Nat.add_lt_add_left hk _).trans_le (hoff' ▸ hle)⟩
    have hf : predOpndValueFault s o c = some (.u9 ⟨s.pc, .src, c⟩) := by
      rw [predOpndValueFault, if_pos hen, hoff', predValueFault_eq_some hc]
    have hvalue := firstFault_of_first_enabled (fun k => predOpndValueFault_eq_none) hen hf
      (by simpa only [hoff'] using hbefore)
    change evalPred o s = _
    rw [evalPred, hok, ctxFault_of_ready hready, hbound, if_neg (by simp [hp]), hvalue, refuseIf_none, faultIf_none,
      faultIf_none, faultIf_some]
  · have hbound : firstFault s.ctx.exec.toNat (stateFault s o) = none :=
      (firstFault_eq_none ..).2 fun k hk => stateFault_eq_none.2 ⟨d, hd, (Nat.add_lt_add_left hk _).trans_le hle⟩
    have hf : stateValueFault s o c = some (.u9 ⟨s.pc, .src, c⟩) := by rw [stateValueFault, if_pos hen, hc]
    have hvalue := firstFault_of_first_enabled (fun k => stateValueFault_eq_none) hen hf hbefore
    rw [readState, ctxFault_of_ready hready, hbound, hvalue, faultIf_none, faultIf_none, faultIf_some]
  · have hf : rawValueFault s o c = some (.u9 ⟨s.pc, .src, c⟩) := by rw [rawValueFault, hc]
    have hvalue := firstFault_of_first hlt hf fun k hk => rawValueFault_eq_none.2 (hbefore k hk)
    change evalRaw o s = _
    rw [evalRaw, hok, ctxFault_of_ready hready, rawFault_eq_none.2 ⟨d, hd, hle⟩, if_neg (by simp [hp]), hvalue,
      refuseIf_none, faultIf_none, faultIf_none, faultIf_some]
  · simp only [getLsbD_evalChEn] at hen hbefore
    have hfault' : firstFault e.toNat (hcopyFault s dst src) = none :=
      (firstFault_eq_none ..).2 fun k hk => Option.or_eq_none_iff.2 (hfault k hk)
    have hvalue := firstFault_of_first (chEnBit_lt hen) (dataValueFault_eq_some (p := .src) hen hc)
      fun k hk => dataValueFault_eq_none.2 (hbefore k hk)
    change execHcopy e m w dst src s = _
    rw [execHcopy, hok, chEnFault_of_predReady hready, hfault', hvalue, refuseIf_none, faultIf_none, faultIf_none,
      faultIf_some, placePos]

end Sys2Proof.Machine
end

section
/-!
SUPPORT. The obligations about what a completed row changes and what it leaves unchanged (60_exceptions.md R138;
20_memory.md R38; 44_named_instructions.md R137): one inversion lemma for the rows that complete, one for the rows that
fault, and from them the frames, the invariant and the causes.
-/

namespace Sys2Proof.Machine
open Sys2Proof.Claims

/-! ### What a completed row leaves -/

/-- The rows that complete, the state each leaves, and what has been checked of a row that stores. -/
inductive Completes (s : State) : Instr → State → Prop
  | dataDest (o : VecOpnd) (hp : s.ctx.place = .dst) (ho : o.hcopyDst = true)
      (hok : ∀ c, c < chans s → dataFault s .dst o c = none) : Completes s o.toInstr (afterDataDest o s)
  | dataSource (o : VecOpnd) (hp : s.ctx.place ≠ .dst) (ho : o.hcopySrc = true) :
      Completes s o.toInstr (afterDataSource o s)
  | addrDest (o : AddrOpnd) (hp : s.ctx.place = .dst) (hok : addrFault s .dst o (chans s) = none) :
      Completes s (.opndAddress o) (afterAddrDest o s)
  | addrSource (o : AddrOpnd) (hp : s.ctx.place ≠ .dst) : Completes s (.opndAddress o) (afterAddrSource o s)
  | predDest (o : PredOpnd) (hp : s.ctx.place = .dst)
      (hok : ∀ c, c < chans s → predBoundFault s .dst o.val.pid (predOff s s.ctx.mask) c = none) :
      Completes s (.opndPredicate o) (afterPredDest o s)
  | predSource (o : PredOpnd) (hp : s.ctx.place ≠ .dst) : Completes s (.opndPredicate o) (afterPredSource o s)
  | rawDest (o : RawOpnd) (hp : s.ctx.place = .dst) (hok : rawFault s o = none) :
      Completes s (.rawOperand o) (afterRawDest o s)
  | rawSource (o : RawOpnd) (hp : s.ctx.place ≠ .dst) (hu : s.ctx.user.onEU = false) :
      Completes s (.rawOperand o) (afterRawSource o s)
  | predControl (w : PredWord) :
      Completes s (.predControl w) (s.setPassed (evalChEn s (chans s) s.ctx.mask w)).advance
  | hcopy (e : ExecSize) (m : MaskControl) (w : PredWord) (dst src : VecOpnd)
      (hok : ∀ c, c < e.toNat → dataFault s .dst dst c = none) :
      Completes s (.hcopy e m w dst src) (afterHcopy e m w dst src s)

theorem completes_of_evalData {o : VecOpnd} {s t : State} (ho : o.hcopySrc = true) (h : evalData o s = .next t) :
    Completes s o.toInstr t := by
  obtain ⟨hok, -, hfault, ⟨hp, rfl⟩ | ⟨hp, -, rfl⟩⟩ := (evalData_eq_next ..).1 h
  · exact .dataDest o hp (hcopyDst_of_vecReason hp ho (vecRefusal_eq_none.1 hok).1) (hp ▸ hfault)
  · exact .dataSource o hp ho

/-- A row that answers a next state is one of these. -/
theorem completes_of_exec {i : Instr} {s t : State} (h : exec i s = .next t) : Completes s i t := by
  cases i with
  | opndGeneral o => exact completes_of_evalData (o := .general o) rfl h
  | opndIndirect o => exact completes_of_evalData (o := .indirect o) rfl h
  | opndImmediate32 o => exact completes_of_evalData (o := .immediate32 o) rfl h
  | opndImmediate64 o => exact completes_of_evalData (o := .immediate64 o) rfl h
  | opndAddress o =>
    obtain ⟨-, -, hok, ⟨hp, rfl⟩ | ⟨hp, -, rfl⟩⟩ := (evalAddr_eq_next ..).1 h
    · exact .addrDest o hp (hp ▸ hok)
    · exact .addrSource o hp
  | opndPredicate o =>
    obtain ⟨-, -, hok, ⟨hp, rfl⟩ | ⟨hp, -, rfl⟩⟩ := (evalPred_eq_next ..).1 h
    · rw [hp] at hok
      exact .predDest o hp hok
    · exact .predSource o hp
  | opndState o =>
    obtain ⟨p, r, -, hr⟩ := evalState_refused o s
    cases hr.symm.trans h
  | opndReserved100 m => exact absurd h (reserved_not_next m s t).1
  | opndReserved111 m => exact absurd h (reserved_not_next m s t).2
  | rawOperand o =>
    obtain ⟨hok, -, hbound, ⟨hp, rfl⟩ | ⟨hp, -, rfl⟩⟩ := (evalRaw_eq_next ..).1 h
    · exact .rawDest o hp hbound
    · exact .rawSource o hp ((onEU_eq_false _).2 (rawReason_eq_none.1 (rawRefusal_eq_none.1 hok).1).1)
  | predControl w =>
    obtain ⟨-, -, rfl⟩ := (evalPredControl_eq_next ..).1 h
    exact .predControl w
  | hcopy e m w dst src =>
    obtain ⟨-, -, hok, -, rfl⟩ := (execHcopy_eq_next ..).1 h
    exact .hcopy e m w dst src fun c hc => (hok c hc).1

/-! ### Frames -/

/-- A row that stores nothing changes the pc and the ports: each port for the rows of its own kind alone, and that for
the channel enable in a predication control row and off the EU. -/
theorem Completes.ports {s t : State} {i : Instr} (h : Completes s i t) (hs : StoresNothing s.ctx i) :
    ∃ passed payload ptr bit data,
      t = { s with passed := passed, payload := payload, lanePtr := ptr, laneBit := bit, laneData := data,
                   pc := s.pc + 1 } ∧
      ((∃ w, i = .predControl w) ∨ s.ctx.user.onEU = false ∨ passed = s.passed) ∧
      ((∃ o, i = .rawOperand o) ∨ payload = s.payload) ∧ ((∃ o, i = .opndAddress o) ∨ ptr = s.lanePtr) ∧
      ((∃ o, i = .opndPredicate o) ∨ bit = s.laneBit) ∧
      ((∃ o : VecOpnd, o.hcopySrc = true ∧ i = o.toInstr) ∨ data = s.laneData) := by
  cases h with
  | dataDest o hp ho =>
    obtain ⟨g, rfl⟩ | ⟨g, rfl⟩ := (hcopyDst_eq_true o).1 ho
    · exact absurd hp hs
    · exact absurd hp hs
  | addrDest o hp | predDest o hp | rawDest o hp => exact absurd hp hs
  | hcopy => exact hs.elim
  | dataSource o hp ho =>
    have hport : s.ctx.user.onEU = false ∨ s.passedOn = s.passed := by
      cases hu : s.ctx.user.onEU with
      | false => exact .inl rfl
      | true => exact .inr (s.passedOn_onEU hu)
    exact ⟨_, _, _, _, _, rfl, .inr hport, .inr rfl, .inr rfl, .inr rfl, .inl ⟨o, ho, rfl⟩⟩
  | addrSource o =>
    exact ⟨_, _, _, _, _, rfl, .inr (.inr rfl), .inr rfl, .inl ⟨o, rfl⟩, .inr rfl, .inr rfl⟩
  | predSource o =>
    exact ⟨_, _, _, _, _, rfl, .inr (.inr rfl), .inr rfl, .inr rfl, .inl ⟨o, rfl⟩, .inr rfl⟩
  | rawSource o hp hu =>
    exact ⟨_, _, _, _, _, rfl, .inr (.inl hu), .inl ⟨o, rfl⟩, .inr rfl, .inr rfl, .inr rfl⟩
  | predControl w =>
    exact ⟨_, _, _, _, _, rfl, .inl ⟨w, rfl⟩, .inr rfl, .inr rfl, .inr rfl, .inr rfl⟩

/-- Settles O48: of the rows that complete, those that store nothing change the pc and the ports alone. -/
theorem sourceFrame : Obligations.SourceFrame := by
  unfold Obligations.SourceFrame
  intro i s t hstores h
  obtain ⟨passed, payload, ptr, bit, data, rfl, hpassed, hpayload, hptr, hbit, hdata⟩ :=
    (completes_of_exec h).ports hstores
  refine ⟨fun _ _ => rfl, fun _ _ => rfl, fun _ _ => rfl, fun _ _ _ => rfl, rfl, rfl, rfl, rfl, rfl, hpassed, rfl,
    hpayload, hptr, hbit, rfl, ?_⟩
  obtain ⟨o, ho, rfl⟩ | hdata := hdata
  · obtain ⟨g, rfl⟩ | ⟨g, rfl⟩ | ⟨g, rfl⟩ | ⟨g, rfl⟩ := (hcopySrc_eq_true o).1 ho
    · exact .inl ⟨g, rfl⟩
    · exact .inr (.inl ⟨g, rfl⟩)
    · exact .inr (.inr (.inl ⟨g, rfl⟩))
    · exact .inr (.inr (.inr (.inl ⟨g, rfl⟩)))
  · exact .inr (.inr (.inr (.inr hdata)))

/-- Only the bytes of the enabled channels' elements differ after a data destination. -/
theorem onlyGv_of_evalData_dst {o : VecOpnd} {s t : State} (hp : s.ctx.place = .dst) (h : evalData o s = .next t) :
    OnlyGv s t ∧ BytesKept s t o (chans s) s.enabled := by
  obtain ⟨-, -, -, ⟨-, rfl⟩ | ⟨hne, -⟩⟩ := (evalData_eq_next ..).1 h
  · exact ⟨rfl, bytesKept_storeData rfl⟩
  · exact absurd hp hne

/-- Settles O49: the stores of a data destination and of a raw one. -/
theorem byteDestinationFrame : Obligations.ByteDestinationFrame := by
  unfold Obligations.ByteDestinationFrame
  refine fun s t hp => ⟨fun o h => onlyGv_of_evalData_dst hp h, fun o h => onlyGv_of_evalData_dst hp h, fun o h => ?_⟩
  obtain ⟨-, -, -, ⟨-, rfl⟩ | ⟨hne, -⟩⟩ := (evalRaw_eq_next ..).1 h
  · refine ⟨onlyReturned_afterRawDest o s, fun v b hout => byteOf?_afterRawDest_kept fun i hi _ => ?_⟩
    obtain hv | hb | hb := hout
    · exact .inl hv
    · exact .inr (by omega)
    · exact .inr (by omega)
  · exact absurd hp hne

/-- Settles O50: what each destination writes to its own kind of variable. -/
theorem elementDestinationFrame : Obligations.ElementDestinationFrame := by
  unfold Obligations.ElementDestinationFrame
  refine fun s t hp => ⟨fun o h => ?_, fun o h => ?_⟩
  · obtain ⟨-, -, -, ⟨-, rfl⟩ | ⟨hne, -⟩⟩ := (evalAddr_eq_next ..).1 h
    · refine ⟨rfl, fun _ _ => rfl, fun id k hout => (addrElem_afterAddrDest ..).trans (if_neg ?_)⟩
      rintro ⟨hid, hle, hen⟩
      obtain hne | hall := hout
      · exact hne hid
      · exact hall _ hen (Nat.add_sub_cancel' hle).symm
    · exact absurd hp hne
  · obtain ⟨-, -, -, ⟨-, rfl⟩ | ⟨hne, -⟩⟩ := (evalPred_eq_next ..).1 h
    · refine ⟨rfl, fun _ _ => rfl, fun pid n hout => (predBit_afterPredDest ..).trans (if_neg ?_)⟩
      rintro ⟨hpid, hle, hen⟩
      obtain hne | hall := hout
      · exact hne hpid
      · exact hall _ hen (Nat.sub_add_cancel hle).symm
    · exact absurd hp hne

/-- Settles O51: an HCOPY stores as a data destination does. -/
theorem hcopyFrame : Obligations.HcopyFrame := by
  unfold Obligations.HcopyFrame
  intro s t e m w dst src h
  obtain ⟨-, -, -, -, rfl⟩ := (execHcopy_eq_next ..).1 h
  refine ⟨rfl, ?_⟩
  simp only [getLsbD_evalChEn]
  exact bytesKept_storeData rfl

/-! ### The launch state -/

/-- Settles O56: no storage is listed at launch. -/
theorem resetHoldsNoValues : Obligations.ResetHoldsNoValues := by
  unfold Obligations.ResetHoldsNoValues
  exact ⟨rfl, fun _ _ => rfl, fun _ _ => rfl, fun _ _ => rfl, fun _ _ _ => rfl⟩

/-- Settles O57: empty storage is canonical and in bounds. -/
theorem resetMeetsInvariant : Obligations.ResetMeetsInvariant where
  canonical := ⟨.nil, .nil, .nil, .nil, List.length_replicate, List.length_replicate, List.length_replicate⟩
  inBounds := ⟨fun _ _ h => absurd rfl h, fun _ _ h => absurd rfl h, fun _ _ h => absurd rfl h,
    fun _ _ _ h => absurd rfl h⟩
  pc := Nat.le_refl 0

/-! ### The invariant -/

/-- No row touches the launch, the program, EM or a state variable, and each moves the pc on. -/
theorem Completes.frame {s t : State} {i : Instr} (h : Completes s i t) : SameLaunch s t ∧ t.pc = s.pc + 1 := by
  cases h with
  | rawDest o =>
    rw [afterRawDest_eq]
    exact ⟨⟨rfl, rfl, rfl, rfl⟩, rfl⟩
  | dataDest | dataSource | addrDest | addrSource | predDest | predSource | rawSource | predControl | hcopy =>
    exact ⟨⟨rfl, rfl, rfl, rfl⟩, rfl⟩

theorem Completes.canonical {s t : State} {i : Instr} (h : Completes s i t) (hs : s.Canonical) : t.Canonical := by
  obtain ⟨hgv, hav, hpv, hsv, hdata, hptr, hstate⟩ := hs
  cases h with
  | dataDest | hcopy => exact ⟨storeData_wf _ _ _ _ _ hgv, hav, hpv, hsv, hdata, hptr, hstate⟩
  | dataSource => exact ⟨hgv, hav, hpv, hsv, length_laneFill .., hptr, hstate⟩
  | addrDest => exact ⟨hgv, forChannels_set_wf _ hav, hpv, hsv, hdata, hptr, hstate⟩
  | addrSource => exact ⟨hgv, hav, hpv, hsv, hdata, length_laneFill .., hstate⟩
  | predDest => exact ⟨hgv, hav, forChannels_set_wf _ hpv, hsv, hdata, hptr, hstate⟩
  | rawDest =>
    rw [afterRawDest_eq]
    exact ⟨writeBytes_wf _ _ _ _ hgv, hav, hpv, hsv, hdata, hptr, hstate⟩
  | predSource | rawSource | predControl => exact ⟨hgv, hav, hpv, hsv, hdata, hptr, hstate⟩

/-- The bytes that a data destination stores to lie inside declared variables (R79). -/
theorem storeData_inBounds {s : State} {o : VecOpnd} {e : Nat} {en : Nat → Bool} {val : Nat → Pattern}
    (hs : s.InBounds) (hok : ∀ c, c < e → dataFault s .dst o c = none) {v : Word} {b : Nat}
    (h : byteOf? (storeData s o e en val) v b ≠ none) :
    ∃ d, s.launch.varDecl v = some d ∧ b < d.size s.launch.sizes := by
  by_cases hin : ∃ c x, c < e ∧ dataLoc s .dst o c = some x ∧ v = x.v ∧ x.b.toNat ≤ b ∧
      b < x.b.toNat + dataSize s.launch o
  · obtain ⟨c, x, hc, hx, rfl, -, hlt⟩ := hin
    obtain ⟨d, hd, -, hle⟩ := dataLoc_inBounds (hok c hc) hx
    exact ⟨d, hd, hlt.trans_le hle⟩
  · refine hs.gv v b ?_
    rwa [byteOf?_storeData] at h
    intro c x hc _ hx
    by_contra hout
    exact hin ⟨c, x, hc, hx, by tauto, by omega, by omega⟩

/-- So do the bytes that a raw destination stores to (R122). -/
theorem afterRawDest_inBounds {s : State} {o : RawOpnd} (hs : s.InBounds) (hok : rawFault s o = none) {v : Word}
    {b : Nat} (h : byteOf? (afterRawDest o s).gv v b ≠ none) :
    ∃ d, s.launch.varDecl v = some d ∧ b < d.size s.launch.sizes := by
  by_cases hin : v = o.id ∧ b < o.offset.toNat + s.ctx.rawLen
  · obtain ⟨rfl, hlt⟩ := hin
    obtain ⟨d, hd, hle⟩ := rawFault_eq_none.1 hok
    exact ⟨d, hd, hlt.trans_le hle⟩
  · refine hs.gv v b ?_
    rwa [byteOf?_afterRawDest_kept] at h
    intro i hi _
    by_contra hout
    exact hin ⟨by tauto, by omega⟩

theorem Completes.inBounds {s t : State} {i : Instr} (h : Completes s i t) (hs : s.InBounds) : t.InBounds := by
  obtain ⟨hgv, hav, hpv, hsv⟩ := id hs
  cases h with
  | dataDest o _ _ hok => exact ⟨fun _ _ => storeData_inBounds hs hok, hav, hpv, hsv⟩
  | hcopy e m w dst src hok => exact ⟨fun _ _ => storeData_inBounds hs hok, hav, hpv, hsv⟩
  | addrDest o _ hok =>
    refine ⟨hgv, fun id k hne => ?_, hpv, hsv⟩
    rw [addrElem_afterAddrDest] at hne
    split at hne
    · next h =>
      obtain ⟨rfl, hle, hen⟩ := h
      obtain ⟨d, hd, hbound⟩ := addrFault_eq_none.1 hok
      rw [if_pos rfl] at hbound
      have hlt := enabled_lt hen
      exact ⟨d, hd, by omega⟩
    · exact hav id k hne
  | predDest o _ hok =>
    refine ⟨hgv, hav, fun pid n hne => ?_, hsv⟩
    rw [predBit_afterPredDest] at hne
    split at hne
    · next h =>
      obtain ⟨rfl, hle, hen⟩ := h
      obtain ⟨d, hd, hbound⟩ := predBoundFault_eq_none.1 (hok _ (enabled_lt hen))
      exact ⟨d, hd, by omega⟩
    · exact hpv pid n hne
  | rawDest o _ hok =>
    have hbytes (v : Word) (b : Nat) (h : byteOf? (afterRawDest o s).gv v b ≠ none) := afterRawDest_inBounds hs hok h
    rw [afterRawDest_eq] at hbytes ⊢
    exact ⟨hbytes, hav, hpv, hsv⟩
  | dataSource | addrSource | predSource | rawSource | predControl => exact ⟨hgv, hav, hpv, hsv⟩

/-- A step stands at the end of the program, or completes the operation at `pc`, which lies inside it. -/
theorem step_eq_next_cases {s t : State} (h : step s = .next t) :
    t = s ∨ s.pc < s.program.length ∧ ∃ c i, Completes (s.enter c) i t := by
  obtain ⟨hp, hpc⟩ := accepted_of_step_eq_next h
  obtain ⟨-, hstep⟩ | ⟨hlt, c, i, -, hstep⟩ := step_cases hp hpc
  · rw [hstep] at h
    cases h
    exact .inl rfl
  · rw [hstep] at h
    exact .inr ⟨hlt, c, i, completes_of_exec h⟩

/-- Settles O58: each row that completes keeps the storage canonical and in bounds, and moves the pc on by one. -/
theorem stepKeepsInvariant : Obligations.StepKeepsInvariant := by
  unfold Obligations.StepKeepsInvariant
  intro s t hs h
  obtain rfl | ⟨hlt, c, i, hrow⟩ := step_eq_next_cases h
  · exact hs
  · obtain ⟨hcanonical, hbounds, -⟩ := hs
    obtain ⟨⟨-, hprogram, -, -⟩, hpc⟩ := hrow.frame
    refine ⟨hrow.canonical ?_, hrow.inBounds ?_, ?_⟩
    · obtain ⟨hgv, hav, hpv, hsv, hdata, hptr, hstate⟩ := hcanonical
      exact ⟨hgv, hav, hpv, hsv, hdata, hptr, hstate⟩
    · obtain ⟨hgv, hav, hpv, hsv⟩ := hbounds
      exact ⟨hgv, hav, hpv, hsv⟩
    · rw [hpc, hprogram]
      exact hlt

/-- Settles O59: so each row does. -/
theorem stepKeepsLaunch : Obligations.StepKeepsLaunch := by
  unfold Obligations.StepKeepsLaunch
  intro s t h
  obtain rfl | ⟨-, c, i, hrow⟩ := step_eq_next_cases h
  · exact ⟨rfl, rfl, rfl, rfl⟩
  · obtain ⟨⟨hlaunch, hprogram, hem, hsv⟩, -⟩ := hrow.frame
    exact ⟨hlaunch, hprogram, hem, hsv⟩

end Sys2Proof.Machine
end

section
/-!
SUPPORT. The obligation about the causes of failure (60_exceptions.md R138): what each check can raise, and from that
what each row can.
-/

namespace Sys2Proof.Machine
open Sys2Proof.Claims

/-! ### What each check raises -/

theorem exists_of_firstFault {e : Nat} {check : Nat → Option Fault} {f : Fault} (h : firstFault e check = some f) :
    ∃ c, check c = some f := by
  obtain ⟨c, -, hc, -⟩ := (firstFault_eq_some ..).1 h
  exact ⟨c, hc⟩

theorem predBoundFault_cause {s : State} {pos : Pos} {pid : BitVec 12} {off n : Nat} {f : Fault}
    (h : predBoundFault s pos pid off n = some f) : f = .u7 ⟨s.pc, pos, n⟩ := by
  rw [predBoundFault] at h
  split at h
  · split at h
    · exact (Option.some.inj h).symm
    · cases h
  · exact (Option.some.inj h).symm

theorem predValueFault_cause {s : State} {pos : Pos} {pid : BitVec 12} {off n : Nat} {f : Fault}
    (h : predValueFault s pos pid off n = some f) : f = .u9 ⟨s.pc, pos, n⟩ := by
  rw [predValueFault] at h
  split at h
  · cases h
  · exact (Option.some.inj h).symm

theorem chEnFault_cause {s : State} {e : Nat} {m : MaskControl} {w : PredWord} {f : Fault}
    (h : chEnFault s e m w = some f) : ∃ n, f = .u7 ⟨s.pc, .pred, n⟩ ∨ f = .u9 ⟨s.pc, .pred, n⟩ := by
  rw [chEnFault] at h
  split at h
  · cases h
  · obtain h | ⟨-, h⟩ := Option.or_eq_some_iff.1 h
    · obtain ⟨n, hn⟩ := exists_of_firstFault h
      exact ⟨n, .inl (predBoundFault_cause hn)⟩
    · obtain ⟨n, hn⟩ := exists_of_firstFault h
      exact ⟨n, .inr (predValueFault_cause hn)⟩

theorem genFault_cause {s : State} {p : Place} {o : GenOpnd} {c : Nat} {f : Fault} (h : genFault s p o c = some f) :
    ∃ x, f = .u1 x := by
  rw [genFault] at h
  split at h
  · split at h
    · cases h
    · exact ⟨_, (Option.some.inj h).symm⟩
  · exact ⟨_, (Option.some.inj h).symm⟩

theorem indFault_cause {s : State} {p : Place} {o : IndOpnd} {c : Nat} {f : Fault} (h : indFault s p o c = some f) :
    ∃ x, f = .u2 x ∨ f = .u3 x ∨ f = .u4 x := by
  refine ⟨⟨s.pc, placePos p, c⟩, ?_⟩
  cases hx : indLoc s p o c with
  | none => exact .inl (Option.some.inj (h.symm.trans (indFault_of_indLoc_none hx)))
  | some x =>
    cases hd : s.launch.storage x.v with
    | none => exact .inl (Option.some.inj (h.symm.trans (indFault_of_storage_none hx hd)))
    | some d =>
      rw [indFault_of_storage hx hd] at h
      split at h
      · split at h
        · split at h
          · exact .inr (.inr (Option.some.inj h).symm)
          · cases h
        · exact .inr (.inl (Option.some.inj h).symm)
      · exact .inl (Option.some.inj h).symm

theorem dataFault_cause {s : State} {p : Place} {o : VecOpnd} {c : Nat} {f : Fault} (h : dataFault s p o c = some f) :
    (∃ g x, o = .general g ∧ f = .u1 x) ∨ ∃ g x, o = .indirect g ∧ (f = .u2 x ∨ f = .u3 x ∨ f = .u4 x) := by
  cases o with
  | general g =>
    obtain ⟨x, hx⟩ := genFault_cause h
    exact .inl ⟨g, x, rfl, hx⟩
  | indirect g =>
    obtain ⟨x, hx⟩ := indFault_cause h
    exact .inr ⟨g, x, rfl, hx⟩
  | address | predicate | immediate32 | immediate64 | state => cases h

/-- Only an operand that stands for storage has elements without a value. -/
theorem dataValueFault_cause {s : State} {p : Place} {o : VecOpnd} {en : Nat → Bool} {c : Nat} {f : Fault}
    (ho : o.hcopySrc = true) (h : dataValueFault s p o en c = some f) :
    f = .u9 ⟨s.pc, placePos p, c⟩ ∧ o.hcopyDst = true := by
  rw [dataValueFault] at h
  split at h
  · split at h
    · cases h
    · next hnone =>
      refine ⟨(Option.some.inj h).symm, ?_⟩
      cases o with
      | general | indirect => rfl
      | immediate32 | immediate64 => cases hnone
      | address | predicate | state => cases ho
  · cases h

theorem addrFault_cause {s : State} {p : Place} {o : AddrOpnd} {e : Nat} {f : Fault} (h : addrFault s p o e = some f) :
    ∃ x, f = .u6 x := by
  rw [addrFault] at h
  split at h
  · rw [Option.ite_none_right_eq_some] at h
    exact ⟨_, (Option.some.inj h.2).symm⟩
  · exact ⟨_, (Option.some.inj h).symm⟩

theorem addrValueFault_cause {s : State} {p : Place} {o : AddrOpnd} {c : Nat} {f : Fault}
    (h : addrValueFault s p o c = some f) : f = .u9 ⟨s.pc, placePos p, c⟩ := by
  rw [addrValueFault] at h
  split at h
  · split at h
    · cases h
    · exact (Option.some.inj h).symm
  · cases h

theorem predOpndValueFault_cause {s : State} {o : PredOpnd} {c : Nat} {f : Fault}
    (h : predOpndValueFault s o c = some f) : f = .u9 ⟨s.pc, .src, c⟩ := by
  rw [predOpndValueFault] at h
  split at h
  · exact predValueFault_cause h
  · cases h

theorem rawFault_cause {s : State} {o : RawOpnd} {f : Fault} (h : rawFault s o = some f) : ∃ x, f = .u5 x := by
  rw [rawFault] at h
  split at h
  · split at h
    · cases h
    · exact ⟨_, (Option.some.inj h).symm⟩
  · exact ⟨_, (Option.some.inj h).symm⟩

theorem rawValueFault_cause {s : State} {o : RawOpnd} {i : Nat} {f : Fault} (h : rawValueFault s o i = some f) :
    f = .u9 ⟨s.pc, .src, i⟩ := by
  rw [rawValueFault] at h
  split at h
  · cases h
  · exact (Option.some.inj h).symm

/-! ### What each row raises -/

theorem mayRaise_of_chEnFault {i : Instr} {s : State} {e : Nat} {m : MaskControl} {w : PredWord} {f : Fault}
    (hi : EvaluatesChEn i) (h : chEnFault s e m w = some f) : MayRaise i f := by
  obtain ⟨n, rfl | rfl⟩ := chEnFault_cause h
  · exact .inl ⟨rfl, hi⟩
  · exact .inl ⟨rfl, hi⟩

theorem evaluatesChEn_toInstr {o : VecOpnd} (ho : o.hcopySrc = true) : EvaluatesChEn o.toInstr := by
  cases o with
  | general | indirect | immediate32 | immediate64 => exact ⟨fun m => ⟨nofun, nofun⟩, nofun⟩
  | address | predicate | state => cases ho

theorem mayRaise_of_evalData {o : VecOpnd} {s : State} {f : Fault} (ho : o.hcopySrc = true)
    (h : evalData o s = .fault f) : MayRaise o.toInstr f := by
  rw [evalData, refuseIf_eq_fault, faultIf_eq_fault, faultIf_eq_fault] at h
  obtain ⟨-, hch | ⟨-, hfault | ⟨-, hvalue⟩⟩⟩ := h
  · exact mayRaise_of_chEnFault (evaluatesChEn_toInstr ho) hch
  · obtain ⟨c, hc⟩ := exists_of_firstFault hfault
    obtain ⟨g, x, rfl, rfl⟩ | ⟨g, x, rfl, rfl | rfl | rfl⟩ := dataFault_cause hc
    · exact .inl ⟨g, rfl⟩
    · exact .inl ⟨g, rfl⟩
    · exact .inl ⟨g, rfl⟩
    · exact .inl ⟨g, rfl⟩
  · split at hvalue
    · cases hvalue
    · next hp =>
      obtain hvalue | ⟨-, hvalue⟩ := (faultIf_eq_fault ..).1 hvalue
      · obtain ⟨c, hc⟩ := exists_of_firstFault hvalue
        obtain ⟨rfl, hdst⟩ := dataValueFault_cause ho hc
        obtain ⟨g, rfl⟩ | ⟨g, rfl⟩ := (hcopyDst_eq_true o).1 hdst
        · exact .inr ⟨placePos_of_ne_dst hp, .inl ⟨g, rfl⟩⟩
        · exact .inr ⟨placePos_of_ne_dst hp, .inr (.inl ⟨g, rfl⟩)⟩
      · cases hvalue

theorem mayRaise_of_evalAddr {o : AddrOpnd} {s : State} {f : Fault} (h : evalAddr o s = .fault f) :
    MayRaise (.opndAddress o) f := by
  rw [evalAddr, refuseIf_eq_fault, faultIf_eq_fault, faultIf_eq_fault] at h
  obtain ⟨-, hch | ⟨-, hfault | ⟨-, hvalue⟩⟩⟩ := h
  · exact mayRaise_of_chEnFault ⟨fun m => ⟨nofun, nofun⟩, nofun⟩ hch
  · obtain ⟨x, rfl⟩ := addrFault_cause hfault
    exact ⟨o, rfl⟩
  · split at hvalue
    · cases hvalue
    · next hp =>
      obtain hvalue | ⟨-, hvalue⟩ := (faultIf_eq_fault ..).1 hvalue
      · obtain ⟨c, hc⟩ := exists_of_firstFault hvalue
        obtain rfl := addrValueFault_cause hc
        exact .inr ⟨placePos_of_ne_dst hp, .inr (.inr (.inl ⟨o, rfl⟩))⟩
      · cases hvalue

theorem mayRaise_of_evalPred {o : PredOpnd} {s : State} {f : Fault} (h : evalPred o s = .fault f) :
    MayRaise (.opndPredicate o) f := by
  rw [evalPred, refuseIf_eq_fault, faultIf_eq_fault, faultIf_eq_fault] at h
  obtain ⟨-, hch | ⟨-, hfault | ⟨-, hvalue⟩⟩⟩ := h
  · exact mayRaise_of_chEnFault ⟨fun m => ⟨nofun, nofun⟩, nofun⟩ hch
  · obtain ⟨c, hc⟩ := exists_of_firstFault hfault
    obtain rfl := predBoundFault_cause hc
    exact .inr ⟨o, rfl⟩
  · split at hvalue
    · cases hvalue
    · obtain hvalue | ⟨-, hvalue⟩ := (faultIf_eq_fault ..).1 hvalue
      · obtain ⟨c, hc⟩ := exists_of_firstFault hvalue
        obtain rfl := predOpndValueFault_cause hc
        exact .inr ⟨rfl, .inr (.inr (.inr (.inl ⟨o, rfl⟩)))⟩
      · cases hvalue

theorem mayRaise_of_evalRaw {o : RawOpnd} {s : State} {f : Fault} (h : evalRaw o s = .fault f) :
    MayRaise (.rawOperand o) f := by
  rw [evalRaw, refuseIf_eq_fault, faultIf_eq_fault, faultIf_eq_fault] at h
  obtain ⟨-, hch | ⟨-, hfault | ⟨-, hvalue⟩⟩⟩ := h
  · exact mayRaise_of_chEnFault ⟨fun m => ⟨nofun, nofun⟩, nofun⟩ hch
  · obtain ⟨x, rfl⟩ := rawFault_cause hfault
    exact ⟨o, rfl⟩
  · split at hvalue
    · cases hvalue
    · obtain hvalue | ⟨-, hvalue⟩ := (faultIf_eq_fault ..).1 hvalue
      · obtain ⟨c, hc⟩ := exists_of_firstFault hvalue
        obtain rfl := rawValueFault_cause hc
        exact .inr ⟨rfl, .inr (.inr (.inr (.inr (.inl ⟨o, rfl⟩))))⟩
      · cases hvalue

/-- An operand's check in an HCOPY is raised by an operand of its class. -/
theorem mayRaise_hcopy_of_dataFault {e : ExecSize} {m : MaskControl} {w : PredWord} {dst src o : VecOpnd} {s : State}
    {p : Place} {c : Nat} {f : Fault} (ho : o = dst ∨ o = src) (h : dataFault s p o c = some f) :
    MayRaise (.hcopy e m w dst src) f := by
  obtain ⟨g, x, rfl, rfl⟩ | ⟨g, x, rfl, hx⟩ := dataFault_cause h
  · exact .inr ⟨e, m, w, dst, src, rfl, ho.imp (fun h => ⟨g, h.symm⟩) fun h => ⟨g, h.symm⟩⟩
  · have hclass : (∃ o, Instr.hcopy e m w dst src = .opndIndirect o) ∨ ∃ e' m' w' d' s',
        Instr.hcopy e m w dst src = .hcopy e' m' w' d' s' ∧ ((∃ o, d' = .indirect o) ∨ ∃ o, s' = .indirect o) :=
      .inr ⟨e, m, w, dst, src, rfl, ho.imp (fun h => ⟨g, h.symm⟩) fun h => ⟨g, h.symm⟩⟩
    obtain rfl | rfl | rfl := hx
    · exact hclass
    · exact hclass
    · exact hclass

theorem mayRaise_of_execHcopy {e : ExecSize} {m : MaskControl} {w : PredWord} {dst src : VecOpnd} {s : State}
    {f : Fault} (h : execHcopy e m w dst src s = .fault f) : MayRaise (.hcopy e m w dst src) f := by
  rw [execHcopy, refuseIf_eq_fault, faultIf_eq_fault, faultIf_eq_fault, faultIf_eq_fault] at h
  obtain ⟨hok, hch | ⟨-, hfault | ⟨-, hvalue | ⟨-, hnext⟩⟩⟩⟩ := h
  · exact mayRaise_of_chEnFault ⟨fun m => ⟨nofun, nofun⟩, nofun⟩ hch
  · obtain ⟨c, hc⟩ := exists_of_firstFault hfault
    obtain hdst | ⟨-, hsrc⟩ := Option.or_eq_some_iff.1 hc
    · exact mayRaise_hcopy_of_dataFault (.inl rfl) hdst
    · exact mayRaise_hcopy_of_dataFault (.inr rfl) hsrc
  · obtain ⟨c, hc⟩ := exists_of_firstFault hvalue
    obtain ⟨-, hsrc, -⟩ := hcopyRefusal_eq_none.1 hok
    obtain ⟨rfl, -⟩ := dataValueFault_cause (hcopySrc_of_vecReason rfl rfl hsrc) hc
    exact .inr ⟨rfl, .inr (.inr (.inr (.inr (.inr ⟨e, m, w, dst, src, rfl⟩))))⟩
  · cases hnext

/-- Settles O60: a row raises what its own checks raise. -/
theorem faultCausesByRow : Obligations.FaultCausesByRow := by
  unfold Obligations.FaultCausesByRow
  intro i s f h
  cases i with
  | opndGeneral o => exact mayRaise_of_evalData (o := .general o) rfl h
  | opndIndirect o => exact mayRaise_of_evalData (o := .indirect o) rfl h
  | opndImmediate32 o => exact mayRaise_of_evalData (o := .immediate32 o) rfl h
  | opndImmediate64 o => exact mayRaise_of_evalData (o := .immediate64 o) rfl h
  | opndAddress o => exact mayRaise_of_evalAddr h
  | opndPredicate o => exact mayRaise_of_evalPred h
  | opndState o =>
    obtain ⟨p, r, -, hr⟩ := evalState_refused o s
    cases hr.symm.trans h
  | opndReserved100 m => cases h
  | opndReserved111 m => cases h
  | rawOperand o => exact mayRaise_of_evalRaw h
  | predControl w =>
    obtain ⟨-, hch | ⟨-, hnext⟩⟩ := ((refuseIf_eq_fault ..).trans (and_congr_right fun _ => faultIf_eq_fault ..)).1 h
    · exact mayRaise_of_chEnFault ⟨fun m => ⟨nofun, nofun⟩, nofun⟩ hch
    · cases hnext
  | hcopy e m w dst src => exact mayRaise_of_execHcopy h

end Sys2Proof.Machine
end
